-- ==== Sys2Proof/Word.lean ====
section
/-! DEFINITION. The words of the block: bytes, device addresses and binary64 patterns (spec R6, R8, R9). -/

namespace Sys2Proof

/-- A byte, `u8` (R7, R8). Register addresses and register data are bytes (R6). -/
abbrev Byte := BitVec 8

/-- A 7-bit device address, `u7` (R6, R29). -/
abbrev DevAddr := BitVec 7

/-- A binary64 value as its IEEE 754 interchange pattern (R9, R61). -/
abbrev F64 := BitVec 64

end Sys2Proof
end

