-- ==== Sys2Proof/Syntax.lean ====
section
/-! DEFINITION. The instructions: the 23 host commands of R62 and the 9 bus transactions of R66, one constructor per row
of spec/opcode_table.json. -/

namespace Sys2Proof

/-- A DeviceConfiguration as the `cfg` operand carries it: six raw codes, 0 to 255 each, in operand order (R61, R140). -/
structure Cfg where
  osrsH  : Byte
  osrsP  : Byte
  osrsT  : Byte
  mode   : Byte
  filter : Byte
  tSb    : Byte
  deriving DecidableEq, Repr

/-- The `cal` operand: 33 bytes, `blk24 ++ blk8 ++ h1` (R61). -/
structure CalOperand where
  blk24 : List Byte
  blk8  : List Byte
  h1    : Byte
  deriving DecidableEq, Repr

/-- One constructor per row of the opcode table. Byte arrays are lists, element 0 first (R60); `WellFormed` fixes their
lengths. -/
inductive Instr where
  | writeReg (reg val : Byte)
  | readRegs (reg count : Byte)
  | decodeTp (blk24 : List Byte)
  | decodeH (blk8 : List Byte) (h1 : Byte)
  | unpackRaw (blk8 : List Byte)
  | compT (traw : BitVec 32) (cal : CalOperand)
  | compP (praw tfine : BitVec 32) (cal : CalOperand)
  | compH (hraw : BitVec 16) (tfine : BitVec 32) (cal : CalOperand)
  | clamp (t p h : F64) (flag : Byte)
  | compensate (praw traw : BitVec 32) (hraw : BitVec 16) (cal : CalOperand)
  | validateCfg (cfg : Cfg)
  | encCtrlHum (cfg : Cfg)
  | encCtrlMeas (cfg : Cfg)
  | encConfig (cfg : Cfg)
  | durTypical (cfg : Cfg)
  | durMax (cfg : Cfg)
  | durCycle (cfg : Cfg)
  | nearestStandby (reqUs : BitVec 64)
  | init
  | configure (cfg : Cfg)
  | softReset
  | readMeas
  | close
  /-- Bus transaction `RD_ID` of R66; the eight constructors below it are the others. -/
  | rdId
  | rdCal1
  | rdCal2
  | rdCalH1
  | wrCtrlHum (val : Byte)
  | wrCtrlMeas (val : Byte)
  | wrConfig (val : Byte)
  | wrReset
  | rdData
  deriving DecidableEq, Repr

end Sys2Proof
end

