-- ==== Sys2Proof/WellFormed.lean ====
section
/-! DEFINITION. Which instructions have an encoding: every byte array has the length its operand type states (R61). -/

namespace Sys2Proof

/-- `cal`: 24 bytes, 8 bytes and one byte (R61). -/
def CalOperand.wellFormed (c : CalOperand) : Bool :=
  c.blk24.length == 24 && c.blk8.length == 8

/-- The length of every byte-array operand is the one of R61. All other operand types hold exactly the values of their
fields, so every value of theirs is well formed; codes above 7 in `cfg`, raw codes of 2^20 and more, and bursts outside
R106 are operands a command can carry (R61, R106, R172). -/
def Instr.WellFormed : Instr → Bool
  | .decodeTp b => b.length == 24
  | .decodeH c _ => c.length == 8
  | .unpackRaw d => d.length == 8
  | .compT _ cal => cal.wellFormed
  | .compP _ _ cal => cal.wellFormed
  | .compH _ _ cal => cal.wellFormed
  | .compensate _ _ _ cal => cal.wellFormed
  | .writeReg _ _ | .readRegs _ _ | .clamp _ _ _ _ => true
  | .validateCfg _ | .encCtrlHum _ | .encCtrlMeas _ | .encConfig _ => true
  | .durTypical _ | .durMax _ | .durCycle _ | .nearestStandby _ => true
  | .init | .configure _ | .softReset | .readMeas | .close => true
  | .rdId | .rdCal1 | .rdCal2 | .rdCalH1 | .rdData => true
  | .wrCtrlHum _ | .wrCtrlMeas _ | .wrConfig _ | .wrReset => true

end Sys2Proof
end

