-- ==== Sys2Proof/Decode.lean ====
section
/-! DEFINITION. Byte order, the decoder of the host port and of the bus port, the encoder, and the reading of the opcode
table's numbered words (R60 to R66). -/

namespace Sys2Proof

/-! ### Byte order -/

/-- Element `i` of a byte array, 0 past its end (a well-formed operand is never read past its end). -/
def byteAt (bs : List Byte) (i : Nat) : Byte := bs.getD i 0

/-- The little-endian value of a byte sequence, first byte least significant (R60). -/
def leNat : List Byte → Nat
  | [] => 0
  | b :: bs => b.toNat + 256 * leNat bs

/-- `n` bytes of `x`, little-endian (R60). -/
def leBytes : Nat → Nat → List Byte
  | 0, _ => []
  | n + 1, x => BitVec.ofNat 8 x :: leBytes n (x / 256)

/-- `len` bytes of an operand from byte `at0` on. -/
def slice (bs : List Byte) (at0 len : Nat) : List Byte := (bs.drop at0).take len

/-- A `w`-bit operand field of `len` bytes at byte `at0`, little-endian (R60). -/
def leField (w : Nat) (bs : List Byte) (at0 len : Nat) : BitVec w := BitVec.ofNat w (leNat (slice bs at0 len))

/-! ### Operand layouts -/

/-- `cfg`: `osrs_h`, `osrs_p`, `osrs_t`, `mode`, `filter`, `t_sb` (R61). -/
def cfgOf (bs : List Byte) : Cfg :=
  { osrsH := byteAt bs 0, osrsP := byteAt bs 1, osrsT := byteAt bs 2
    mode := byteAt bs 3, filter := byteAt bs 4, tSb := byteAt bs 5 }

/-- `cal`: `blk24 ++ blk8 ++ h1`, from byte `at0` of the operands (R61). -/
def calOperandAt (bs : List Byte) (at0 : Nat) : CalOperand :=
  { blk24 := slice bs at0 24, blk8 := slice bs (at0 + 24) 8, h1 := byteAt bs (at0 + 32) }

/-- The bytes of a `cfg` operand (R61). -/
def cfgBytes (c : Cfg) : List Byte := [c.osrsH, c.osrsP, c.osrsT, c.mode, c.filter, c.tSb]

/-- The bytes of a `cal` operand (R61). -/
def calBytes (c : CalOperand) : List Byte := c.blk24 ++ c.blk8 ++ [c.h1]

/-! ### The two ports -/

/-- Where an instruction comes from: a host command, or a bus transaction requested by itself (log entry 9). -/
inductive Port where
  | host
  | bus
  deriving DecidableEq, Repr

/-- Why no instruction is read. `noInput`: nothing waits on the port. `undefinedOpcode` and `truncatedCommand`: the two
reasons of R63. `notAFrame`: bytes that are none of the transactions of R66. -/
inductive DecodeError where
  | noInput
  | undefinedOpcode
  | truncatedCommand
  | notAFrame
  deriving DecidableEq, Repr

/-- Read `n` operand bytes and build the command from them; a stream that ends before them is a truncated command (R63). -/
def withOperands (n : Nat) (bs : List Byte) (build : List Byte → Instr) : Except DecodeError (Instr × List Byte) :=
  if bs.length < n then .error .truncatedCommand else .ok (build (bs.take n), bs.drop n)

/-- The host command at the head of a byte stream, and the stream after it (R60 to R63). -/
def decodeHost : List Byte → Except DecodeError (Instr × List Byte)
  | [] => .error .noInput
  | op :: bs =>
    match op.toNat with
    | 0x01 => withOperands 2 bs fun o => .writeReg (byteAt o 0) (byteAt o 1)
    | 0x02 => withOperands 2 bs fun o => .readRegs (byteAt o 0) (byteAt o 1)
    | 0x10 => withOperands 24 bs fun o => .decodeTp o
    | 0x11 => withOperands 9 bs fun o => .decodeH (slice o 0 8) (byteAt o 8)
    | 0x20 => withOperands 8 bs fun o => .unpackRaw o
    | 0x21 => withOperands 37 bs fun o => .compT (leField 32 o 0 4) (calOperandAt o 4)
    | 0x22 => withOperands 41 bs fun o => .compP (leField 32 o 0 4) (leField 32 o 4 4) (calOperandAt o 8)
    | 0x23 => withOperands 39 bs fun o => .compH (leField 16 o 0 2) (leField 32 o 2 4) (calOperandAt o 6)
    | 0x24 => withOperands 25 bs fun o => .clamp (leField 64 o 0 8) (leField 64 o 8 8) (leField 64 o 16 8) (byteAt o 24)
    | 0x25 => withOperands 43 bs fun o =>
        .compensate (leField 32 o 0 4) (leField 32 o 4 4) (leField 16 o 8 2) (calOperandAt o 10)
    | 0x30 => withOperands 6 bs fun o => .validateCfg (cfgOf o)
    | 0x31 => withOperands 6 bs fun o => .encCtrlHum (cfgOf o)
    | 0x32 => withOperands 6 bs fun o => .encCtrlMeas (cfgOf o)
    | 0x33 => withOperands 6 bs fun o => .encConfig (cfgOf o)
    | 0x34 => withOperands 6 bs fun o => .durTypical (cfgOf o)
    | 0x35 => withOperands 6 bs fun o => .durMax (cfgOf o)
    | 0x36 => withOperands 6 bs fun o => .durCycle (cfgOf o)
    | 0x37 => withOperands 8 bs fun o => .nearestStandby (leField 64 o 0 8)
    | 0x40 => withOperands 0 bs fun _ => .init
    | 0x41 => withOperands 6 bs fun o => .configure (cfgOf o)
    | 0x42 => withOperands 0 bs fun _ => .softReset
    | 0x43 => withOperands 0 bs fun _ => .readMeas
    | 0x44 => withOperands 0 bs fun _ => .close
    | _ => .error .undefinedOpcode

/-- The bus transaction that starts with a write frame at the head of `bs`, and the bytes after the frame: `[reg]` for the
five reads (R65), `[reg, val]` for the four writes (R64), and no others (R66). -/
def decodeFrame : List Byte → Except DecodeError (Instr × List Byte)
  | [] => .error .noInput
  | reg :: bs =>
    match reg.toNat with
    | 0xD0 => .ok (.rdId, bs)
    | 0x88 => .ok (.rdCal1, bs)
    | 0xE1 => .ok (.rdCal2, bs)
    | 0xA1 => .ok (.rdCalH1, bs)
    | 0xF7 => .ok (.rdData, bs)
    | 0xF2 => withOperands 1 bs fun o => .wrCtrlHum (byteAt o 0)
    | 0xF4 => withOperands 1 bs fun o => .wrCtrlMeas (byteAt o 0)
    | 0xF5 => withOperands 1 bs fun o => .wrConfig (byteAt o 0)
    | 0xE0 => if byteAt bs 0 = 0xB6 then withOperands 1 bs fun _ => .wrReset else .error .notAFrame
    | _ => .error .notAFrame

/-- The decoder of each port. -/
def decode : Port → List Byte → Except DecodeError (Instr × List Byte)
  | .host, bs => decodeHost bs
  | .bus, bs => decodeFrame bs

/-! ### The encoder -/

/-- The port an instruction is encoded for. -/
def portOf : Instr → Port
  | .rdId | .rdCal1 | .rdCal2 | .rdCalH1 | .rdData => .bus
  | .wrCtrlHum _ | .wrCtrlMeas _ | .wrConfig _ | .wrReset => .bus
  | .writeReg _ _ | .readRegs _ _ | .decodeTp _ | .decodeH _ _ | .unpackRaw _ => .host
  | .compT _ _ | .compP _ _ _ | .compH _ _ _ | .clamp _ _ _ _ | .compensate _ _ _ _ => .host
  | .validateCfg _ | .encCtrlHum _ | .encCtrlMeas _ | .encConfig _ => .host
  | .durTypical _ | .durMax _ | .durCycle _ | .nearestStandby _ => .host
  | .init | .configure _ | .softReset | .readMeas | .close => .host

/-- The bytes of an instruction, from the opcode map of R62 and the frames of R64 to R66. -/
def encode : Instr → List Byte
  | .writeReg reg val => [0x01, reg, val]
  | .readRegs reg count => [0x02, reg, count]
  | .decodeTp b => 0x10 :: b
  | .decodeH c h1 => 0x11 :: (c ++ [h1])
  | .unpackRaw d => 0x20 :: d
  | .compT traw cal => 0x21 :: (leBytes 4 traw.toNat ++ calBytes cal)
  | .compP praw tfine cal => 0x22 :: (leBytes 4 praw.toNat ++ leBytes 4 tfine.toNat ++ calBytes cal)
  | .compH hraw tfine cal => 0x23 :: (leBytes 2 hraw.toNat ++ leBytes 4 tfine.toNat ++ calBytes cal)
  | .clamp t p h flag => 0x24 :: (leBytes 8 t.toNat ++ leBytes 8 p.toNat ++ leBytes 8 h.toNat ++ [flag])
  | .compensate praw traw hraw cal =>
      0x25 :: (leBytes 4 praw.toNat ++ leBytes 4 traw.toNat ++ leBytes 2 hraw.toNat ++ calBytes cal)
  | .validateCfg cfg => 0x30 :: cfgBytes cfg
  | .encCtrlHum cfg => 0x31 :: cfgBytes cfg
  | .encCtrlMeas cfg => 0x32 :: cfgBytes cfg
  | .encConfig cfg => 0x33 :: cfgBytes cfg
  | .durTypical cfg => 0x34 :: cfgBytes cfg
  | .durMax cfg => 0x35 :: cfgBytes cfg
  | .durCycle cfg => 0x36 :: cfgBytes cfg
  | .nearestStandby req => 0x37 :: leBytes 8 req.toNat
  | .init => [0x40]
  | .configure cfg => 0x41 :: cfgBytes cfg
  | .softReset => [0x42]
  | .readMeas => [0x43]
  | .close => [0x44]
  | .rdId => [0xD0]
  | .rdCal1 => [0x88]
  | .rdCal2 => [0xE1]
  | .rdCalH1 => [0xA1]
  | .rdData => [0xF7]
  | .wrCtrlHum val => [0xF2, val]
  | .wrCtrlMeas val => [0xF4, val]
  | .wrConfig val => [0xF5, val]
  | .wrReset => [0xE0, 0xB6]

/-! ### The opcode table's numbered words -/

/-- The whole length in bytes of the host command with a given opcode (R62). -/
def commandLength : Nat → Option Nat
  | 0x01 | 0x02 => some 3
  | 0x10 => some 25
  | 0x11 => some 10
  | 0x20 => some 9
  | 0x21 => some 38
  | 0x22 => some 42
  | 0x23 => some 40
  | 0x24 => some 26
  | 0x25 => some 44
  | 0x30 | 0x31 | 0x32 | 0x33 | 0x34 | 0x35 | 0x36 | 0x41 => some 7
  | 0x37 => some 9
  | 0x40 | 0x42 | 0x43 | 0x44 => some 1
  | _ => none

/-- The port and bytes of a table row's word `w` of `nbits` bits, every bit above them 0. The table numbers a host command
byte by byte from the first; it numbers a write frame as one 16-bit word, most significant byte first on the wire (R64);
it numbers a read frame's one byte at bits 7 to 0 (log entry 17). -/
def tableBytes (nbits w0 : Nat) : Port × List Byte :=
  let w := w0 % 2 ^ nbits
  let low := w % 256
  let high := w / 256 % 256
  if nbits = 16 ∧ (high = 0xF2 ∨ high = 0xF4 ∨ high = 0xF5 ∨ high = 0xE0) then
    (.bus, [BitVec.ofNat 8 high, BitVec.ofNat 8 low])
  else if low = 0xD0 ∨ low = 0x88 ∨ low = 0xE1 ∨ low = 0xA1 ∨ low = 0xF7 then
    (.bus, [BitVec.ofNat 8 low])
  else
    (.host, leBytes ((commandLength low).getD (nbits / 8)) w)

/-- The instruction the decoder reads from a table row's word. -/
def decodeTableWord (nbits w : Nat) : Option Instr :=
  match decode (tableBytes nbits w).1 (tableBytes nbits w).2 with
  | .ok (i, _) => some i
  | .error _ => none

end Sys2Proof
end

