-- ==== Sys2Proof/Config.lean ====
section
/-! DEFINITION. What the model leaves open: the parameters of R6 and the free values. A free value is an opaque constant
with no body; nothing in Lean can evaluate it. -/

namespace Sys2Proof.Config

/-- `CONFIG_LAYOUT` (R6, D26): the shifts of the config register's two fields (R148). -/
inductive ConfigLayout where
  | doc
  | vendor
  deriving DecidableEq, Repr

/-- The open parameters of R6 that the block is built with. The field defaults are the defaults of R6. -/
structure Params where
  h45SignExtend          : Bool := false
  pzeroClamped           : Bool := false
  standbyScanIncludes1000 : Bool := false
  resetReappliesConfig   : Bool := false
  configLayout           : ConfigLayout := .doc
  deriving DecidableEq, Repr

/-- One draw of the transport oracle (R102), before it is read as the answer to a call: every draw reads as an answer of
the call's own outcome set, and every answer of R100 is some draw's reading. `fails`: the answer `fail`; `count`: the
bytes written; `bytes`: the bytes read. DESIGN CHOICE, log entry 2 (safe). -/
structure Draw where
  fails : Bool
  count : Nat
  bytes : List Byte
  deriving DecidableEq, Repr, Inhabited

/-- The transport's answer number `n`, where the environment has fixed none (R102, U1). Log entry 2, safe. -/
opaque freeDraw : Nat → Draw

/-- The choice number `n` among tied standby codes, where the environment has fixed none (R152, U7). Log entry 3, safe. -/
opaque freeTie : Nat → Nat

/-- `DEV_ADDR` (R6, D27): "The two values are OPEN". Log entry 4, safe. -/
opaque devAddr : DevAddr

/-- The bits of the NaN that an operation on `x` and `y` gives. No rule states them, and no NaN arises from the operands
of R172 (R183). Log entry 13, safe. -/
opaque nanBits : F64 → F64 → F64

/-- `trunc_s32(x)` for an `x` outside s32; it cannot occur (R174). Log entry 14, safe. -/
opaque truncOutOfRange : F64 → BitVec 32

end Sys2Proof.Config
end

