-- ==== Sys2Proof/Machine/State.lean ====
section
/-! DEFINITION. The state of the block (R20, R29, R232), what it answers (R75, R230 to R236), and reset (R260). -/

namespace Sys2Proof.Machine

/-! ### Reasons a step can stop -/

/-- The machine never stops with a fault: an error is an outcome returned to the caller, after which the block accepts
the next command (R240). So there is no fault, and no instruction raises one (safe). -/
inductive Fault where
  deriving DecidableEq, Repr

/-- Reasons a step has no meaning. The spec's own refusals (R232) are NOT among them: they are outcomes of a command,
`CmdOutcome.refused`. -/
inductive Refusal where
  /-- Raised by an arm of `exec` for an instruction without a meaning; no arm does. Safe. -/
  | notModelled (mnemonic : String)
  /-- Raised by `step` when bytes stand in the model's own `frameIn` that start none of the transactions of R66; "never
  emits any other frame shape" (R71), so there is nothing to run. No instruction raises it. Safe. Log entry 10. -/
  | notABusTransaction
  deriving DecidableEq, Repr

/-! ### The calibration snapshot -/

/-- The coefficients of block 1 (R120, R121): `t1`, `p1` are u16, the others s16. -/
structure CalTP where
  t1 : BitVec 16
  t2 : BitVec 16
  t3 : BitVec 16
  p1 : BitVec 16
  p2 : BitVec 16
  p3 : BitVec 16
  p4 : BitVec 16
  p5 : BitVec 16
  p6 : BitVec 16
  p7 : BitVec 16
  p8 : BitVec 16
  p9 : BitVec 16
  deriving DecidableEq, Repr

/-- The humidity coefficients (R120, R123 to R128): `h1`, `h3` are u8, `h2`, `h4`, `h5` s16, `h6` s8. -/
structure CalH where
  h1 : BitVec 8
  h2 : BitVec 16
  h3 : BitVec 8
  h4 : BitVec 16
  h5 : BitVec 16
  h6 : BitVec 8
  deriving DecidableEq, Repr

/-- CalibrationCoefficients (R120), `tp ++ hu` (R131). -/
structure Cal where
  tp : CalTP
  hu : CalH
  deriving DecidableEq, Repr

/-- What `S.cal` is filled with before any load: it "holds no value" (R20). DESIGN CHOICE, log entry 6 (unsafe). -/
def Cal.unwritten : Cal :=
  { tp := { t1 := 0, t2 := 0, t3 := 0, p1 := 0, p2 := 0, p3 := 0, p4 := 0, p5 := 0, p6 := 0, p7 := 0, p8 := 0, p9 := 0 }
    hu := { h1 := 0, h2 := 0, h3 := 0, h4 := 0, h5 := 0, h6 := 0 } }

/-! ### Phases, modes, transport events -/

/-- `S.phase` (R20). -/
inductive Phase where
  | uninit
  | ready
  | configured
  | closed
  deriving DecidableEq, Repr

/-- `S.mode` (R20, R23). -/
inductive Mode where
  | none
  | sleep
  | forcedPending
  | normal
  deriving DecidableEq, Repr

/-- The outcomes of `Select` (R100). -/
inductive SelectAnswer where
  | ok
  | fail
  deriving DecidableEq, Repr

/-- The outcomes of `TxWrite` (R100). -/
inductive WriteAnswer where
  | wrote (k : Nat)
  | fail
  deriving DecidableEq, Repr

/-- The outcomes of `TxRead` (R100). -/
inductive ReadAnswer where
  | got (bs : List Byte)
  | fail
  deriving DecidableEq, Repr

/-- A transport event of `S.trace`: `Sel(a, outcome)`, `W(bs, outcome)`, `R(n, outcome)` or `Dly(us)` (R110, R262). -/
inductive Event where
  | sel (a : DevAddr) (out : SelectAnswer)
  | w (bs : List Byte) (out : WriteAnswer)
  | r (n : Nat) (out : ReadAnswer)
  | dly (us : Nat)
  deriving DecidableEq, Repr

/-! ### Outcomes of a command -/

/-- `BusError` causes (R233). -/
inductive BusCause where
  | selectFailed
  | shortWrite
  | shortRead
  | ioFailure
  | closed
  deriving DecidableEq, Repr

/-- The field a `ConfigurationError` names (R236). -/
inductive CfgField where
  | osrsH
  | osrsP
  | osrsT
  | mode
  | filter
  | tSb
  deriving DecidableEq, Repr

/-- The four error kinds with the information each carries (R231). -/
inductive CmdError where
  | busError (cause : BusCause)
  | identityMismatch (id : Byte)
  | calibrationReadError (cause : BusCause)
  | configurationError (field : CfgField) (code : Byte)
  deriving DecidableEq, Repr

/-- The refusal reasons (R232). -/
inductive RefuseReason where
  | undefinedOpcode
  | truncatedCommand
  | badBurst
  | badRaw
  | notInitialized
  | noLastConfig
  | unwrittenCalibration
  deriving DecidableEq, Repr

/-- A PhysicalMeasurement in the order temperature, pressure, humidity (R181). -/
structure Meas where
  t : F64
  p : F64
  h : F64
  deriving DecidableEq, Repr

/-- Success payloads (R75). -/
inductive Payload where
  | none
  | bytes (bs : List Byte)
  | tp (c : CalTP)
  | hu (c : CalH)
  | raw (praw traw : BitVec 20) (hraw : BitVec 16)
  | temp (t : F64) (tfine : BitVec 32)
  | press (p : F64) (sentinel : Bool)
  | humid (h : F64)
  | meas (m : Meas)
  | regVal (v : Byte)
  | duration (us : BitVec 64)
  | standby (code : Byte)
  deriving DecidableEq, Repr

/-- How a command ends (R230). -/
inductive CmdOutcome where
  | success (p : Payload)
  | error (e : CmdError)
  | refused (r : RefuseReason)
  deriving DecidableEq, Repr

/-! ### The state -/

/-- The state: the record S of R20 (`devAddr` to `trace`), the transport's `T.sel` (R29; `none` is `unknown`), the refusal
mark (R232), the parameters of R6, and the model's own ports and free-value fields (log entries 2, 3, 7, 9, 11). -/
structure State where
  devAddr     : DevAddr
  phase       : Phase
  mode        : Mode
  calValid    : Bool
  cal         : Cal
  lastCfg     : Option Cfg
  trace       : List Event
  tSel        : Option DevAddr
  refusalMark : Bool
  params      : Config.Params
  hostIn      : List Byte
  frameIn     : List Byte
  result      : Option CmdOutcome
  answers     : List Config.Draw
  drawn       : Nat
  ties        : List Nat
  tiesDrawn   : Nat
  deriving DecidableEq, Repr

/-- The block right after construction (R260): every field of S at its value of R20, `T.sel` unknown, no refusal mark, the
parameters at their defaults of R6. The model's own fields are empty (log entries 2, 3, 7, 9, 11). -/
def State.reset : State :=
  { devAddr := Config.devAddr
    phase := .uninit
    mode := .none
    calValid := false
    cal := Cal.unwritten
    lastCfg := none
    trace := []
    tSel := none
    refusalMark := false
    params := {}
    hostIn := []
    frameIn := []
    result := none
    answers := []
    drawn := 0
    ties := []
    tiesDrawn := 0 }

end Sys2Proof.Machine
end

