-- ==== Sys2Proof/Machine/Ops.lean ====
section
/-! DEFINITION. The shared operations: how a command ends (R230 to R240), the transport calls (R100 to R103), and the
register access primitives (R104 to R108). -/

namespace Sys2Proof.Machine

/-! ### Named constants of R6 and R41 -/

namespace Reg
def calBlock1 : Byte := 0x88
def calH1 : Byte := 0xA1
def identity : Byte := 0xD0
def softReset : Byte := 0xE0
def calBlock2 : Byte := 0xE1
def ctrlHum : Byte := 0xF2
def status : Byte := 0xF3
def ctrlMeas : Byte := 0xF4
def config : Byte := 0xF5
def data : Byte := 0xF7
end Reg

/-- `ID_EXPECTED` (R6, R31). -/
def idExpected : Byte := 0x60

/-- `RESET_CMD` (R6, R32). -/
def resetCmd : Byte := 0xB6

/-- `RESET_SETTLE_US` (R6, R264). -/
def resetSettleUs : Nat := 2000

/-! ### Ending a command -/

/-- The numeric code of an error kind (R231). -/
def CmdError.code : CmdError → Nat
  | .busError _ => 1
  | .identityMismatch _ => 2
  | .calibrationReadError _ => 3
  | .configurationError _ _ => 4

def CmdOutcome.isRefused : CmdOutcome → Bool
  | .refused _ => true
  | .success _ | .error _ => false

/-- End a command with outcome `o`: it is returned to the caller (R230), and a refusal sets the refusal mark, which stays
(R232). This is the whole of error entry: no control transfer, no saved context (R239), and nothing to return from
(R240). Log entries 1, 11. -/
def reply (r : CmdOutcome × State) : State :=
  { r.2 with result := some r.1, refusalMark := r.2.refusalMark || r.1.isRefused }

/-- `raise E` at state `s` (R10). -/
def raise (e : CmdError) (s : State) : CmdOutcome × State := (.error e, s)

/-- `refuse(reason)` at state `s` (R10). -/
def refuse (r : RefuseReason) (s : State) : CmdOutcome × State := (.refused r, s)

/-- `return v` at state `s` (R10). -/
def succeed (p : Payload) (s : State) : CmdOutcome × State := (.success p, s)

/-! ### Free values -/

/-- The transport's `k`-th answer from now: one the environment has fixed, else a free one (log entry 2). -/
def State.upcoming (s : State) (k : Nat) : Config.Draw :=
  (s.answers[k]?).getD (Config.freeDraw (s.drawn + k))

/-- The state after one transport answer has been drawn. -/
def State.afterDraw (s : State) : State := { s with answers := s.answers.tail, drawn := s.drawn + 1 }

/-- The next choice among tied codes: one the environment has fixed, else a free one (log entry 3). -/
def State.nextTie (s : State) : Nat := (s.ties[0]?).getD (Config.freeTie s.tiesDrawn)

/-- The state after one tie has been drawn. -/
def State.afterTie (s : State) : State := { s with ties := s.ties.tail, tiesDrawn := s.tiesDrawn + 1 }

/-! ### The transport port (R100) -/

/-- A draw read as the answer to `Select`. -/
def selectAnswer (d : Config.Draw) : SelectAnswer := if d.fails then .fail else .ok

/-- A draw read as the answer to a `TxWrite` of `len` bytes: `wrote(k)` has `k ≤ len`. -/
def writeAnswer (len : Nat) (d : Config.Draw) : WriteAnswer := if d.fails then .fail else .wrote (min d.count len)

/-- A draw read as the answer to `TxRead(n)`: `got(bs)` has at most `n` bytes. -/
def readAnswer (n : Nat) (d : Config.Draw) : ReadAnswer := if d.fails then .fail else .got (d.bytes.take n)

/-- Append an event to the trace (R110). -/
def State.record (s : State) (e : Event) : State := { s with trace := s.trace ++ [e] }

/-- `Select(S.devAddr)`: the answer, and the state with `T.sel` set or unknown (R101). -/
def select (s : State) : SelectAnswer × State :=
  let a := selectAnswer (s.upcoming 0)
  (a, { (s.afterDraw.record (.sel s.devAddr a)) with tSel := if a = .ok then some s.devAddr else none })

/-- `TxWrite(bs)`. -/
def txWrite (bs : List Byte) (s : State) : WriteAnswer × State :=
  let a := writeAnswer bs.length (s.upcoming 0)
  (a, s.afterDraw.record (.w bs a))

/-- `TxRead(n)`. -/
def txRead (n : Nat) (s : State) : ReadAnswer × State :=
  let a := readAnswer n (s.upcoming 0)
  (a, s.afterDraw.record (.r n a))

/-- `Delay(us)` (R262): an event, and nothing else of the state. Log entry 19. -/
def delay (us : Nat) (s : State) : State := s.record (.dly us)

/-! ### The primitives -/

/-- `selectAndWrite(reg, val)`, `MemWrite(reg, 1, val)` (R104): `none` on success, else the `BusError` cause (R103). -/
def memWrite (reg val : Byte) (s : State) : Option BusCause × State :=
  if s.phase = .closed then (some .closed, s)
  else
    match select s with
    | (.fail, s1) => (some .selectFailed, s1)
    | (.ok, s1) =>
      match txWrite [reg, val] s1 with
      | (.fail, s2) => (some .ioFailure, s2)
      | (.wrote k, s2) => if k < 2 then (some .shortWrite, s2) else (none, s2)

/-- `MemRead(reg, n)`: the bus part of `selectAndRead(reg, n)` (R105), for a burst inside the domain of R106. -/
def memRead (reg : Byte) (n : Nat) (s : State) : Except BusCause (List Byte) × State :=
  if s.phase = .closed then (.error .closed, s)
  else
    match select s with
    | (.fail, s1) => (.error .selectFailed, s1)
    | (.ok, s1) =>
      match txWrite [reg] s1 with
      | (.fail, s2) => (.error .ioFailure, s2)
      | (.wrote 0, s2) => (.error .shortWrite, s2)
      | (.wrote _, s2) =>
        match txRead n s2 with
        | (.fail, s3) => (.error .ioFailure, s3)
        | (.got bs, s3) => if bs.length < n then (.error .shortRead, s3) else (.ok bs, s3)

/-- The domain of a register burst (R106). -/
def burstInDomain (reg count : Byte) : Bool := 1 ≤ count.toNat && reg.toNat + count.toNat ≤ 256

/-- The outcome of a register write as a command. -/
def writeCmd (reg val : Byte) (s : State) : CmdOutcome × State :=
  match memWrite reg val s with
  | (some c, s1) => raise (.busError c) s1
  | (none, s1) => succeed .none s1

/-- The outcome of a register read as a command; its payload is the bytes (R75). -/
def readCmd (reg : Byte) (n : Nat) (s : State) : CmdOutcome × State :=
  match memRead reg n s with
  | (.error c, s1) => raise (.busError c) s1
  | (.ok bs, s1) => succeed (.bytes bs) s1

end Sys2Proof.Machine
end

