-- ==== Sys2Proof/Machine/BusAccess.lean ====
section
/-! DEFINITION. WRITE_REG and READ_REGS (R104 to R111). -/

namespace Sys2Proof.Machine

/-- `selectAndWrite(reg, val)` as a host command (R104). -/
def execWriteReg (reg val : Byte) (s : State) : Host.Outcome State Fault Refusal :=
  .next (reply (writeCmd reg val s))

/-- `selectAndRead(reg, count)` (R105): the closed check, then the burst domain (R106), then the bus. -/
def readRegsCmd (reg count : Byte) (s : State) : CmdOutcome × State :=
  if s.phase = .closed then raise (.busError .closed) s
  else if burstInDomain reg count then readCmd reg count.toNat s
  else refuse .badBurst s

/-- `selectAndRead(reg, count)` as a host command (R105). -/
def execReadRegs (reg count : Byte) (s : State) : Host.Outcome State Fault Refusal :=
  .next (reply (readRegsCmd reg count s))

end Sys2Proof.Machine
end

