-- ==== Sys2Proof/Machine/BusFrames.lean ====
section
/-! DEFINITION. The nine bus transactions of R66, each run by itself: the primitive of R104 or R105 that puts its frames on
the bus, preceded by `Select(S.devAddr)` (R64, R65). Log entry 9. -/

namespace Sys2Proof.Machine

/-- `RD_ID`: write `[0xD0]`, read 1. -/
def execRdId (s : State) : Host.Outcome State Fault Refusal := .next (reply (readCmd Reg.identity 1 s))

/-- `RD_CAL1`: write `[0x88]`, read 24. -/
def execRdCal1 (s : State) : Host.Outcome State Fault Refusal := .next (reply (readCmd Reg.calBlock1 24 s))

/-- `RD_CAL2`: write `[0xE1]`, read 8. -/
def execRdCal2 (s : State) : Host.Outcome State Fault Refusal := .next (reply (readCmd Reg.calBlock2 8 s))

/-- `RD_CALH1`: write `[0xA1]`, read 1. -/
def execRdCalH1 (s : State) : Host.Outcome State Fault Refusal := .next (reply (readCmd Reg.calH1 1 s))

/-- `RD_DATA`: write `[0xF7]`, read 8. -/
def execRdData (s : State) : Host.Outcome State Fault Refusal := .next (reply (readCmd Reg.data 8 s))

/-- `WR_CTRL_HUM`: write `[0xF2, val]`. -/
def execWrCtrlHum (val : Byte) (s : State) : Host.Outcome State Fault Refusal :=
  .next (reply (writeCmd Reg.ctrlHum val s))

/-- `WR_CTRL_MEAS`: write `[0xF4, val]`. -/
def execWrCtrlMeas (val : Byte) (s : State) : Host.Outcome State Fault Refusal :=
  .next (reply (writeCmd Reg.ctrlMeas val s))

/-- `WR_CONFIG`: write `[0xF5, val]`. -/
def execWrConfig (val : Byte) (s : State) : Host.Outcome State Fault Refusal :=
  .next (reply (writeCmd Reg.config val s))

/-- `WR_RESET`: write `[0xE0, 0xB6]`; the frame alone has no delay (R264). -/
def execWrReset (s : State) : Host.Outcome State Fault Refusal := .next (reply (writeCmd Reg.softReset resetCmd s))

end Sys2Proof.Machine
end

