-- ==== Sys2Proof/Machine/F64.lean ====
section
/-! DEFINITION. IEEE 754 binary64 (R9, R170): every operation computes the exact result as a quotient of naturals and
rounds it once, to nearest, ties to even; no fusion, no extra precision, subnormals kept. -/

namespace Sys2Proof.F64

/-- The sign bit. -/
def sign (x : F64) : Bool := x.getMsbD 0

/-- The 63 bits below the sign: their order is the order of the magnitudes. -/
def magBits (x : F64) : Nat := x.toNat % 2 ^ 63

/-- The 11-bit exponent field. -/
def expField (x : F64) : Nat := magBits x / 2 ^ 52

/-- The 52-bit fraction field. -/
def fracField (x : F64) : Nat := x.toNat % 2 ^ 52

/-- The magnitude bits of an infinity. -/
def infBits : Nat := 0x7FF * 2 ^ 52

def isNaN (x : F64) : Bool := infBits < magBits x
def isInf (x : F64) : Bool := magBits x == infBits
def isZero (x : F64) : Bool := magBits x == 0
def isFinite (x : F64) : Bool := magBits x < infBits

/-- The pattern with a given sign and magnitude bits. -/
def ofBits (neg : Bool) (mag : Nat) : F64 := BitVec.ofNat 64 (if neg then 2 ^ 63 + mag else mag)

def zero (neg : Bool) : F64 := ofBits neg 0
def inf (neg : Bool) : F64 := ofBits neg infBits

/-- A quiet NaN whose other bits are free (log entry 13). -/
def nan (x y : F64) : F64 := Config.nanBits x y ||| 0x7FF8000000000000

/-- Flip the sign bit. -/
def neg (x : F64) : F64 := x ^^^ 0x8000000000000000

/-- The significand of a finite value, an integer below 2^53: its value is `mant * 2^(scale - 1074)`. -/
def mant (x : F64) : Nat := if expField x = 0 then fracField x else 2 ^ 52 + fracField x

/-- The binary scale of a finite value above the subnormal unit 2^-1074. -/
def scale (x : F64) : Nat := expField x - 1

/-- A finite value counted in units of 2^-1074: every finite binary64 magnitude is such an integer. -/
def units (x : F64) : Nat := mant x * 2 ^ scale x

/-- The signed count of units of 2^-1074. -/
def toUnits (x : F64) : Int := if sign x then -(units x : Int) else units x

/-- The subnormal unit's reciprocal. -/
def unitDen : Nat := 2 ^ 1074

/-- The scale of the binade that holds `n / d` units: the largest `k` with `2^52 * 2^k ≤ n / d`, or 0. -/
def binadeScale (n d : Nat) : Nat := (n / d).log2 - 52

/-- Round `n / d` (with `d` positive) to the nearest integer, ties to even. -/
def roundQuot (n d : Nat) : Nat :=
  let q := n / d
  let r := n % d
  if d < 2 * r ∨ (2 * r = d ∧ q % 2 = 1) then q + 1 else q

/-- The binary64 value nearest to `(n / d) * 2^-1074`, ties to even (R170). `k` is the scale at which the result is a
53-bit integer (a shorter one when subnormal); the exponent field and the fraction are then one sum, and a carry out of
the rounding moves into the exponent by itself. Past the largest finite value the result is an infinity. -/
def roundUnits (neg : Bool) (n d : Nat) : F64 :=
  let k := binadeScale n d
  let bits := k * 2 ^ 52 + roundQuot n (d * 2 ^ k)
  if infBits ≤ bits then inf neg else ofBits neg bits

/-- `f64(n)`; exact for every integer the spec converts (R9). -/
def ofInt (n : Int) : F64 :=
  if n = 0 then zero false else roundUnits (n < 0) (n.natAbs * unitDen) 1

/-- IEEE addition. An exact zero sum is `+0`, except that the sum of two zeros of one sign keeps it. -/
def add (x y : F64) : F64 :=
  if isNaN x || isNaN y then nan x y
  else if isInf x then (if isInf y && sign x != sign y then nan x y else x)
  else if isInf y then y
  else
    let s := toUnits x + toUnits y
    if s = 0 then zero (sign x && sign y) else roundUnits (s < 0) s.natAbs 1

/-- IEEE subtraction: the sum with the negated second operand. -/
def sub (x y : F64) : F64 := if isNaN x || isNaN y then nan x y else add x (neg y)

/-- IEEE multiplication. -/
def mul (x y : F64) : F64 :=
  let s := sign x != sign y
  if isNaN x || isNaN y then nan x y
  else if isInf x || isInf y then (if isZero x || isZero y then nan x y else inf s)
  else if isZero x || isZero y then zero s
  else roundUnits s (units x * units y) unitDen

/-- IEEE division. -/
def div (x y : F64) : F64 :=
  let s := sign x != sign y
  if isNaN x || isNaN y then nan x y
  else if isInf x then (if isInf y then nan x y else inf s)
  else if isInf y then zero s
  else if isZero y then (if isZero x then nan x y else inf s)
  else if isZero x then zero s
  else roundUnits s (units x * unitDen) (units y)

/-- The order of the non-NaN values as integers; both zeros are 0. -/
def key (x : F64) : Int := if sign x then -(magBits x : Int) else magBits x

/-- IEEE `x < y`: false when either is a NaN; an infinity is beyond every finite value; `-0.0 < 0.0` is false (R179). -/
def lt (x y : F64) : Bool := !(isNaN x) && !(isNaN y) && key x < key y

/-- IEEE equality: both zeros are equal (R176). -/
def eq (x y : F64) : Bool := !(isNaN x) && !(isNaN y) && key x == key y

/-- The integer part of a finite value, toward zero. -/
def truncInt (x : F64) : Int :=
  let m : Int := (units x / unitDen : Nat)
  if sign x then -m else m

/-- `trunc_s32(x)`: toward zero (R9, D37). Outside s32, which cannot occur (R174), a free value (log entry 14). -/
def truncS32 (x : F64) : BitVec 32 :=
  if isFinite x && (-(2 ^ 31) ≤ truncInt x && truncInt x < 2 ^ 31) then BitVec.ofInt 32 (truncInt x)
  else Config.truncOutOfRange x

end Sys2Proof.F64
end

