-- ==== Sys2Proof/Machine/Operands.lean ====
section
/-! DEFINITION. Operand forms: how operand bytes become coefficients (R121 to R129), raw codes (R171, R172), and
configuration codes (R140 to R145, R204). -/

namespace Sys2Proof.Machine

/-! ### Byte assembly (R8, R70) -/

/-- `le16(b[i], b[i+1])` (R8, R42). -/
def le16 (bs : List Byte) (i : Nat) : BitVec 16 := byteAt bs (i + 1) ++ byteAt bs i

/-- An unsigned integer register as a binary64 value (R9). -/
def f64u {w : Nat} (x : BitVec w) : F64 := F64.ofInt x.toNat

/-- A two's complement register as a binary64 value (R8, R9). -/
def f64s {w : Nat} (x : BitVec w) : F64 := F64.ofInt x.toInt

/-! ### The calibration decoder -/

/-- `DECODE_TP(b)` (R121), in the fixed field order. Signedness is how a field is read (`f64u`, `f64s`); the register
holds the 16 bits. -/
def decodeTpFields (b : List Byte) : CalTP :=
  { t1 := le16 b 0, t2 := le16 b 2, t3 := le16 b 4
    p1 := le16 b 6, p2 := le16 b 8, p3 := le16 b 10, p4 := le16 b 12, p5 := le16 b 14
    p6 := le16 b 16, p7 := le16 b 18, p8 := le16 b 20, p9 := le16 b 22 }

/-- H4 or H5 from its high byte and its nibble (R126, R127): `H45_SIGN_EXTEND` decides whether the high byte is read as
signed8. -/
def assembleH45 (signExtend : Bool) (high nibble : Byte) : BitVec 16 :=
  if signExtend then high.signExtend 16 * 16#16 + nibble.setWidth 16
  else (high.setWidth 16 <<< 4) ||| nibble.setWidth 16

/-- H4 (R126): high byte `c[3]`, low nibble `c[4][3:0]`. -/
def decodeH4 (signExtend : Bool) (c : List Byte) : BitVec 16 :=
  assembleH45 signExtend (byteAt c 3) (byteAt c 4 &&& 0x0F)

/-- H5 (R127): high byte `c[5]`, low nibble `c[4][7:4]`. -/
def decodeH5 (signExtend : Bool) (c : List Byte) : BitVec 16 :=
  assembleH45 signExtend (byteAt c 5) ((byteAt c 4 &&& 0xF0) >>> 4)

/-- `DECODE_H(c, h1)` (R122 to R129); `c[7]` is read by no field. -/
def decodeHFields (signExtend : Bool) (c : List Byte) (h1 : Byte) : CalH :=
  { h1 := h1, h2 := le16 c 0, h3 := byteAt c 2
    h4 := decodeH4 signExtend c, h5 := decodeH5 signExtend c, h6 := byteAt c 6 }

/-- A `cal` operand, "decoded by rule R121 and rule R122 before use" (R61). -/
def decodeCal (params : Config.Params) (c : CalOperand) : Cal :=
  { tp := decodeTpFields c.blk24, hu := decodeHFields params.h45SignExtend c.blk8 c.h1 }

/-! ### Raw codes -/

/-- A 20-bit code from its three bytes: `(msb << 12) | (lsb << 4) | xlsb[7:4]` (R171). -/
def raw20 (msb lsb xlsb : Byte) : BitVec 20 :=
  (msb.setWidth 20 <<< 12) ||| (lsb.setWidth 20 <<< 4) ||| (xlsb >>> 4).setWidth 20

/-- The three codes of a sample burst (R171). -/
structure RawSample where
  praw : BitVec 20
  traw : BitVec 20
  hraw : BitVec 16
  deriving DecidableEq, Repr

/-- `UNPACK_RAW(d)` (R171): pressure, temperature, humidity, most significant byte first (R43). -/
def unpackRaw (d : List Byte) : RawSample :=
  { praw := raw20 (byteAt d 0) (byteAt d 1) (byteAt d 2)
    traw := raw20 (byteAt d 3) (byteAt d 4) (byteAt d 5)
    hraw := byteAt d 6 ++ byteAt d 7 }

/-- The domain of a host raw code operand: below 2^20 (R172). -/
def rawInDomain (raw : BitVec 32) : Bool := raw.toNat < 2 ^ 20

/-! ### Configuration codes -/

/-- The oversampling multiplier of the estimators (R141); codes 6 and 7 count as 16. -/
def mult (code : Byte) : Nat :=
  match code.toNat with
  | 0 => 0
  | 1 => 1
  | 2 => 2
  | 3 => 4
  | 4 => 8
  | _ => 16

/-- Standby durations in microseconds (R143), for the eight codes 0 to 7. -/
def sbUs (code : Byte) : Nat :=
  match code.toNat with
  | 0 => 500
  | 1 => 62500
  | 2 => 125000
  | 3 => 250000
  | 4 => 500000
  | 5 => 1000000
  | 6 => 10000
  | _ => 20000

/-- A code that fits in 3 bits (R145). -/
def fits3 (code : Byte) : Bool := code.toNat ≤ 7

/-- One of the three defined mode codes (R144). -/
def modeDefined (code : Byte) : Bool := code == 0 || code == 1 || code == 3

/-- `VALIDATE_CFG(cfg)` (R145): the first failing field in the order h, p, t, mode, filter, t_sb, with its code. -/
def validate (c : Cfg) : Option CmdError :=
  if !fits3 c.osrsH then some (.configurationError .osrsH c.osrsH)
  else if !fits3 c.osrsP then some (.configurationError .osrsP c.osrsP)
  else if !fits3 c.osrsT then some (.configurationError .osrsT c.osrsT)
  else if !modeDefined c.mode then some (.configurationError .mode c.mode)
  else if !fits3 c.filter then some (.configurationError .filter c.filter)
  else if !fits3 c.tSb then some (.configurationError .tSb c.tSb)
  else none

/-- A configuration that validation accepts (R140). -/
def cfgAccepted (c : Cfg) : Bool := (validate c).isNone

/-- `modeOf` (R204); code 2 and codes above 3 cannot reach it (R145). -/
def modeOf (code : Byte) : Mode :=
  match code.toNat with
  | 0 => .sleep
  | 1 => .forcedPending
  | _ => .normal

/-- Run `f` on a valid configuration; on an invalid one raise the error of R145 and return no value (R153). -/
def withValidCfg (c : Cfg) (s : State) (f : Cfg → Payload) : CmdOutcome × State :=
  match validate c with
  | some e => raise e s
  | none => succeed (f c) s

end Sys2Proof.Machine
end

