-- ==== Sys2Proof/Machine/Calibration.lean ====
section
/-! DEFINITION. DECODE_TP and DECODE_H (R121 to R130). -/

namespace Sys2Proof.Machine

/-- `DECODE_TP` (R121): total, no check of the values (R130). -/
def execDecodeTp (blk24 : List Byte) (s : State) : Host.Outcome State Fault Refusal :=
  .next (reply (succeed (.tp (decodeTpFields blk24)) s))

/-- `DECODE_H` (R122): total, no check of the values (R130). -/
def execDecodeH (blk8 : List Byte) (h1 : Byte) (s : State) : Host.Outcome State Fault Refusal :=
  .next (reply (succeed (.hu (decodeHFields s.params.h45SignExtend blk8 h1)) s))

end Sys2Proof.Machine
end

