-- ==== Sys2Proof/Machine/Flags.lean ====
section
/-! DEFINITION. The values that play the role of flags (R28): the pressure sentinel (R176) and the infinities of the range
clamp (R179, R180). There is no status-flag register (R28). -/

namespace Sys2Proof.Machine

/-- The pressure sentinel: step 6's `v1` equals 0.0 by IEEE equality, so both zeros count (R176). -/
def isSentinel (v1 : F64) : Bool := F64.eq v1 (F64.zero false)

/-- The host `CLAMP` flag byte: every byte other than 0x00 reads as true (R179, D8). -/
def flagSet (flag : Byte) : Bool := flag != 0

/-- `lim(x, lo, hi)` (R179): closed bounds; a NaN passes, since both comparisons are false. -/
def lim (x lo hi : F64) : F64 :=
  if F64.lt x lo then F64.inf true else if F64.lt hi x then F64.inf false else x

/-- `CLAMP((t, p, h), z)` (R179), with the sentinel's exemption of R180 unless `PZERO_CLAMPED`. -/
def clampMeas (params : Config.Params) (m : Meas) (z : Bool) : Meas :=
  { t := lim m.t (F64.ofInt (-40)) (F64.ofInt 85)
    p := if z && !params.pzeroClamped then m.p else lim m.p (F64.ofInt 30000) (F64.ofInt 110000)
    h := lim m.h (F64.ofInt 0) (F64.ofInt 100) }

/-- A result field marked "outside calibrated range" (R28). -/
def outOfRange (x : F64) : Bool := F64.isInf x

end Sys2Proof.Machine
end

