-- ==== Sys2Proof/Machine/Compensation.lean ====
section
/-! DEFINITION. UNPACK_RAW, COMP_T, COMP_P, COMP_H, CLAMP and COMPENSATE (R170 to R184). Each step of a stage is one line,
in the order and with the parentheses of its rule. -/

namespace Sys2Proof.Machine

open F64 (add sub mul div ofInt)

/-! ### The stages -/

/-- The sum `s = v1 + v2` of the temperature stage (R173); the square is `a * a` (D4). -/
def tempSum (traw : BitVec 20) (c : CalTP) : F64 :=
  let v1 := mul (sub (div (f64u traw) (ofInt 16384)) (div (f64u c.t1) (ofInt 1024))) (f64s c.t2)
  let a := sub (div (f64u traw) (ofInt 131072)) (div (f64u c.t1) (ofInt 8192))
  let v2 := mul (mul a a) (f64s c.t3)
  add v1 v2

/-- `COMP_T` (R173): the temperature, from the unconverted sum, and tfine. -/
def compT (traw : BitVec 20) (c : CalTP) : F64 × BitVec 32 :=
  let s := tempSum traw c
  (div s (ofInt 5120), F64.truncS32 s)

/-- Steps 1 to 4 and 5 to 6 of the pressure stage (R175): the final `v2`, and the `v1` that the sentinel tests. -/
def pressTerms (tfine : BitVec 32) (c : CalTP) : F64 × F64 :=
  let v1 := sub (div (f64s tfine) (ofInt 2)) (ofInt 64000)
  let v2 := div (mul (mul v1 v1) (f64s c.p6)) (ofInt 32768)
  let v2 := add v2 (mul (mul v1 (f64s c.p5)) (ofInt 2))
  let v2 := add (div v2 (ofInt 4)) (mul (f64s c.p4) (ofInt 65536))
  let v1 := div (add (div (mul (mul (f64s c.p3) v1) v1) (ofInt 524288)) (mul (f64s c.p2) v1)) (ofInt 524288)
  let v1 := mul (add (ofInt 1) (div v1 (ofInt 32768))) (f64u c.p1)
  (v2, v1)

/-- Step 7 and the two refinement terms of the pressure stage (R175). -/
def pressFinish (praw : BitVec 20) (v2 v1 : F64) (c : CalTP) : F64 :=
  let p := sub (ofInt 1048576) (f64u praw)
  let p := div (mul (sub p (div v2 (ofInt 4096))) (ofInt 6250)) v1
  let v1 := div (mul (mul (f64s c.p9) p) p) (ofInt 2147483648)
  let v2 := div (mul p (f64s c.p8)) (ofInt 32768)
  add p (div (add (add v1 v2) (f64s c.p7)) (ofInt 16))

/-- `COMP_P` (R175): the pressure and the sentinel; no division is done when the sentinel holds (R176). -/
def compP (praw : BitVec 20) (tfine : BitVec 32) (c : CalTP) : F64 × Bool :=
  let t := pressTerms tfine c
  if isSentinel t.2 then (F64.zero false, true) else (pressFinish praw t.1 t.2 c, false)

/-- `COMP_H` (R177), with no limiter of its own (R178). -/
def compH (hraw : BitVec 16) (tfine : BitVec 32) (c : CalH) : F64 :=
  let x := sub (f64s tfine) (ofInt 76800)
  let c4 := add (mul (f64s c.h4) (ofInt 64)) (mul (div (f64s c.h5) (ofInt 16384)) x)
  let g3 := add (ofInt 1) (mul (div (f64u c.h3) (ofInt 67108864)) x)
  let g6 := add (ofInt 1) (mul (mul (div (f64s c.h6) (ofInt 67108864)) x) g3)
  let h := mul (sub (f64u hraw) c4) (mul (div (f64s c.h2) (ofInt 65536)) g6)
  mul h (sub (ofInt 1) (div (mul (f64u c.h1) h) (ofInt 524288)))

/-- `COMPENSATE` (R181): pressure and humidity use the temperature stage's tfine, clamped or not. -/
def compensate (params : Config.Params) (raw : RawSample) (c : Cal) : Meas :=
  let t := compT raw.traw c.tp
  let p := compP raw.praw t.2 c.tp
  clampMeas params { t := t.1, p := p.1, h := compH raw.hraw t.2 c.hu } p.2

/-! ### The commands -/

/-- `UNPACK_RAW` (R171). -/
def execUnpackRaw (blk8 : List Byte) (s : State) : Host.Outcome State Fault Refusal :=
  .next (reply (succeed (.raw (unpackRaw blk8).praw (unpackRaw blk8).traw (unpackRaw blk8).hraw) s))

/-- `COMP_T` as a command: an operand of 2^20 or more is refused (R172). -/
def compTCmd (traw : BitVec 32) (cal : CalOperand) (s : State) : CmdOutcome × State :=
  if rawInDomain traw then
    let r := compT (traw.setWidth 20) (decodeCal s.params cal).tp
    succeed (.temp r.1 r.2) s
  else refuse .badRaw s

/-- `COMP_T` (R173). -/
def execCompT (traw : BitVec 32) (cal : CalOperand) (s : State) : Host.Outcome State Fault Refusal :=
  .next (reply (compTCmd traw cal s))

/-- `COMP_P` as a command: an operand of 2^20 or more is refused (R172). -/
def compPCmd (praw tfine : BitVec 32) (cal : CalOperand) (s : State) : CmdOutcome × State :=
  if rawInDomain praw then
    let r := compP (praw.setWidth 20) tfine (decodeCal s.params cal).tp
    succeed (.press r.1 r.2) s
  else refuse .badRaw s

/-- `COMP_P` (R175). -/
def execCompP (praw tfine : BitVec 32) (cal : CalOperand) (s : State) : Host.Outcome State Fault Refusal :=
  .next (reply (compPCmd praw tfine cal s))

/-- `COMP_H` (R177). -/
def execCompH (hraw : BitVec 16) (tfine : BitVec 32) (cal : CalOperand) (s : State) : Host.Outcome State Fault Refusal :=
  .next (reply (succeed (.humid (compH hraw tfine (decodeCal s.params cal).hu)) s))

/-- `CLAMP` (R179). -/
def execClamp (t p h : F64) (flag : Byte) (s : State) : Host.Outcome State Fault Refusal :=
  .next (reply (succeed (.meas (clampMeas s.params { t := t, p := p, h := h } (flagSet flag))) s))

/-- `COMPENSATE` as a command: a pressure or temperature operand of 2^20 or more is refused (R172). -/
def compensateCmd (praw traw : BitVec 32) (hraw : BitVec 16) (cal : CalOperand) (s : State) : CmdOutcome × State :=
  if rawInDomain praw && rawInDomain traw then
    succeed (.meas (compensate s.params { praw := praw.setWidth 20, traw := traw.setWidth 20, hraw := hraw }
      (decodeCal s.params cal))) s
  else refuse .badRaw s

/-- `COMPENSATE` (R181). -/
def execCompensate (praw traw : BitVec 32) (hraw : BitVec 16) (cal : CalOperand) (s : State) :
    Host.Outcome State Fault Refusal :=
  .next (reply (compensateCmd praw traw hraw cal s))

end Sys2Proof.Machine
end

