-- ==== Sys2Proof/Machine/Configuration.lean ====
section
/-! DEFINITION. VALIDATE_CFG, the register encoders, the duration estimators and NEAREST_STANDBY (R145 to R153). -/

namespace Sys2Proof.Machine

/-! ### Register values (R146 to R148) -/

/-- `ENC_CTRL_HUM`'s value (R146). -/
def ctrlHumOf (c : Cfg) : Byte := c.osrsH

/-- `ENC_CTRL_MEAS`'s value (R147). -/
def ctrlMeasOf (c : Cfg) : Byte := (c.osrsT <<< 5) ||| (c.osrsP <<< 2) ||| c.mode

/-- `ENC_CONFIG`'s value under each layout (R148). -/
def configOf (layout : Config.ConfigLayout) (c : Cfg) : Byte :=
  match layout with
  | .doc => (c.tSb <<< 4) ||| (c.filter <<< 1)
  | .vendor => (c.tSb <<< 5) ||| (c.filter <<< 2)

/-! ### Durations in microseconds (R149 to R151) -/

/-- One enabled channel's share: `step` per oversampling step and a fixed `setup`; a skipped channel adds nothing. -/
def channelUs (step setup : Nat) (code : Byte) : Nat :=
  if code = 0 then 0 else step * mult code + setup

/-- The standby time, in normal mode only (R149, R151). -/
def standbyUs (c : Cfg) : Nat := if c.mode = 3 then sbUs c.tSb else 0

/-- `typicalMeasurementDuration()` (R149). -/
def typicalUs (c : Cfg) : Nat :=
  1000 + channelUs 2000 0 c.osrsT + channelUs 2000 500 c.osrsP + channelUs 2000 500 c.osrsH + standbyUs c

/-- `maximumMeasurementDuration()` (R150): no standby term. -/
def maximumUs (c : Cfg) : Nat :=
  1250 + channelUs 2300 0 c.osrsT + channelUs 2300 575 c.osrsP + channelUs 2300 575 c.osrsH

/-- `cycleDuration()` (R151). -/
def cycleUs (c : Cfg) : Nat := maximumUs c + standbyUs c

/-! ### Nearest standby (R152) -/

/-- The codes the scan considers: 1000 ms is left out unless `STANDBY_SCAN_INCLUDES_1000`. -/
def standbyCandidates (includes1000 : Bool) : List Byte :=
  [0, 6, 7, 1, 2, 3, 4] ++ (if includes1000 then [5] else [])

/-- How far a code's duration is from the request, in microseconds. -/
def standbyDistance (req : Int) (code : Byte) : Nat := (req - (sbUs code : Int)).natAbs

/-- The least distance among the candidates. -/
def leastDistance (req : Int) (codes : List Byte) : Nat :=
  codes.foldl (fun m c => min m (standbyDistance req c)) (standbyDistance req 0)

/-- The codes that answer a request: code 5 at 1000 ms and above, else every candidate at the least distance. -/
def nearestStandbys (includes1000 : Bool) (req : Int) : List Byte :=
  if 1000000 ≤ req then [5]
  else
    let codes := standbyCandidates includes1000
    codes.filter fun c => standbyDistance req c == leastDistance req codes

/-- The answer: the one nearest code, or a draw among the tied ones (R152, U7). A draw is used up only on a tie (log
entry 3). -/
def nearestStandbyCmd (req : Int) (s : State) : CmdOutcome × State :=
  match nearestStandbys s.params.standbyScanIncludes1000 req with
  | [c] => succeed (.standby c) s
  | codes => succeed (.standby (byteAt codes (s.nextTie % codes.length))) s.afterTie

/-! ### The commands -/

/-- `VALIDATE_CFG` (R145). -/
def execValidateCfg (cfg : Cfg) (s : State) : Host.Outcome State Fault Refusal :=
  .next (reply (withValidCfg cfg s fun _ => .none))

/-- `ENC_CTRL_HUM` (R146). -/
def execEncCtrlHum (cfg : Cfg) (s : State) : Host.Outcome State Fault Refusal :=
  .next (reply (withValidCfg cfg s fun c => .regVal (ctrlHumOf c)))

/-- `ENC_CTRL_MEAS` (R147). -/
def execEncCtrlMeas (cfg : Cfg) (s : State) : Host.Outcome State Fault Refusal :=
  .next (reply (withValidCfg cfg s fun c => .regVal (ctrlMeasOf c)))

/-- `ENC_CONFIG` (R148). -/
def execEncConfig (cfg : Cfg) (s : State) : Host.Outcome State Fault Refusal :=
  .next (reply (withValidCfg cfg s fun c => .regVal (configOf s.params.configLayout c)))

/-- `DUR_TYPICAL` (R149). -/
def execDurTypical (cfg : Cfg) (s : State) : Host.Outcome State Fault Refusal :=
  .next (reply (withValidCfg cfg s fun c => .duration (BitVec.ofNat 64 (typicalUs c))))

/-- `DUR_MAX` (R150). -/
def execDurMax (cfg : Cfg) (s : State) : Host.Outcome State Fault Refusal :=
  .next (reply (withValidCfg cfg s fun c => .duration (BitVec.ofNat 64 (maximumUs c))))

/-- `DUR_CYCLE` (R151). -/
def execDurCycle (cfg : Cfg) (s : State) : Host.Outcome State Fault Refusal :=
  .next (reply (withValidCfg cfg s fun c => .duration (BitVec.ofNat 64 (cycleUs c))))

/-- `NEAREST_STANDBY` (R152); the operand is an s64. -/
def execNearestStandby (reqUs : BitVec 64) (s : State) : Host.Outcome State Fault Refusal :=
  .next (reply (nearestStandbyCmd reqUs.toInt s))

end Sys2Proof.Machine
end

