-- ==== Sys2Proof/Machine/Facade.lean ====
section
/-! DEFINITION. INIT, CONFIGURE, SOFT_RESET, READ_MEAS and CLOSE (R131, R200 to R210). -/

namespace Sys2Proof.Machine

/-- `LOAD_CAL` (R131): three reads, then the snapshot and `S.calValid` in one step; the first failing read ends it with
its cause and nothing is written. -/
def loadCal (s : State) : Option BusCause × State :=
  match memRead Reg.calBlock1 24 s with
  | (.error c, s1) => (some c, s1)
  | (.ok b, s1) =>
    match memRead Reg.calBlock2 8 s1 with
    | (.error c, s2) => (some c, s2)
    | (.ok c, s2) =>
      match memRead Reg.calH1 1 s2 with
      | (.error e, s3) => (some e, s3)
      | (.ok h, s3) =>
        (none, { s3 with
          cal := { tp := decodeTpFields b, hu := decodeHFields s3.params.h45SignExtend c (byteAt h 0) }
          calValid := true })

/-- `INIT` (R201, R202, R210): identity check, then the calibration fetch, whose bus errors become
`CalibrationReadError` (R235). -/
def initCmd (s : State) : CmdOutcome × State :=
  match memRead Reg.identity 1 s with
  | (.error c, s1) => raise (.busError c) s1
  | (.ok id, s1) =>
    if byteAt id 0 ≠ idExpected then raise (.identityMismatch (byteAt id 0)) s1
    else
      match loadCal s1 with
      | (some c, s2) => raise (.calibrationReadError c) s2
      | (none, s2) => succeed .none { s2 with phase := if s2.phase = .uninit then .ready else s2.phase }

/-- `INIT` (R201). -/
def execInit (s : State) : Host.Outcome State Fault Refusal := .next (reply (initCmd s))

/-- The three writes of `CONFIGURE` in their fixed order (R203, R265); the first failing one ends them. -/
def configureWrites (hum meas conf : Byte) (s : State) : Option BusCause × State :=
  match memWrite Reg.ctrlHum hum s with
  | (some c, s1) => (some c, s1)
  | (none, s1) =>
    match memWrite Reg.ctrlMeas meas s1 with
    | (some c, s2) => (some c, s2)
    | (none, s2) => memWrite Reg.config conf s2

/-- The last steps of a successful `CONFIGURE` (R203, R204). -/
def State.configuredAs (s : State) (c : Cfg) : State :=
  { s with lastCfg := some c, phase := .configured, mode := modeOf c.mode }

/-- `CONFIGURE cfg` (R203): the checks in the order of R209, the writes, then the block's record of them. -/
def configureCmd (c : Cfg) (s : State) : CmdOutcome × State :=
  if s.phase = .closed then raise (.busError .closed) s
  else if s.phase = .uninit then refuse .notInitialized s
  else
    match validate c with
    | some e => raise e s
    | none =>
      match configureWrites (ctrlHumOf c) (ctrlMeasOf c) (configOf s.params.configLayout c) s with
      | (some e, s1) => raise (.busError e) s1
      | (none, s1) => succeed .none (s1.configuredAs c)

/-- `CONFIGURE` (R203). -/
def execConfigure (cfg : Cfg) (s : State) : Host.Outcome State Fault Refusal := .next (reply (configureCmd cfg s))

/-- What a soft reset changes in the block (R205): mode NONE, and READY or UNINIT by `S.calValid`. -/
def State.afterSoftReset (s : State) : State :=
  { s with mode := .none, phase := if s.calValid then .ready else .uninit }

/-- The re-application inside `SOFT_RESET` under `RESET_REAPPLIES_CONFIG` (R205): its outcome is the command's (R240). -/
def reapplyAfterReset (s : State) : CmdOutcome × State :=
  match s.lastCfg with
  | some c => if s.params.resetReappliesConfig && s.calValid then configureCmd c s else succeed .none s
  | none => succeed .none s

/-- `SOFT_RESET` (R205): the reset write, the settle delay, the block's own changes, and the re-application where the
parameter asks for it. -/
def softResetCmd (s : State) : CmdOutcome × State :=
  match memWrite Reg.softReset resetCmd s with
  | (some c, s1) => raise (.busError c) s1
  | (none, s1) => reapplyAfterReset (delay resetSettleUs s1).afterSoftReset

/-- `SOFT_RESET` (R205). -/
def execSoftReset (s : State) : Host.Outcome State Fault Refusal := .next (reply (softResetCmd s))

/-- The block's record after a successful read: a pending forced read is done (R207). -/
def State.afterRead (s : State) : State :=
  { s with mode := if s.mode = .forcedPending then .sleep else s.mode }

/-- `READ_MEAS` (R206): no status poll and no wait. A read of `S.cal` while it is unwritten is a refusal (R24), made
before any transport call as R232 asks (log entry 12). -/
def readMeasCmd (s : State) : CmdOutcome × State :=
  if s.phase = .closed then raise (.busError .closed) s
  else if s.phase = .uninit then refuse .notInitialized s
  else if !s.calValid then refuse .unwrittenCalibration s
  else
    match memRead Reg.data 8 s with
    | (.error c, s1) => raise (.busError c) s1
    | (.ok d, s1) => succeed (.meas (compensate s1.params (unpackRaw d) s1.cal)) s1.afterRead

/-- `READ_MEAS` (R206). -/
def execReadMeas (s : State) : Host.Outcome State Fault Refusal := .next (reply (readMeasCmd s))

/-- `CLOSE` (R208): no transport call; it never fails. -/
def execClose (s : State) : Host.Outcome State Fault Refusal :=
  .next (reply (succeed .none { s with phase := .closed, mode := .none }))

end Sys2Proof.Machine
end

