-- ==== Sys2Proof/Machine/Dispatch.lean ====
section
/-! DEFINITION. The meaning of each instruction, one arm per constructor. -/

namespace Sys2Proof.Machine

def exec (i : Instr) (s : State) : Host.Outcome State Fault Refusal :=
  match i with
  | .writeReg reg val => Sys2Proof.Machine.execWriteReg reg val s
  | .readRegs reg count => Sys2Proof.Machine.execReadRegs reg count s
  | .decodeTp blk24 => Sys2Proof.Machine.execDecodeTp blk24 s
  | .decodeH blk8 h1 => Sys2Proof.Machine.execDecodeH blk8 h1 s
  | .unpackRaw blk8 => Sys2Proof.Machine.execUnpackRaw blk8 s
  | .compT traw cal => Sys2Proof.Machine.execCompT traw cal s
  | .compP praw tfine cal => Sys2Proof.Machine.execCompP praw tfine cal s
  | .compH hraw tfine cal => Sys2Proof.Machine.execCompH hraw tfine cal s
  | .clamp t p h flag => Sys2Proof.Machine.execClamp t p h flag s
  | .compensate praw traw hraw cal => Sys2Proof.Machine.execCompensate praw traw hraw cal s
  | .validateCfg cfg => Sys2Proof.Machine.execValidateCfg cfg s
  | .encCtrlHum cfg => Sys2Proof.Machine.execEncCtrlHum cfg s
  | .encCtrlMeas cfg => Sys2Proof.Machine.execEncCtrlMeas cfg s
  | .encConfig cfg => Sys2Proof.Machine.execEncConfig cfg s
  | .durTypical cfg => Sys2Proof.Machine.execDurTypical cfg s
  | .durMax cfg => Sys2Proof.Machine.execDurMax cfg s
  | .durCycle cfg => Sys2Proof.Machine.execDurCycle cfg s
  | .nearestStandby reqUs => Sys2Proof.Machine.execNearestStandby reqUs s
  | .init => Sys2Proof.Machine.execInit s
  | .configure cfg => Sys2Proof.Machine.execConfigure cfg s
  | .softReset => Sys2Proof.Machine.execSoftReset s
  | .readMeas => Sys2Proof.Machine.execReadMeas s
  | .close => Sys2Proof.Machine.execClose s
  -- the bus transactions of R66
  | .rdId => Sys2Proof.Machine.execRdId s
  | .rdCal1 => Sys2Proof.Machine.execRdCal1 s
  | .rdCal2 => Sys2Proof.Machine.execRdCal2 s
  | .rdCalH1 => Sys2Proof.Machine.execRdCalH1 s
  | .wrCtrlHum val => Sys2Proof.Machine.execWrCtrlHum val s
  | .wrCtrlMeas val => Sys2Proof.Machine.execWrCtrlMeas val s
  | .wrConfig val => Sys2Proof.Machine.execWrConfig val s
  | .wrReset => Sys2Proof.Machine.execWrReset s
  | .rdData => Sys2Proof.Machine.execRdData s

end Sys2Proof.Machine
end

