-- ==== Sys2Proof/Machine/Fetch.lean ====
section
/-! DEFINITION. Taking the next instruction from its port (R11, R60, R63). -/

namespace Sys2Proof.Machine

/-- What a step finds to do. -/
inductive Fetched where
  | idle
  | run (i : Instr) (s : State)
  | refuse (r : RefuseReason) (s : State)
  | noTransaction
  deriving DecidableEq, Repr

/-- The host port: the next command with the port past it. An undefined opcode is consumed alone: "The block then consumes
no further bytes" (R63); a truncated command is the end of the stream, all of which is consumed (log entry 8). -/
def fetchHost (s : State) : Fetched :=
  match decode .host s.hostIn with
  | .ok (i, rest) => .run i { s with hostIn := rest }
  | .error .noInput => .idle
  | .error .truncatedCommand => .refuse .truncatedCommand { s with hostIn := [] }
  | .error .undefinedOpcode => .refuse .undefinedOpcode { s with hostIn := s.hostIn.tail }
  | .error .notAFrame => .noTransaction

/-- A bus transaction requested by itself comes first; otherwise the host port (log entry 9). -/
def fetch (s : State) : Fetched :=
  match decode .bus s.frameIn with
  | .ok (i, rest) => .run i { s with frameIn := rest }
  | .error .noInput => fetchHost s
  | .error _ => .noTransaction

/-- `s` with an instruction's bytes at the head of its port, so that the next `fetch` reads them. -/
def State.withFetchBytes (s : State) (pb : Port × List Byte) : State :=
  match pb.1 with
  | .host => { s with hostIn := pb.2 ++ s.hostIn, frameIn := [] }
  | .bus => { s with frameIn := pb.2 ++ s.frameIn }

end Sys2Proof.Machine
end

