-- ==== Sys2Proof/Machine/Step.lean ====
section
/-! DEFINITION. One step: take the next instruction from its port and run it. -/

namespace Sys2Proof.Machine

/-- One step. With no command waiting the block waits (R260); an undefined opcode or a truncated command is the refusal of
R63; otherwise the command at the head of the stream runs to completion (R11, R51). -/
def step (s : State) : Host.Outcome State Fault Refusal :=
  match fetch s with
  | .idle => .next s
  | .run i s1 => exec i s1
  | .refuse r s1 => .next (reply (refuse r s1))
  | .noTransaction => .refused .notABusTransaction

/-- `s` with a table row's instruction stored where `fetch` reads next: at the head of its port (log entry 16). -/
def State.withFetchWord (s : State) (nbits w : Nat) : State := s.withFetchBytes (tableBytes nbits w)

end Sys2Proof.Machine
end

