-- ==== Sys2Proof/Machine/Pseudo.lean ====
section
/-! DEFINITION. The pseudo-commands of R74. "An assembler expands these; the block never sees them as opcodes", so they
have no constructor; this is what running them does to the block. Log entry 21. -/

namespace Sys2Proof.Machine

/-- The two pseudo-commands. -/
inductive Pseudo where
  | reapply
  | resetAndReapply
  deriving DecidableEq, Repr

/-- The expansion of `REAPPLY`: `CONFIGURE S.lastCfg`, or the refusal `no_last_config` (R74, R232). -/
def expandReapply (s : State) : Except RefuseReason Instr :=
  match s.lastCfg with
  | some c => .ok (.configure c)
  | none => .error .noLastConfig

/-- `REAPPLY` run at `s`. -/
def runReapply (s : State) : State :=
  match s.lastCfg with
  | some c => reply (configureCmd c s)
  | none => reply (refuse .noLastConfig s)

/-- `RESET_AND_REAPPLY` run at `s`: `SOFT_RESET`, then `REAPPLY` "only if the first returned success" (R74). -/
def runResetAndReapply (s : State) : State :=
  match softResetCmd s with
  | (.success p, s1) => runReapply (reply (.success p, s1))
  | (.error e, s1) => reply (.error e, s1)
  | (.refused r, s1) => reply (.refused r, s1)

/-- A pseudo-command run at `s`. -/
def runPseudo : Pseudo → State → State
  | .reapply, s => runReapply s
  | .resetAndReapply, s => runResetAndReapply s

end Sys2Proof.Machine
end

