-- ==== Sys2Proof/Safety.lean ====
section
/-! DEFINITION. The terms claims are stated in: a claim about a run (R232), the invariant of the block's own record, the
premises about the oracle's draws (R102), what a command puts on the bus (R64 to R66, R110), and binary64 values as
rationals (R9, R170). -/

namespace Sys2Proof.Machine

/-! ### Runs -/

/-- No command was refused in the run up to `s`; the mark stays, so it is enough to look at the end of the run (R232). -/
def State.Unrefused (s : State) : Prop := s.refusalMark = false

/-- A claim `P` about the run of `n` steps from `s`: the run ends in a state of which `P` holds, and no command in it was
refused. That none was refused is part of the claim and not a premise of it, so over a run with a refusal the claim is
false, whatever `P` is: "a claim about a run that includes one cannot be proved" (R232, D14). Claims about runs are stated
in this form only; the block itself goes on after a refusal (R240), so `step` cannot be what rules them out. Log entry 1. -/
def RunClaim (s : State) (n : Nat) (P : State → Prop) : Prop :=
  ∃ t, Sys2Proof.core.run n s = .next t ∧ t.Unrefused ∧ P t

/-- The block's own record S of R20, but for the trace, is the same in `s` and `t`. -/
def SameRecord (s t : State) : Prop :=
  t.devAddr = s.devAddr ∧ t.phase = s.phase ∧ t.mode = s.mode ∧ t.calValid = s.calValid ∧ t.cal = s.cal ∧
    t.lastCfg = s.lastCfg

/-- The invariant of the block's record.
* R23: the mode is NONE outside `CONFIGURED`.
* R23, R25, R204, R207: in `CONFIGURED` the mode is that of the last applied configuration, or SLEEP after its forced read.
* R200, R201, R205: the calibration is loaded in `READY` and `CONFIGURED` and not in `UNINIT`.
* R203, R209: a configuration is on record only once the calibration is, and only a valid one.
* R26, R29, R101: `T.sel` is unknown or the block's own address.
* R232: the mark is set where the last outcome is a refusal. -/
structure State.Inv (s : State) : Prop where
  modeNone : s.phase ≠ .configured → s.mode = .none
  modeOfCfg : s.phase = .configured →
    ∃ c, s.lastCfg = some c ∧ (s.mode = modeOf c.mode ∨ (s.mode = .sleep ∧ modeOf c.mode = .forcedPending))
  calLoaded : s.phase = .ready ∨ s.phase = .configured → s.calValid = true
  calAbsent : s.phase = .uninit → s.calValid = false
  cfgNeedsCal : s.calValid = false → s.lastCfg = none
  cfgValid : ∀ c, s.lastCfg = some c → cfgAccepted c = true
  selOwn : s.tSel = none ∨ s.tSel = some s.devAddr
  refusalMarked : ∀ r, s.result = some (.refused r) → s.refusalMark = true

/-! ### Kinds of command -/

/-- The datapath commands (R62, R211). -/
def isDatapath : Instr → Bool
  | .decodeTp _ | .decodeH _ _ | .unpackRaw _ | .compT _ _ | .compP _ _ _ | .compH _ _ _ => true
  | .clamp _ _ _ _ | .compensate _ _ _ _ | .validateCfg _ | .encCtrlHum _ | .encCtrlMeas _ | .encConfig _ => true
  | .durTypical _ | .durMax _ | .durCycle _ | .nearestStandby _ => true
  | .writeReg _ _ | .readRegs _ _ | .init | .configure _ | .softReset | .readMeas | .close => false
  | .rdId | .rdCal1 | .rdCal2 | .rdCalH1 | .rdData => false
  | .wrCtrlHum _ | .wrCtrlMeas _ | .wrConfig _ | .wrReset => false

/-- The bus-touching commands: every one of them raises `BusError(closed)` in `CLOSED` (R108, R209). -/
def touchesBus : Instr → Bool
  | .writeReg _ _ | .readRegs _ _ | .init | .configure _ | .softReset | .readMeas => true
  | .rdId | .rdCal1 | .rdCal2 | .rdCalH1 | .rdData => true
  | .wrCtrlHum _ | .wrCtrlMeas _ | .wrConfig _ | .wrReset => true
  | .close | .decodeTp _ | .decodeH _ _ | .unpackRaw _ | .compT _ _ | .compP _ _ _ | .compH _ _ _ => false
  | .clamp _ _ _ _ | .compensate _ _ _ _ | .validateCfg _ | .encCtrlHum _ | .encCtrlMeas _ | .encConfig _ => false
  | .durTypical _ | .durMax _ | .durCycle _ | .nearestStandby _ => false

/-- The register and the byte of an instruction that is one register write (R64, R66, R104). -/
def writeOf : Instr → Option (Byte × Byte)
  | .writeReg reg val => some (reg, val)
  | .wrCtrlHum val => some (0xF2, val)
  | .wrCtrlMeas val => some (0xF4, val)
  | .wrConfig val => some (0xF5, val)
  | .wrReset => some (0xE0, 0xB6)
  | .readRegs _ _ | .decodeTp _ | .decodeH _ _ | .unpackRaw _ | .compT _ _ | .compP _ _ _ | .compH _ _ _ => none
  | .clamp _ _ _ _ | .compensate _ _ _ _ | .validateCfg _ | .encCtrlHum _ | .encCtrlMeas _ | .encConfig _ => none
  | .durTypical _ | .durMax _ | .durCycle _ | .nearestStandby _ => none
  | .init | .configure _ | .softReset | .readMeas | .close | .rdId | .rdCal1 | .rdCal2 | .rdCalH1 | .rdData => none

/-- The first register and the number of bytes of an instruction that is one register read inside the burst domain (R65,
R66, R105, R106). -/
def readOf : Instr → Option (Byte × Nat)
  | .readRegs reg count =>
      if 1 ≤ count.toNat ∧ reg.toNat + count.toNat ≤ 256 then some (reg, count.toNat) else none
  | .rdId => some (0xD0, 1)
  | .rdCal1 => some (0x88, 24)
  | .rdCal2 => some (0xE1, 8)
  | .rdCalH1 => some (0xA1, 1)
  | .rdData => some (0xF7, 8)
  | .writeReg _ _ | .decodeTp _ | .decodeH _ _ | .unpackRaw _ | .compT _ _ | .compP _ _ _ | .compH _ _ _ => none
  | .clamp _ _ _ _ | .compensate _ _ _ _ | .validateCfg _ | .encCtrlHum _ | .encCtrlMeas _ | .encConfig _ => none
  | .durTypical _ | .durMax _ | .durCycle _ | .nearestStandby _ => none
  | .init | .configure _ | .softReset | .readMeas | .close => none
  | .wrCtrlHum _ | .wrCtrlMeas _ | .wrConfig _ | .wrReset => none

/-! ### Premises about the draws -/

/-- From the `k`-th answer on, a register write goes through: the select succeeds, both bytes are written. -/
def State.writeGoesThrough (s : State) (k : Nat) : Prop :=
  (s.upcoming k).fails = false ∧ (s.upcoming (k + 1)).fails = false ∧ 2 ≤ (s.upcoming (k + 1)).count

/-- From the `k`-th answer on, a read of `n` registers goes through and gives `bs`. -/
def State.readGives (s : State) (k n : Nat) (bs : List Byte) : Prop :=
  (s.upcoming k).fails = false ∧ (s.upcoming (k + 1)).fails = false ∧ 1 ≤ (s.upcoming (k + 1)).count ∧
    (s.upcoming (k + 2)).fails = false ∧ (s.upcoming (k + 2)).bytes.take n = bs ∧ bs.length = n

/-! ### What goes on the bus -/

/-- The events of a register write that went through (R104). -/
def writeEvents (a : DevAddr) (reg val : Byte) : List Event := [.sel a .ok, .w [reg, val] (.wrote 2)]

/-- The events of a register read that went through (R105). -/
def readEvents (a : DevAddr) (reg : Byte) (n : Nat) (bs : List Byte) : List Event :=
  [.sel a .ok, .w [reg] (.wrote 1), .r n (.got bs)]

/-- `s` after `n` answered transport calls that recorded `es`, the last select having left `T.sel` at `sel`. -/
def State.afterBus (s : State) (n : Nat) (es : List Event) (sel : Option DevAddr) : State :=
  { s with answers := s.answers.drop n, drawn := s.drawn + n, trace := s.trace ++ es, tSel := sel }

/-- What a failing register access leaves: its cause, the number of transport calls answered, their events, and `T.sel`. -/
structure BusFailure where
  cause  : BusCause
  calls  : Nat
  events : List Event
  sel    : Option DevAddr
  deriving DecidableEq, Repr

/-- The ways a register write can fail on the answers from the `k`-th on (R101, R103, R104): its first failing call ends
it. -/
inductive State.WriteFails (s : State) (k : Nat) (reg val : Byte) : BusFailure → Prop
  | select (h0 : (s.upcoming k).fails = true) :
      s.WriteFails k reg val ⟨.selectFailed, 1, [.sel s.devAddr .fail], none⟩
  | frame (h0 : (s.upcoming k).fails = false) (h1 : (s.upcoming (k + 1)).fails = true) :
      s.WriteFails k reg val ⟨.ioFailure, 2, [.sel s.devAddr .ok, .w [reg, val] .fail], some s.devAddr⟩
  | short (h0 : (s.upcoming k).fails = false) (h1 : (s.upcoming (k + 1)).fails = false)
      (h2 : (s.upcoming (k + 1)).count < 2) :
      s.WriteFails k reg val
        ⟨.shortWrite, 2, [.sel s.devAddr .ok, .w [reg, val] (.wrote (s.upcoming (k + 1)).count)], some s.devAddr⟩

/-- The ways a read of `n` registers can fail on the answers from the `k`-th on (R101, R103, R105). -/
inductive State.ReadFails (s : State) (k : Nat) (reg : Byte) (n : Nat) : BusFailure → Prop
  | select (h0 : (s.upcoming k).fails = true) :
      s.ReadFails k reg n ⟨.selectFailed, 1, [.sel s.devAddr .fail], none⟩
  | address (h0 : (s.upcoming k).fails = false) (h1 : (s.upcoming (k + 1)).fails = true) :
      s.ReadFails k reg n ⟨.ioFailure, 2, [.sel s.devAddr .ok, .w [reg] .fail], some s.devAddr⟩
  | shortAddress (h0 : (s.upcoming k).fails = false) (h1 : (s.upcoming (k + 1)).fails = false)
      (h2 : (s.upcoming (k + 1)).count = 0) :
      s.ReadFails k reg n ⟨.shortWrite, 2, [.sel s.devAddr .ok, .w [reg] (.wrote 0)], some s.devAddr⟩
  | read (h0 : (s.upcoming k).fails = false) (h1 : (s.upcoming (k + 1)).fails = false)
      (h2 : 1 ≤ (s.upcoming (k + 1)).count) (h3 : (s.upcoming (k + 2)).fails = true) :
      s.ReadFails k reg n ⟨.ioFailure, 3, [.sel s.devAddr .ok, .w [reg] (.wrote 1), .r n .fail], some s.devAddr⟩
  | shortRead (h0 : (s.upcoming k).fails = false) (h1 : (s.upcoming (k + 1)).fails = false)
      (h2 : 1 ≤ (s.upcoming (k + 1)).count) (h3 : (s.upcoming (k + 2)).fails = false)
      (h4 : (s.upcoming (k + 2)).bytes.length < n) :
      s.ReadFails k reg n ⟨.shortRead, 3,
        [.sel s.devAddr .ok, .w [reg] (.wrote 1), .r n (.got (s.upcoming (k + 2)).bytes)], some s.devAddr⟩

/-- `s` with a success returned to the caller. -/
def State.succeeded (s : State) (p : Payload) : State := { s with result := some (.success p) }

/-- `s` with an error returned to the caller. -/
def State.failed (s : State) (e : CmdError) : State := { s with result := some (.error e) }

/-- `s` with a refusal returned to the caller and the refusal mark set (R232). -/
def State.refusedWith (s : State) (r : RefuseReason) : State :=
  { s with result := some (.refused r), refusalMark := true }

/-- Where the bus stands between two events. -/
inductive BusPos where
  | free
  | selected
  | addressed
  deriving DecidableEq, Repr

/-- The event sequences the primitives may produce (R64, R65, R104, R105): every write frame follows a successful select of
`a`, one or two bytes long and never reported longer; every read follows an accepted one-byte frame, and is never reported
longer than asked; delays stand between transactions. -/
def framed (a : DevAddr) : BusPos → List Event → Bool
  | _, [] => true
  | _, .sel b .ok :: es => b == a && framed a .selected es
  | _, .sel b .fail :: es => b == a && framed a .free es
  | .selected, .w bs .fail :: es => (bs.length == 1 || bs.length == 2) && framed a .free es
  | .selected, .w bs (.wrote k) :: es =>
      (bs.length == 1 || bs.length == 2) && k ≤ bs.length &&
        framed a (if bs.length = 1 ∧ k = 1 then .addressed else .free) es
  | .addressed, .r _ .fail :: es => framed a .free es
  | .addressed, .r n (.got bs) :: es => bs.length ≤ n && framed a .free es
  | .free, .dly _ :: es => framed a .free es
  | _, _ :: _ => false

/-- The write frames among events, in order. -/
def framesOf : List Event → List (List Byte)
  | [] => []
  | .w bs _ :: es => bs :: framesOf es
  | _ :: es => framesOf es

/-- The write frames of a façade command, in order (R66); `cfg` is what a `CONFIGURE` carries. -/
def facadeFrames (layout : Config.ConfigLayout) : Instr → List (List Byte)
  | .init => [[0xD0], [0x88], [0xE1], [0xA1]]
  | .configure c => [[0xF2, ctrlHumOf c], [0xF4, ctrlMeasOf c], [0xF5, configOf layout c]]
  | .softReset => [[0xE0, 0xB6]]
  | .readMeas => [[0xF7]]
  | .writeReg _ _ | .readRegs _ _ | .decodeTp _ | .decodeH _ _ | .unpackRaw _ | .compT _ _ | .compP _ _ _ => []
  | .compH _ _ _ | .clamp _ _ _ _ | .compensate _ _ _ _ | .validateCfg _ | .encCtrlHum _ | .encCtrlMeas _ => []
  | .encConfig _ | .durTypical _ | .durMax _ | .durCycle _ | .nearestStandby _ | .close => []
  | .rdId | .rdCal1 | .rdCal2 | .rdCalH1 | .rdData | .wrCtrlHum _ | .wrCtrlMeas _ | .wrConfig _ | .wrReset => []

/-! ### Binary64 values as rationals -/

/-- The value of a finite binary64 pattern. -/
def ratOf (x : F64) : ℚ := (F64.toUnits x : ℚ) / 2 ^ 1074

/-- The least magnitude that rounds to an infinity: midway between the largest finite value and 2^1024. -/
def overflowBound : ℚ := (2 ^ 54 - 1) * 2 ^ 970

/-- `r` is the binary64 rounding of the real value `q`, to nearest with ties to even (R170). -/
def RoundsTo (q : ℚ) (r : F64) : Prop :=
  (|q| < overflowBound →
    F64.isFinite r = true ∧
    (∀ z, F64.isFinite z = true → |ratOf r - q| ≤ |ratOf z - q|) ∧
    (∀ z, F64.isFinite z = true → |ratOf z - q| = |ratOf r - q| → ratOf z ≠ ratOf r →
      F64.magBits r % 2 = 0)) ∧
  (overflowBound ≤ |q| → r = F64.inf (decide (q < 0)))

end Sys2Proof.Machine
end

