-- ==== Sys2Proof/Certificates/Slice0/Obligations.lean ====
section
/-! DEFINITION. The statements for the provers, one per rule or group of rules of spec/. -/

open Sys2Proof Sys2Proof.Machine

/-! ## Encodings (R60 to R66) -/

/-- Decode and encode agree: every well-formed instruction, every operand value, whatever follows it on its port. -/
def Obligations.DecodeOfEncodeIsTheInstruction : Prop :=
  ∀ (i : Instr) (rest : List Byte), i.WellFormed = true →
    decode (portOf i) (encode i ++ rest) = .ok (i, rest)

/-- Every byte the decoder takes is a byte of the instruction it reads: encoding that instruction gives them back. -/
def Obligations.EncodeOfDecodeIsTheBytesRead : Prop :=
  ∀ (p : Port) (bs rest : List Byte) (i : Instr), decode p bs = .ok (i, rest) →
    i.WellFormed = true ∧ portOf i = p ∧ encode i ++ rest = bs

/-- R63: the opcode bytes outside the map spell no command, and only they. -/
def Obligations.OpcodesOutsideTheMapSpellNoCommand : Prop :=
  ∀ (op : Byte) (bs : List Byte),
    decodeHost (op :: bs) = .error .undefinedOpcode ↔
      (op.toNat = 0x00 ∨ (0x03 ≤ op.toNat ∧ op.toNat ≤ 0x0F) ∨ (0x12 ≤ op.toNat ∧ op.toNat ≤ 0x1F) ∨
        (0x26 ≤ op.toNat ∧ op.toNat ≤ 0x2F) ∨ (0x38 ≤ op.toNat ∧ op.toNat ≤ 0x3F) ∨ 0x45 ≤ op.toNat)

/-- R60, R62, R63: a command's length is fixed by its opcode: with fewer bytes it is truncated, with enough it takes exactly
that many. -/
def Obligations.CommandLengthIsFixedByTheOpcode : Prop :=
  ∀ (op : Byte) (bs : List Byte) (len : Nat), commandLength op.toNat = some len →
    (bs.length + 1 < len → decodeHost (op :: bs) = .error .truncatedCommand) ∧
    (len ≤ bs.length + 1 → ∃ i, decodeHost (op :: bs) = .ok (i, (op :: bs).drop len))

/-- Words written out from the encodings of R61, R62, R64 and R65 decode to their instructions (sanity). -/
def Obligations.WrittenOutWordsDecode : Prop :=
  decode .host [0x01, 0xF4, 0x27] = .ok (.writeReg 0xF4 0x27, []) ∧
  decode .host [0x02, 0xD0, 0x01, 0x44] = .ok (.readRegs 0xD0 0x01, [0x44]) ∧
  decode .host [0x11, 0x01, 0x02, 0x03, 0xA4, 0x5B, 0x06, 0x07, 0x00, 0x4B] =
    .ok (.decodeH [0x01, 0x02, 0x03, 0xA4, 0x5B, 0x06, 0x07, 0x00] 0x4B, []) ∧
  decode .host [0x37, 0xA0, 0x86, 0x01, 0x00, 0x00, 0x00, 0x00, 0x00] = .ok (.nearestStandby 100000, []) ∧
  decode .host [0x41, 0x01, 0x02, 0x03, 0x00, 0x04, 0x05] =
    .ok (.configure { osrsH := 1, osrsP := 2, osrsT := 3, mode := 0, filter := 4, tSb := 5 }, []) ∧
  decode .bus [0xF2, 0x05] = .ok (.wrCtrlHum 0x05, []) ∧
  decode .bus [0xE0, 0xB6] = .ok (.wrReset, [])

/-! ## The step -/

/-- When the bytes waiting on a port decode to an instruction, a step is `exec` of it at the state with those bytes taken
from the port. A bus transaction requested by itself comes before the host port (the model's choice, log entry 9). -/
def Obligations.StepRunsTheDecodedInstruction : Prop :=
  ∀ (s : State) (i : Instr) (rest : List Byte),
    (s.frameIn = [] → decode .host s.hostIn = .ok (i, rest) → step s = exec i { s with hostIn := rest }) ∧
    (decode .bus s.frameIn = .ok (i, rest) → step s = exec i { s with frameIn := rest })

/-- R63, R232: an undefined opcode and a cut-short command are refusals: the reason is returned, the mark is set, no
transport call is made, and nothing of S is written. How much of the stream is taken is the model's choice (log entry 8). -/
def Obligations.StepRefusesWhatIsNoCommand : Prop :=
  ∀ (s : State), s.frameIn = [] →
    (decode .host s.hostIn = .error .undefinedOpcode →
      step s = .next ({ s with hostIn := s.hostIn.drop 1 }.refusedWith .undefinedOpcode)) ∧
    (decode .host s.hostIn = .error .truncatedCommand →
      step s = .next ({ s with hostIn := [] }.refusedWith .truncatedCommand)) ∧
    (s.hostIn = [] → step s = .next s)

/-- A table row's word placed for the next step is the instruction that step runs. -/
def Obligations.PlacedTableWordIsTheNextInstruction : Prop :=
  ∀ (s : State) (nbits w : Nat) (i : Instr), decodeTableWord nbits w = some i →
    step (s.withFetchWord nbits w) = exec i (if portOf i = .host then { s with frameIn := [] } else s)

/-! ## Outcomes (R230 to R240) -/

/-- R230, R240: every instruction ends with exactly one outcome and the block goes on, from every state. -/
def Obligations.EveryInstructionReturnsAnOutcome : Prop :=
  ∀ (i : Instr) (s : State), ∃ t o, exec i s = .next t ∧ t.result = some o ∧
    (t.refusalMark = true ↔ s.refusalMark = true ∨ o.isRefused = true)

/-- R232, D14: a refused command makes no transport call and writes no state but the refusal mark; the mark stays, through
every step and every pseudo-command; and no claim about a run that includes a refusal can be proved, whatever it claims. -/
def Obligations.RefusalWritesOnlyItsMarkAndSpoilsTheRun : Prop :=
  (∀ (i : Instr) (s t : State) (r : RefuseReason), exec i s = .next t → t.result = some (.refused r) →
    t = s.refusedWith r) ∧
  (∀ (s t : State), s.refusalMark = true → step s = .next t → t.refusalMark = true) ∧
  (∀ (p : Pseudo) (s : State), s.refusalMark = true → (runPseudo p s).refusalMark = true) ∧
  (∀ (s t : State) (k n : Nat) (P : State → Prop), s.Inv → k ≤ n → Sys2Proof.core.run k s = .next t →
    (t.refusalMark = true ∨ ∃ r, t.result = some (.refused r)) → ¬ RunClaim s n P)

/-- R239, R240: a command that ends with an error leaves S as it was but for the trace; the one exception is a SOFT_RESET
whose nested CONFIGURE fails, where the reset's own changes stay. -/
def Obligations.FailedCommandKeepsTheRecord : Prop :=
  ∀ (i : Instr) (s t : State) (e : CmdError), exec i s = .next t → t.result = some (.error e) →
    SameRecord s t ∨
    (i = .softReset ∧ s.params.resetReappliesConfig = true ∧ s.calValid = true ∧
      SameRecord { s with phase := .ready, mode := .none } t)

/-- R108, R209, R211: in CLOSED every bus-touching command raises BusError(closed), with no transport call and nothing
recorded. That the nine bus transactions, run by themselves, are among these commands is the model's choice (log entry 9). -/
def Obligations.ClosedBlockRaisesBusErrorClosed : Prop :=
  ∀ (i : Instr) (s : State), s.phase = .closed → touchesBus i = true →
    exec i s = .next (s.failed (.busError .closed))

/-- R209: before a successful INIT, CONFIGURE (valid or not) and READ_MEAS are refused. -/
def Obligations.UninitialisedBlockRefusesConfigureAndRead : Prop :=
  ∀ (s : State) (cfg : Cfg), s.phase = .uninit →
    exec (.configure cfg) s = .next (s.refusedWith .notInitialized) ∧
    exec .readMeas s = .next (s.refusedWith .notInitialized)

/-- R24, R232: where the snapshot is unwritten, reading it is refused; no reachable state is of this kind (`State.Inv`), and
that the check precedes the bus is the model's choice (log entry 12). -/
def Obligations.UnwrittenCalibrationIsNotRead : Prop :=
  ∀ (s : State), s.phase = .ready ∨ s.phase = .configured → s.calValid = false →
    exec .readMeas s = .next (s.refusedWith .unwrittenCalibration)

/-- R106, R172, R238: an operand outside its domain is refused with no transport call: a READ_REGS burst, unless the handle
is closed; a raw code of 2^20 or more in COMP_T, COMP_P and COMPENSATE. -/
def Obligations.OperandOutsideItsDomainIsRefused : Prop :=
  ∀ (s : State) (reg count : Byte) (praw traw tfine : BitVec 32) (hraw : BitVec 16) (cal : CalOperand),
    (s.phase ≠ .closed → (count.toNat = 0 ∨ 256 < reg.toNat + count.toNat) →
      exec (.readRegs reg count) s = .next (s.refusedWith .badBurst)) ∧
    (2 ^ 20 ≤ traw.toNat → exec (.compT traw cal) s = .next (s.refusedWith .badRaw)) ∧
    (2 ^ 20 ≤ praw.toNat → exec (.compP praw tfine cal) s = .next (s.refusedWith .badRaw)) ∧
    (2 ^ 20 ≤ praw.toNat ∨ 2 ^ 20 ≤ traw.toNat →
      exec (.compensate praw traw hraw cal) s = .next (s.refusedWith .badRaw))

/-- R145, R153, R203: an invalid configuration is rejected by every command that takes one, with the first failing field in
the order h, p, t, mode, filter, t_sb, and with nothing written anywhere. -/
def Obligations.InvalidConfigurationIsRejectedBeforeAnyWrite : Prop :=
  ∀ (s : State) (c : Cfg) (f : CfgField) (code : Byte),
    (match f with
      | .osrsH => code = c.osrsH ∧ 7 < code.toNat
      | .osrsP => code = c.osrsP ∧ 7 < code.toNat ∧ c.osrsH.toNat ≤ 7
      | .osrsT => code = c.osrsT ∧ 7 < code.toNat ∧ c.osrsH.toNat ≤ 7 ∧ c.osrsP.toNat ≤ 7
      | .mode => code = c.mode ∧ code ≠ 0 ∧ code ≠ 1 ∧ code ≠ 3 ∧ c.osrsH.toNat ≤ 7 ∧ c.osrsP.toNat ≤ 7 ∧
          c.osrsT.toNat ≤ 7
      | .filter => code = c.filter ∧ 7 < code.toNat ∧ c.osrsH.toNat ≤ 7 ∧ c.osrsP.toNat ≤ 7 ∧ c.osrsT.toNat ≤ 7 ∧
          (c.mode = 0 ∨ c.mode = 1 ∨ c.mode = 3)
      | .tSb => code = c.tSb ∧ 7 < code.toNat ∧ c.osrsH.toNat ≤ 7 ∧ c.osrsP.toNat ≤ 7 ∧ c.osrsT.toNat ≤ 7 ∧
          (c.mode = 0 ∨ c.mode = 1 ∨ c.mode = 3) ∧ c.filter.toNat ≤ 7) →
    (∀ i ∈ [Instr.validateCfg c, .encCtrlHum c, .encCtrlMeas c, .encConfig c, .durTypical c, .durMax c, .durCycle c],
      exec i s = .next (s.failed (.configurationError f code))) ∧
    (s.phase = .ready ∨ s.phase = .configured →
      exec (.configure c) s = .next (s.failed (.configurationError f code)))

/-! ## Register access (R100 to R111) -/

/-- R104: a register write (WRITE_REG, WR_CTRL_HUM, WR_CTRL_MEAS, WR_CONFIG, WR_RESET) in an open block whose transport
calls go through selects the block's own address, writes the frame, and changes nothing else of the block. That a bus
transaction runs by itself is the model's choice (log entry 9). -/
def Obligations.RegisterWriteCompletes : Prop :=
  ∀ (i : Instr) (s : State) (reg val : Byte), writeOf i = some (reg, val) → s.phase ≠ .closed →
    s.writeGoesThrough 0 →
    exec i s = .next ((s.afterBus 2 (writeEvents s.devAddr reg val) (some s.devAddr)).succeeded .none)

/-- R105: a register read (READ_REGS, RD_ID, RD_CAL1, RD_CAL2, RD_CALH1, RD_DATA) in an open block whose transport calls go
through returns the bytes read, and changes nothing else of the block. That a bus transaction runs by itself is the model's
choice (log entry 9). -/
def Obligations.RegisterReadCompletes : Prop :=
  ∀ (i : Instr) (s : State) (reg : Byte) (n : Nat) (bs : List Byte), readOf i = some (reg, n) → s.phase ≠ .closed →
    s.readGives 0 n bs →
    exec i s = .next ((s.afterBus 3 (readEvents s.devAddr reg n bs) (some s.devAddr)).succeeded (.bytes bs))

/-- R101, R103, R104, R107: the first failing call of a register write ends it with its cause; the calls made are in the
trace, a failed select leaves `T.sel` unknown, and nothing is retried. That WR_CTRL_HUM, WR_CTRL_MEAS, WR_CONFIG and
WR_RESET run by themselves is the model's choice (log entry 9). -/
def Obligations.RegisterWriteFailsWithItsCause : Prop :=
  ∀ (i : Instr) (s : State) (reg val : Byte), writeOf i = some (reg, val) → s.phase ≠ .closed →
    ((s.upcoming 0).fails = true →
      exec i s = .next ((s.afterBus 1 [.sel s.devAddr .fail] none).failed (.busError .selectFailed))) ∧
    ((s.upcoming 0).fails = false → (s.upcoming 1).fails = true →
      exec i s = .next ((s.afterBus 2 [.sel s.devAddr .ok, .w [reg, val] .fail] (some s.devAddr)).failed
        (.busError .ioFailure))) ∧
    ((s.upcoming 0).fails = false → (s.upcoming 1).fails = false → (s.upcoming 1).count < 2 →
      exec i s = .next ((s.afterBus 2 [.sel s.devAddr .ok, .w [reg, val] (.wrote (s.upcoming 1).count)]
        (some s.devAddr)).failed (.busError .shortWrite)))

/-- R101, R103, R105, R107: the same of a register read, with its three calls. That RD_ID, RD_CAL1, RD_CAL2, RD_CALH1 and
RD_DATA run by themselves is the model's choice (log entry 9). -/
def Obligations.RegisterReadFailsWithItsCause : Prop :=
  ∀ (i : Instr) (s : State) (reg : Byte) (n : Nat), readOf i = some (reg, n) → s.phase ≠ .closed →
    ((s.upcoming 0).fails = true →
      exec i s = .next ((s.afterBus 1 [.sel s.devAddr .fail] none).failed (.busError .selectFailed))) ∧
    ((s.upcoming 0).fails = false → (s.upcoming 1).fails = true →
      exec i s = .next ((s.afterBus 2 [.sel s.devAddr .ok, .w [reg] .fail] (some s.devAddr)).failed
        (.busError .ioFailure))) ∧
    ((s.upcoming 0).fails = false → (s.upcoming 1).fails = false → (s.upcoming 1).count = 0 →
      exec i s = .next ((s.afterBus 2 [.sel s.devAddr .ok, .w [reg] (.wrote 0)] (some s.devAddr)).failed
        (.busError .shortWrite))) ∧
    ((s.upcoming 0).fails = false → (s.upcoming 1).fails = false → 1 ≤ (s.upcoming 1).count →
      ((s.upcoming 2).fails = true →
        exec i s = .next ((s.afterBus 3 [.sel s.devAddr .ok, .w [reg] (.wrote 1), .r n .fail]
          (some s.devAddr)).failed (.busError .ioFailure))) ∧
      ((s.upcoming 2).fails = false → (s.upcoming 2).bytes.length < n →
        exec i s = .next ((s.afterBus 3 [.sel s.devAddr .ok, .w [reg] (.wrote 1), .r n (.got (s.upcoming 2).bytes)]
          (some s.devAddr)).failed (.busError .shortRead))))

/-- R64, R65, R100, R110: whatever a step does, it appends to the trace, and what it appends is select-then-write or
select-then-write-then-read sequences to the block's own address, within the outcomes of R100. -/
def Obligations.StepAppendsOnlyFramedTransactions : Prop :=
  ∀ (s t : State), step s = .next t →
    ∃ es, t.trace = s.trace ++ es ∧ framed s.devAddr .free es = true

/-- R66: a façade command puts on the bus its own transactions in order, as far as it gets, and no others; all of them when
it succeeds. `RESET_REAPPLIES_CONFIG` is at its default. -/
def Obligations.FacadeEmitsOnlyItsTransactions : Prop :=
  ∀ (i : Instr) (s t : State), i = .init ∨ (∃ c, i = .configure c) ∨ i = .softReset ∨ i = .readMeas ∨ i = .close →
    s.params.resetReappliesConfig = false → exec i s = .next t →
    ∃ es, t.trace = s.trace ++ es ∧ framesOf es <+: facadeFrames s.params.configLayout i ∧
      ((∃ p, t.result = some (.success p)) → framesOf es = facadeFrames s.params.configLayout i)

/-! ## The façade (R200 to R211) -/

/-- R131, R201, R210: INIT with the identity 0x60 and three successful calibration reads replaces the snapshot, makes it
valid, and moves UNINIT to READY; its four reads are in the trace, in order. -/
def Obligations.InitCompletes : Prop :=
  ∀ (s : State) (b c h : List Byte), s.phase ≠ .closed → s.readGives 0 1 [0x60] → s.readGives 3 24 b →
    s.readGives 6 8 c → s.readGives 9 1 h →
    exec .init s = .next ({ (s.afterBus 12 (readEvents s.devAddr 0xD0 1 [0x60] ++ readEvents s.devAddr 0x88 24 b ++
        readEvents s.devAddr 0xE1 8 c ++ readEvents s.devAddr 0xA1 1 h) (some s.devAddr)) with
      cal := { tp := decodeTpFields b, hu := decodeHFields s.params.h45SignExtend c (byteAt h 0) }
      calValid := true
      phase := if s.phase = Phase.uninit then .ready else s.phase }.succeeded .none)

/-- R202, R234: an identity byte other than 0x60 ends INIT with IdentityMismatchError carrying it; no calibration read
follows. -/
def Obligations.InitRejectsAnotherIdentity : Prop :=
  ∀ (s : State) (id : Byte), s.phase ≠ .closed → s.readGives 0 1 [id] → id ≠ 0x60 →
    exec .init s = .next ((s.afterBus 3 (readEvents s.devAddr 0xD0 1 [id]) (some s.devAddr)).failed
      (.identityMismatch id))

/-- R131, R201, R235: whichever call of the identity read fails, INIT ends with the BusError of its cause; whichever call of
whichever calibration read fails, it ends with the CalibrationReadError of that cause. The calls made are in the trace, the
later reads are not issued, and nothing else changes. -/
def Obligations.InitWrapsCalibrationReadFailures : Prop :=
  ∀ (s : State) (b c : List Byte) (f : BusFailure), s.phase ≠ .closed →
    (s.ReadFails 0 0xD0 1 f →
      exec .init s = .next ((s.afterBus f.calls f.events f.sel).failed (.busError f.cause))) ∧
    (s.readGives 0 1 [0x60] →
      (s.ReadFails 3 0x88 24 f →
        exec .init s = .next ((s.afterBus (3 + f.calls) (readEvents s.devAddr 0xD0 1 [0x60] ++ f.events) f.sel).failed
          (.calibrationReadError f.cause))) ∧
      (s.readGives 3 24 b →
        (s.ReadFails 6 0xE1 8 f →
          exec .init s = .next ((s.afterBus (6 + f.calls) (readEvents s.devAddr 0xD0 1 [0x60] ++
            readEvents s.devAddr 0x88 24 b ++ f.events) f.sel).failed (.calibrationReadError f.cause))) ∧
        (s.readGives 6 8 c → s.ReadFails 9 0xA1 1 f →
          exec .init s = .next ((s.afterBus (9 + f.calls) (readEvents s.devAddr 0xD0 1 [0x60] ++
            readEvents s.devAddr 0x88 24 b ++ readEvents s.devAddr 0xE1 8 c ++ f.events) f.sel).failed
            (.calibrationReadError f.cause)))))

/-- R203, R204, R33, R35, R36: CONFIGURE of a valid configuration whose three writes go through writes ctrl_hum, ctrl_meas
and config in this order, with the codes in their fields, and then records the configuration, the phase and the mode. -/
def Obligations.ConfigureCompletes : Prop :=
  ∀ (s : State) (c : Cfg), s.phase = .ready ∨ s.phase = .configured →
    c.osrsH.toNat ≤ 7 → c.osrsP.toNat ≤ 7 → c.osrsT.toNat ≤ 7 → (c.mode = 0 ∨ c.mode = 1 ∨ c.mode = 3) →
    c.filter.toNat ≤ 7 → c.tSb.toNat ≤ 7 →
    s.writeGoesThrough 0 → s.writeGoesThrough 2 → s.writeGoesThrough 4 →
    ∃ hum meas conf : Byte,
      hum.toNat = c.osrsH.toNat ∧
      meas.toNat = 32 * c.osrsT.toNat + 4 * c.osrsP.toNat + c.mode.toNat ∧
      (s.params.configLayout = .doc → conf.toNat = 16 * c.tSb.toNat + 2 * c.filter.toNat) ∧
      (s.params.configLayout = .vendor → conf.toNat = 32 * c.tSb.toNat + 4 * c.filter.toNat) ∧
      exec (.configure c) s = .next ({ (s.afterBus 6 (writeEvents s.devAddr 0xF2 hum ++
          writeEvents s.devAddr 0xF4 meas ++ writeEvents s.devAddr 0xF5 conf) (some s.devAddr)) with
        lastCfg := some c
        phase := .configured
        mode := if c.mode = 0 then .sleep else if c.mode = 1 then .forcedPending else .normal }.succeeded .none)

/-- R103, R107, R203, R205, R206, R239, R268: whichever call of CONFIGURE, SOFT_RESET or READ_MEAS fails, the command ends
with the BusError of its cause. The calls made are in the trace (the earlier writes of a CONFIGURE among them; no delay
after a failed reset write), the later ones are not issued, and the block's record is as it was. -/
def Obligations.FacadeCommandsFailWithTheirCause : Prop :=
  ∀ (s : State) (c : Cfg) (f : BusFailure),
    (s.phase = .ready ∨ s.phase = .configured → cfgAccepted c = true →
      (s.WriteFails 0 0xF2 (ctrlHumOf c) f →
        exec (.configure c) s = .next ((s.afterBus f.calls f.events f.sel).failed (.busError f.cause))) ∧
      (s.writeGoesThrough 0 → s.WriteFails 2 0xF4 (ctrlMeasOf c) f →
        exec (.configure c) s = .next ((s.afterBus (2 + f.calls) (writeEvents s.devAddr 0xF2 (ctrlHumOf c) ++
          f.events) f.sel).failed (.busError f.cause))) ∧
      (s.writeGoesThrough 0 → s.writeGoesThrough 2 → s.WriteFails 4 0xF5 (configOf s.params.configLayout c) f →
        exec (.configure c) s = .next ((s.afterBus (4 + f.calls) (writeEvents s.devAddr 0xF2 (ctrlHumOf c) ++
          writeEvents s.devAddr 0xF4 (ctrlMeasOf c) ++ f.events) f.sel).failed (.busError f.cause)))) ∧
    (s.phase ≠ .closed → s.WriteFails 0 0xE0 0xB6 f →
      exec .softReset s = .next ((s.afterBus f.calls f.events f.sel).failed (.busError f.cause))) ∧
    (s.phase = .ready ∨ s.phase = .configured → s.calValid = true → s.ReadFails 0 0xF7 8 f →
      exec .readMeas s = .next ((s.afterBus f.calls f.events f.sel).failed (.busError f.cause)))

/-- R205, R262, R264: SOFT_RESET whose write goes through writes 0xB6 to 0xE0, waits 2000 µs, and leaves mode NONE and
phase READY or UNINIT by the snapshot; calibration and last configuration are kept. Where `RESET_REAPPLIES_CONFIG` asks for
it, the last configuration is then applied as CONFIGURE does, and its outcome is the command's (R240). -/
def Obligations.SoftResetCompletes : Prop :=
  ∀ (s r : State), s.phase ≠ .closed → s.writeGoesThrough 0 →
    r = { (s.afterBus 2 (writeEvents s.devAddr 0xE0 0xB6 ++ [.dly 2000]) (some s.devAddr)) with
      mode := .none
      phase := if s.calValid then .ready else .uninit } →
    (s.params.resetReappliesConfig = false ∨ s.calValid = false ∨ s.lastCfg = none →
      exec .softReset s = .next (r.succeeded .none)) ∧
    (∀ c, s.params.resetReappliesConfig = true → s.calValid = true → s.lastCfg = some c →
      exec .softReset s = exec (.configure c) r)

/-- R206, R207: READ_MEAS whose burst goes through returns the compensation of the unpacked burst with the stored snapshot,
and a pending forced read becomes SLEEP; nothing else of the record changes. -/
def Obligations.ReadMeasCompletes : Prop :=
  ∀ (s : State) (d : List Byte), s.phase = .ready ∨ s.phase = .configured → s.calValid = true → s.readGives 0 8 d →
    exec .readMeas s = .next ({ (s.afterBus 3 (readEvents s.devAddr 0xF7 8 d) (some s.devAddr)) with
      mode := if s.mode = Mode.forcedPending then .sleep else s.mode }.succeeded
        (.meas (compensate s.params (unpackRaw d) s.cal)))

/-- R208: CLOSE ends in CLOSED with mode NONE from every phase, without a transport call. -/
def Obligations.CloseCompletes : Prop :=
  ∀ (s : State), exec .close s = .next ({ s with phase := .closed, mode := .none }.succeeded .none)

/-- R22, R200, R205, R240: which instructions change the phase, from where and to where. -/
def Obligations.PhaseChangesOnlyByFacadeTransitions : Prop :=
  ∀ (i : Instr) (s t : State), exec i s = .next t → t.phase ≠ s.phase →
    (i = .init ∧ s.phase = .uninit ∧ t.phase = .ready ∧ t.result = some (.success .none)) ∨
    ((∃ c, i = .configure c) ∧ s.phase = .ready ∧ t.phase = .configured ∧ t.result = some (.success .none)) ∨
    (i = .softReset ∧ s.phase ≠ .closed ∧
      (t.phase = (if s.calValid then .ready else .uninit) ∨
        (t.phase = .configured ∧ s.params.resetReappliesConfig = true ∧ s.calValid = true))) ∨
    (i = .close ∧ t.phase = .closed ∧ t.result = some (.success .none))

/-- R200: "No other command changes `S.phase` or `S.mode`": the mode. -/
def Obligations.ModeChangesOnlyByFacadeTransitions : Prop :=
  ∀ (i : Instr) (s t : State), exec i s = .next t → t.mode ≠ s.mode →
    (∃ c, i = .configure c ∧ t.mode = modeOf c.mode ∧ t.lastCfg = some c ∧ t.result = some (.success .none)) ∨
    (i = .readMeas ∧ s.mode = .forcedPending ∧ t.mode = .sleep ∧ ∃ m, t.result = some (.success (.meas m))) ∨
    (i = .softReset ∧ (t.mode = .none ∨ s.params.resetReappliesConfig = true)) ∨
    (i = .close ∧ t.mode = .none)

/-- R24, R55: the snapshot and its validity are written only by a successful INIT, and then together. -/
def Obligations.CalibrationIsWrittenOnlyBySuccessfulInit : Prop :=
  ∀ (i : Instr) (s t : State), exec i s = .next t →
    (t.cal = s.cal ∧ t.calValid = s.calValid) ∨
    (i = .init ∧ t.calValid = true ∧ t.result = some (.success .none))

/-- R25: the last configuration is written only by a successful application of it. -/
def Obligations.LastConfigurationIsWrittenOnlyBySuccess : Prop :=
  ∀ (i : Instr) (s t : State), exec i s = .next t → t.lastCfg ≠ s.lastCfg →
    ∃ c, i = .configure c ∧ t.lastCfg = some c ∧ cfgAccepted c = true ∧ t.phase = .configured ∧
      t.result = some (.success .none)

/-- R26, and the parameters of R6: the device address and the parameters never change. -/
def Obligations.AddressAndParametersNeverChange : Prop :=
  ∀ (s t : State), step s = .next t → t.devAddr = s.devAddr ∧ t.params = s.params

/-- R211: a datapath command makes no transport call and writes no field of S; beyond the outcome it returns, only the
model's tie choices may be used up, and only by NEAREST_STANDBY. -/
def Obligations.DatapathCommandsWriteNoState : Prop :=
  ∀ (i : Instr) (s t : State), isDatapath i = true → exec i s = .next t →
    t = { s with
      result := t.result
      refusalMark := t.refusalMark
      ties := t.ties
      tiesDrawn := t.tiesDrawn } ∧
    ((∀ r, i ≠ .nearestStandby r) → t.ties = s.ties ∧ t.tiesDrawn = s.tiesDrawn)

/-- R182, R211: the outcome of a datapath command depends on its operands and the parameters alone, ties apart. -/
def Obligations.DatapathOutcomeDependsOnOperandsAlone : Prop :=
  ∀ (i : Instr) (s t s' t' : State), isDatapath i = true → s.params = t.params →
    (∀ r, i = .nearestStandby r → s.ties = t.ties ∧ s.tiesDrawn = t.tiesDrawn) →
    exec i s = .next s' → exec i t = .next t' → s'.result = t'.result

/-- The invariant of the block's record holds at reset. -/
def Obligations.RecordInvariantHoldsAtReset : Prop := State.Inv State.reset

/-- The invariant of the block's record, and of its refusal mark, is kept by every step, from every state that has it. -/
def Obligations.RecordInvariantIsKeptByEveryStep : Prop :=
  ∀ (s t : State), s.Inv → step s = .next t → t.Inv

/-- R20, R260: what construction leaves. -/
def Obligations.ResetLeavesTheConstructedBlock : Prop :=
  State.reset.phase = .uninit ∧ State.reset.mode = .none ∧ State.reset.calValid = false ∧
  State.reset.lastCfg = none ∧ State.reset.trace = [] ∧ State.reset.tSel = none ∧
  State.reset.refusalMark = false ∧ State.reset.devAddr = Config.devAddr

/-! ## The datapath (R120 to R184) -/

/-- R121: block 1 decodes to twelve little-endian words, T1 and P1 unsigned and the others two's complement. -/
def Obligations.DecodeTpCompletes : Prop :=
  ∀ (s : State) (b : List Byte), ∃ c : CalTP,
    exec (.decodeTp b) s = .next (s.succeeded (.tp c)) ∧
    (let u := fun k => (byteAt b (2 * k)).toNat + 256 * (byteAt b (2 * k + 1)).toNat
     let sx := fun k => if u k < 32768 then (u k : Int) else (u k : Int) - 65536
     c.t1.toNat = u 0 ∧ c.t2.toInt = sx 1 ∧ c.t3.toInt = sx 2 ∧ c.p1.toNat = u 3 ∧ c.p2.toInt = sx 4 ∧
     c.p3.toInt = sx 5 ∧ c.p4.toInt = sx 6 ∧ c.p5.toInt = sx 7 ∧ c.p6.toInt = sx 8 ∧ c.p7.toInt = sx 9 ∧
     c.p8.toInt = sx 10 ∧ c.p9.toInt = sx 11)

/-- R122 to R129: block 2 and the H1 byte, under both readings of the H4 and H5 high bytes; the eighth byte is not read. -/
def Obligations.DecodeHCompletes : Prop :=
  ∀ (s : State) (d : List Byte) (h1 : Byte), ∃ c : CalH,
    exec (.decodeH d h1) s = .next (s.succeeded (.hu c)) ∧
    (let n := fun k => (byteAt d k).toNat
     let s8 := fun k => if n k < 128 then (n k : Int) else (n k : Int) - 256
     let u := n 0 + 256 * n 1
     c.h1 = h1 ∧ c.h2.toInt = (if u < 32768 then (u : Int) else (u : Int) - 65536) ∧ c.h3.toNat = n 2 ∧
     (s.params.h45SignExtend = false → c.h4.toInt = 16 * n 3 + n 4 % 16 ∧ c.h5.toInt = 16 * n 5 + n 4 / 16) ∧
     (s.params.h45SignExtend = true → c.h4.toInt = 16 * s8 3 + n 4 % 16 ∧ c.h5.toInt = 16 * s8 5 + n 4 / 16) ∧
     c.h6.toInt = s8 6) ∧
    ∀ (d' : List Byte), (∀ k < 7, byteAt d' k = byteAt d k) →
      exec (.decodeH d' h1) s = .next (s.succeeded (.hu c))

/-- R171: the three raw codes, most significant byte first, the low nibble of each XLSB discarded. -/
def Obligations.UnpackRawCompletes : Prop :=
  ∀ (s : State) (d : List Byte), ∃ (praw traw : BitVec 20) (hraw : BitVec 16),
    exec (.unpackRaw d) s = .next (s.succeeded (.raw praw traw hraw)) ∧
    (let n := fun k => (byteAt d k).toNat
     praw.toNat = (65536 * n 0 + 256 * n 1 + n 2) / 16 ∧ traw.toNat = (65536 * n 3 + 256 * n 4 + n 5) / 16 ∧
     hraw.toNat = 256 * n 6 + n 7)

/-- R170: the four operations on finite operands are the exact result rounded once to nearest, ties to even (a zero result
apart from its sign, and division by a zero apart). -/
def Obligations.FloatOperationsRoundToNearestEven : Prop :=
  ∀ (x y : F64), F64.isFinite x = true → F64.isFinite y = true →
    RoundsTo (ratOf x + ratOf y) (F64.add x y) ∧
    RoundsTo (ratOf x - ratOf y) (F64.sub x y) ∧
    RoundsTo (ratOf x * ratOf y) (F64.mul x y) ∧
    (F64.isZero y = false → RoundsTo (ratOf x / ratOf y) (F64.div x y))

/-- R9: the conversion of an integer is exact for every integer the spec converts. -/
def Obligations.IntegerConversionIsExact : Prop :=
  ∀ (n : Int), n.natAbs < 2 ^ 53 → F64.isFinite (F64.ofInt n) = true ∧ ratOf (F64.ofInt n) = n

/-- R9, R176, R179: the comparisons are those of the values on finite operands; minus infinity is below and plus infinity
above every finite value, each is equal to itself alone, and a comparison with a NaN is false. Every pattern is finite, an
infinity or a NaN, so nothing is left out. -/
def Obligations.FloatComparisonIsTheOrderOfValues : Prop :=
  (∀ x : F64, F64.isFinite x = true ∨ x = F64.inf true ∨ x = F64.inf false ∨ F64.isNaN x = true) ∧
  (∀ x y : F64, F64.isFinite x = true → F64.isFinite y = true →
    (F64.lt x y = true ↔ ratOf x < ratOf y) ∧ (F64.eq x y = true ↔ ratOf x = ratOf y)) ∧
  (∀ (x : F64) (b : Bool), F64.isFinite x = true →
    F64.lt (F64.inf b) x = b ∧ F64.lt x (F64.inf b) = (!b) ∧ F64.eq (F64.inf b) x = false ∧ F64.eq x (F64.inf b) = false) ∧
  (∀ a b : Bool, F64.lt (F64.inf a) (F64.inf b) = (a && !b) ∧ F64.eq (F64.inf a) (F64.inf b) = (a == b)) ∧
  (∀ x y : F64, F64.isNaN x = true ∨ F64.isNaN y = true → F64.lt x y = false ∧ F64.eq x y = false)

/-- R173: COMP_T of an operand in its domain returns the temperature and tfine of the sum v1 + v2, with the coefficients that R121
decodes from the first 24 bytes of the operand (R61). -/
def Obligations.CompTCompletes : Prop :=
  ∀ (s : State) (traw : BitVec 32) (cal : CalOperand), traw.toNat < 2 ^ 20 →
    let c := decodeTpFields cal.blk24
    let n := fun k : Int => F64.ofInt k
    let t := n traw.toNat
    let v1 := F64.mul (F64.sub (F64.div t (n 16384)) (F64.div (n c.t1.toNat) (n 1024))) (n c.t2.toInt)
    let a := F64.sub (F64.div t (n 131072)) (F64.div (n c.t1.toNat) (n 8192))
    let sum := F64.add v1 (F64.mul (F64.mul a a) (n c.t3.toInt))
    exec (.compT traw cal) s = .next (s.succeeded (.temp (F64.div sum (n 5120)) (F64.truncS32 sum)))

/-- R9, R174: for every temperature code and every T1, T2, T3 the sum is finite with magnitude at most 2^22, and tfine is
its truncation toward zero, at most 4194304 in magnitude. The spec marks R174 as its own derivation. -/
def Obligations.TfineIsTheBoundedTruncatedSum : Prop :=
  ∀ (traw : BitVec 20) (c : CalTP),
    F64.isFinite (tempSum traw c) = true ∧ |ratOf (tempSum traw c)| ≤ 2 ^ 22 ∧
    (compT traw c).2.toInt = (if 0 ≤ ratOf (tempSum traw c) then ⌊ratOf (tempSum traw c)⌋ else ⌈ratOf (tempSum traw c)⌉) ∧
    |(compT traw c).2.toInt| ≤ 4194304

/-- R175, R176: COMP_P of an operand in its domain, with the coefficients that R121 decodes from the first 24 bytes of the
operand (R61): the sentinel 0 when step 6 gives a zero of either sign, else steps 7 and the refinement. -/
def Obligations.CompPCompletes : Prop :=
  ∀ (s : State) (praw tfine : BitVec 32) (cal : CalOperand), praw.toNat < 2 ^ 20 →
    let c := decodeTpFields cal.blk24
    let n := fun k : Int => F64.ofInt k
    let a := F64.sub (F64.div (n tfine.toInt) (n 2)) (n 64000)
    let b := F64.div (F64.mul (F64.mul a a) (n c.p6.toInt)) (n 32768)
    let b := F64.add b (F64.mul (F64.mul a (n c.p5.toInt)) (n 2))
    let b := F64.add (F64.div b (n 4)) (F64.mul (n c.p4.toInt) (n 65536))
    let a := F64.div (F64.add (F64.div (F64.mul (F64.mul (n c.p3.toInt) a) a) (n 524288)) (F64.mul (n c.p2.toInt) a))
      (n 524288)
    let a := F64.mul (F64.add (n 1) (F64.div a (n 32768))) (n c.p1.toNat)
    let p := F64.sub (n 1048576) (n praw.toNat)
    let p := F64.div (F64.mul (F64.sub p (F64.div b (n 4096))) (n 6250)) a
    let q := F64.div (F64.mul (F64.mul (n c.p9.toInt) p) p) (n 2147483648)
    let r := F64.div (F64.mul p (n c.p8.toInt)) (n 32768)
    let p := F64.add p (F64.div (F64.add (F64.add q r) (n c.p7.toInt)) (n 16))
    (a = 0x0000000000000000 ∨ a = 0x8000000000000000 →
      exec (.compP praw tfine cal) s = .next (s.succeeded (.press 0x0000000000000000 true))) ∧
    (a ≠ 0x0000000000000000 → a ≠ 0x8000000000000000 →
      exec (.compP praw tfine cal) s = .next (s.succeeded (.press p false)))

/-- R175, R176: a zero P1 gives the sentinel, whatever the code, tfine and the other coefficients. -/
def Obligations.ZeroP1GivesThePressureSentinel : Prop :=
  ∀ (praw : BitVec 20) (tfine : BitVec 32) (c : CalTP), c.p1 = 0 →
    compP praw tfine c = (0x0000000000000000, true)

/-- R177: COMP_H returns the nested products of H4, H5, H2, H6, H3, H1, with no limiter, the coefficients being those that
R122 decodes from the last 9 bytes of the operand (R61). -/
def Obligations.CompHCompletes : Prop :=
  ∀ (s : State) (hraw : BitVec 16) (tfine : BitVec 32) (cal : CalOperand),
    let c := decodeHFields s.params.h45SignExtend cal.blk8 cal.h1
    let n := fun k : Int => F64.ofInt k
    let x := F64.sub (n tfine.toInt) (n 76800)
    let c4 := F64.add (F64.mul (n c.h4.toInt) (n 64)) (F64.mul (F64.div (n c.h5.toInt) (n 16384)) x)
    let g3 := F64.add (n 1) (F64.mul (F64.div (n c.h3.toNat) (n 67108864)) x)
    let g6 := F64.add (n 1) (F64.mul (F64.mul (F64.div (n c.h6.toInt) (n 67108864)) x) g3)
    let h := F64.mul (F64.sub (n hraw.toNat) c4) (F64.mul (F64.div (n c.h2.toInt) (n 65536)) g6)
    let h := F64.mul h (F64.sub (n 1) (F64.div (F64.mul (n c.h1.toNat) h) (n 524288)))
    exec (.compH hraw tfine cal) s = .next (s.succeeded (.humid h))

/-- R183: for every raw sample and every coefficient record, the three values the clamp is given are finite, so that the
only infinities of a result are the clamp's. The spec marks R183 as its own derivation. -/
def Obligations.StagesGiveFiniteValues : Prop :=
  ∀ (r : RawSample) (c : Cal),
    F64.isFinite (compT r.traw c.tp).1 = true ∧
    F64.isFinite (compP r.praw (compT r.traw c.tp).2 c.tp).1 = true ∧
    F64.isFinite (compH r.hraw (compT r.traw c.tp).2 c.hu) = true

/-- R179, R180: CLAMP returns each field as given, but `-inf` where the field is less than its lower bound and `+inf` where
its upper bound is less than the field; the sentinel flag exempts the pressure unless `PZERO_CLAMPED`. -/
def Obligations.ClampCompletes : Prop :=
  ∀ (s : State) (t p h : F64) (flag : Byte),
    let lim := fun (x : F64) (lo hi : Int) =>
      if F64.lt x (F64.ofInt lo) then F64.inf true else if F64.lt (F64.ofInt hi) x then F64.inf false else x
    exec (.clamp t p h flag) s = .next (s.succeeded (.meas {
      t := lim t (-40) 85
      p := if flag ≠ 0 ∧ s.params.pzeroClamped = false then p else lim p 30000 110000
      h := lim h 0 100 }))

/-- R28, R179, R184: every field of a compensated measurement is finite and inside its closed range, or an infinity; the
pressure may also be the sentinel 0. It rests on R183, which the spec marks as its own derivation. -/
def Obligations.CompensatedFieldsAreInRangeOrInfinite : Prop :=
  ∀ (params : Config.Params) (r : RawSample) (c : Cal),
    let m := compensate params r c
    let inRange := fun (x : F64) (lo hi : ℚ) => F64.isFinite x = true ∧ lo ≤ ratOf x ∧ ratOf x ≤ hi
    (inRange m.t (-40) 85 ∨ m.t = F64.inf true ∨ m.t = F64.inf false) ∧
    (inRange m.p 30000 110000 ∨ m.p = F64.inf true ∨ m.p = F64.inf false ∨
      (m.p = 0x0000000000000000 ∧ params.pzeroClamped = false)) ∧
    (inRange m.h 0 100 ∨ m.h = F64.inf true ∨ m.h = F64.inf false)

/-- R181: COMPENSATE of operands in their domains runs the three stages on one tfine and clamps the triple, with the coefficients
that R121 and R122 decode from the operand (R61). -/
def Obligations.CompensateCompletes : Prop :=
  ∀ (s : State) (praw traw : BitVec 32) (hraw : BitVec 16) (cal : CalOperand),
    praw.toNat < 2 ^ 20 → traw.toNat < 2 ^ 20 →
    let c : Cal := { tp := decodeTpFields cal.blk24, hu := decodeHFields s.params.h45SignExtend cal.blk8 cal.h1 }
    let t := compT (traw.setWidth 20) c.tp
    let p := compP (praw.setWidth 20) t.2 c.tp
    let h := compH hraw t.2 c.hu
    exec (.compensate praw traw hraw cal) s =
      .next (s.succeeded (.meas (clampMeas s.params { t := t.1, p := p.1, h := h } p.2)))

/-! ## Configuration (R140 to R153) -/

/-- R145 to R148: VALIDATE_CFG and the three encoders of a valid configuration return nothing and the register value whose
fields hold the codes. -/
def Obligations.EncodersComplete : Prop :=
  ∀ (s : State) (c : Cfg), c.osrsH.toNat ≤ 7 → c.osrsP.toNat ≤ 7 → c.osrsT.toNat ≤ 7 →
    (c.mode = 0 ∨ c.mode = 1 ∨ c.mode = 3) → c.filter.toNat ≤ 7 → c.tSb.toNat ≤ 7 →
    exec (.validateCfg c) s = .next (s.succeeded .none) ∧
    exec (.encCtrlHum c) s = .next (s.succeeded (.regVal (BitVec.ofNat 8 c.osrsH.toNat))) ∧
    exec (.encCtrlMeas c) s = .next (s.succeeded (.regVal
      (BitVec.ofNat 8 (32 * c.osrsT.toNat + 4 * c.osrsP.toNat + c.mode.toNat)))) ∧
    exec (.encConfig c) s = .next (s.succeeded (.regVal (match s.params.configLayout with
      | .doc => BitVec.ofNat 8 (16 * c.tSb.toNat + 2 * c.filter.toNat)
      | .vendor => BitVec.ofNat 8 (32 * c.tSb.toNat + 4 * c.filter.toNat))))

/-- R149 to R151: the three estimators of a valid configuration return the stated sums of microseconds, which fit. -/
def Obligations.DurationEstimatorsComplete : Prop :=
  ∀ (s : State) (c : Cfg), c.osrsH.toNat ≤ 7 → c.osrsP.toNat ≤ 7 → c.osrsT.toNat ≤ 7 →
    (c.mode = 0 ∨ c.mode = 1 ∨ c.mode = 3) → c.filter.toNat ≤ 7 → c.tSb.toNat ≤ 7 →
    let multiplier := fun code : Byte => [0, 1, 2, 4, 8, 16, 16, 16].getD code.toNat 0
    let standby := fun code : Byte => [500, 62500, 125000, 250000, 500000, 1000000, 10000, 20000].getD code.toNat 0
    let on := fun (code : Byte) (setup : Nat) => if code = 0 then 0 else setup
    let sb := if c.mode = 3 then standby c.tSb else 0
    let m := multiplier c.osrsT + multiplier c.osrsP + multiplier c.osrsH
    ∃ typ mx cyc : BitVec 64,
      exec (.durTypical c) s = .next (s.succeeded (.duration typ)) ∧
      exec (.durMax c) s = .next (s.succeeded (.duration mx)) ∧
      exec (.durCycle c) s = .next (s.succeeded (.duration cyc)) ∧
      typ.toNat = 1000 + 2000 * m + on c.osrsP 500 + on c.osrsH 500 + sb ∧
      mx.toNat = 1250 + 2300 * m + on c.osrsP 575 + on c.osrsH 575 ∧
      cyc.toNat = mx.toNat + sb

/-- R152: NEAREST_STANDBY returns code 5 at 1000 ms and above, and below that a candidate that no candidate beats; whatever
a tie's draw is. -/
def Obligations.NearestStandbyCompletes : Prop :=
  ∀ (s : State) (req : BitVec 64), ∃ (code : Byte) (ties : List Nat) (n : Nat),
    exec (.nearestStandby req) s = .next ({ s with ties := ties, tiesDrawn := n }.succeeded (.standby code)) ∧
    (1000000 ≤ req.toInt → code = 5) ∧
    (req.toInt < 1000000 →
      (code ∈ [(0 : Byte), 6, 7, 1, 2, 3, 4] ∨ (code = 5 ∧ s.params.standbyScanIncludes1000 = true)) ∧
      ∀ c : Byte, c ∈ [(0 : Byte), 6, 7, 1, 2, 3, 4] ∨ (c = 5 ∧ s.params.standbyScanIncludes1000 = true) →
        |req.toInt - (sbUs code : Int)| ≤ |req.toInt - (sbUs c : Int)|)

/-- R152, U7: every code of a tie is some draw's answer. -/
def Obligations.EveryTiedStandbyCodeCanBeDrawn : Prop :=
  ∀ (s : State) (req : BitVec 64) (code : Byte), req.toInt < 1000000 →
    code ∈ standbyCandidates s.params.standbyScanIncludes1000 →
    (∀ c ∈ standbyCandidates s.params.standbyScanIncludes1000,
      |req.toInt - (sbUs code : Int)| ≤ |req.toInt - (sbUs c : Int)|) →
    ∃ k t, exec (.nearestStandby req) { s with ties := k :: s.ties } = .next t ∧
      t.result = some (.success (.standby code))

/-! ## Pseudo-commands (R74) -/

/-- R74: REAPPLY is CONFIGURE of the last configuration, or the refusal no_last_config; RESET_AND_REAPPLY is SOFT_RESET and
then REAPPLY, the second only if the first returned success. -/
def Obligations.PseudoCommandsAreTheirExpansions : Prop :=
  ∀ (s t : State),
    (∀ c, s.lastCfg = some c → exec (.configure c) s = .next (runPseudo .reapply s)) ∧
    (s.lastCfg = none → runPseudo .reapply s = s.refusedWith .noLastConfig) ∧
    (exec .softReset s = .next t →
      runPseudo .resetAndReapply s = if t.result = some (.success .none) then runPseudo .reapply t else t)
end

