-- ==== Sys2Proof/Laws/State.lean ====
section
/-! SUPPORT. One lemma per field per update of the state, so that no later proof unfolds a record update. -/

namespace Sys2Proof.Machine

/-! ### reply -/

@[simp] theorem reply_devAddr (r : CmdOutcome × State) : (reply r).devAddr = r.2.devAddr := rfl
@[simp] theorem reply_phase (r : CmdOutcome × State) : (reply r).phase = r.2.phase := rfl
@[simp] theorem reply_mode (r : CmdOutcome × State) : (reply r).mode = r.2.mode := rfl
@[simp] theorem reply_calValid (r : CmdOutcome × State) : (reply r).calValid = r.2.calValid := rfl
@[simp] theorem reply_cal (r : CmdOutcome × State) : (reply r).cal = r.2.cal := rfl
@[simp] theorem reply_lastCfg (r : CmdOutcome × State) : (reply r).lastCfg = r.2.lastCfg := rfl
@[simp] theorem reply_trace (r : CmdOutcome × State) : (reply r).trace = r.2.trace := rfl
@[simp] theorem reply_tSel (r : CmdOutcome × State) : (reply r).tSel = r.2.tSel := rfl
@[simp] theorem reply_refusalMark (r : CmdOutcome × State) : (reply r).refusalMark = (r.2.refusalMark || r.1.isRefused) := rfl
@[simp] theorem reply_params (r : CmdOutcome × State) : (reply r).params = r.2.params := rfl
@[simp] theorem reply_hostIn (r : CmdOutcome × State) : (reply r).hostIn = r.2.hostIn := rfl
@[simp] theorem reply_frameIn (r : CmdOutcome × State) : (reply r).frameIn = r.2.frameIn := rfl
@[simp] theorem reply_result (r : CmdOutcome × State) : (reply r).result = some r.1 := rfl
@[simp] theorem reply_answers (r : CmdOutcome × State) : (reply r).answers = r.2.answers := rfl
@[simp] theorem reply_drawn (r : CmdOutcome × State) : (reply r).drawn = r.2.drawn := rfl
@[simp] theorem reply_ties (r : CmdOutcome × State) : (reply r).ties = r.2.ties := rfl
@[simp] theorem reply_tiesDrawn (r : CmdOutcome × State) : (reply r).tiesDrawn = r.2.tiesDrawn := rfl

/-! ### afterDraw -/

@[simp] theorem State.afterDraw_devAddr (s : State) : (s.afterDraw).devAddr = s.devAddr := rfl
@[simp] theorem State.afterDraw_phase (s : State) : (s.afterDraw).phase = s.phase := rfl
@[simp] theorem State.afterDraw_mode (s : State) : (s.afterDraw).mode = s.mode := rfl
@[simp] theorem State.afterDraw_calValid (s : State) : (s.afterDraw).calValid = s.calValid := rfl
@[simp] theorem State.afterDraw_cal (s : State) : (s.afterDraw).cal = s.cal := rfl
@[simp] theorem State.afterDraw_lastCfg (s : State) : (s.afterDraw).lastCfg = s.lastCfg := rfl
@[simp] theorem State.afterDraw_trace (s : State) : (s.afterDraw).trace = s.trace := rfl
@[simp] theorem State.afterDraw_tSel (s : State) : (s.afterDraw).tSel = s.tSel := rfl
@[simp] theorem State.afterDraw_refusalMark (s : State) : (s.afterDraw).refusalMark = s.refusalMark := rfl
@[simp] theorem State.afterDraw_params (s : State) : (s.afterDraw).params = s.params := rfl
@[simp] theorem State.afterDraw_hostIn (s : State) : (s.afterDraw).hostIn = s.hostIn := rfl
@[simp] theorem State.afterDraw_frameIn (s : State) : (s.afterDraw).frameIn = s.frameIn := rfl
@[simp] theorem State.afterDraw_result (s : State) : (s.afterDraw).result = s.result := rfl
@[simp] theorem State.afterDraw_answers (s : State) : (s.afterDraw).answers = s.answers.tail := rfl
@[simp] theorem State.afterDraw_drawn (s : State) : (s.afterDraw).drawn = s.drawn + 1 := rfl
@[simp] theorem State.afterDraw_ties (s : State) : (s.afterDraw).ties = s.ties := rfl
@[simp] theorem State.afterDraw_tiesDrawn (s : State) : (s.afterDraw).tiesDrawn = s.tiesDrawn := rfl

/-! ### afterTie -/

@[simp] theorem State.afterTie_devAddr (s : State) : (s.afterTie).devAddr = s.devAddr := rfl
@[simp] theorem State.afterTie_phase (s : State) : (s.afterTie).phase = s.phase := rfl
@[simp] theorem State.afterTie_mode (s : State) : (s.afterTie).mode = s.mode := rfl
@[simp] theorem State.afterTie_calValid (s : State) : (s.afterTie).calValid = s.calValid := rfl
@[simp] theorem State.afterTie_cal (s : State) : (s.afterTie).cal = s.cal := rfl
@[simp] theorem State.afterTie_lastCfg (s : State) : (s.afterTie).lastCfg = s.lastCfg := rfl
@[simp] theorem State.afterTie_trace (s : State) : (s.afterTie).trace = s.trace := rfl
@[simp] theorem State.afterTie_tSel (s : State) : (s.afterTie).tSel = s.tSel := rfl
@[simp] theorem State.afterTie_refusalMark (s : State) : (s.afterTie).refusalMark = s.refusalMark := rfl
@[simp] theorem State.afterTie_params (s : State) : (s.afterTie).params = s.params := rfl
@[simp] theorem State.afterTie_hostIn (s : State) : (s.afterTie).hostIn = s.hostIn := rfl
@[simp] theorem State.afterTie_frameIn (s : State) : (s.afterTie).frameIn = s.frameIn := rfl
@[simp] theorem State.afterTie_result (s : State) : (s.afterTie).result = s.result := rfl
@[simp] theorem State.afterTie_answers (s : State) : (s.afterTie).answers = s.answers := rfl
@[simp] theorem State.afterTie_drawn (s : State) : (s.afterTie).drawn = s.drawn := rfl
@[simp] theorem State.afterTie_ties (s : State) : (s.afterTie).ties = s.ties.tail := rfl
@[simp] theorem State.afterTie_tiesDrawn (s : State) : (s.afterTie).tiesDrawn = s.tiesDrawn + 1 := rfl

/-! ### record -/

@[simp] theorem State.record_devAddr (s : State) (e : Event) : (s.record e).devAddr = s.devAddr := rfl
@[simp] theorem State.record_phase (s : State) (e : Event) : (s.record e).phase = s.phase := rfl
@[simp] theorem State.record_mode (s : State) (e : Event) : (s.record e).mode = s.mode := rfl
@[simp] theorem State.record_calValid (s : State) (e : Event) : (s.record e).calValid = s.calValid := rfl
@[simp] theorem State.record_cal (s : State) (e : Event) : (s.record e).cal = s.cal := rfl
@[simp] theorem State.record_lastCfg (s : State) (e : Event) : (s.record e).lastCfg = s.lastCfg := rfl
@[simp] theorem State.record_trace (s : State) (e : Event) : (s.record e).trace = s.trace ++ [e] := rfl
@[simp] theorem State.record_tSel (s : State) (e : Event) : (s.record e).tSel = s.tSel := rfl
@[simp] theorem State.record_refusalMark (s : State) (e : Event) : (s.record e).refusalMark = s.refusalMark := rfl
@[simp] theorem State.record_params (s : State) (e : Event) : (s.record e).params = s.params := rfl
@[simp] theorem State.record_hostIn (s : State) (e : Event) : (s.record e).hostIn = s.hostIn := rfl
@[simp] theorem State.record_frameIn (s : State) (e : Event) : (s.record e).frameIn = s.frameIn := rfl
@[simp] theorem State.record_result (s : State) (e : Event) : (s.record e).result = s.result := rfl
@[simp] theorem State.record_answers (s : State) (e : Event) : (s.record e).answers = s.answers := rfl
@[simp] theorem State.record_drawn (s : State) (e : Event) : (s.record e).drawn = s.drawn := rfl
@[simp] theorem State.record_ties (s : State) (e : Event) : (s.record e).ties = s.ties := rfl
@[simp] theorem State.record_tiesDrawn (s : State) (e : Event) : (s.record e).tiesDrawn = s.tiesDrawn := rfl

/-! ### delay -/

@[simp] theorem delay_devAddr (us : Nat) (s : State) : (delay us s).devAddr = s.devAddr := rfl
@[simp] theorem delay_phase (us : Nat) (s : State) : (delay us s).phase = s.phase := rfl
@[simp] theorem delay_mode (us : Nat) (s : State) : (delay us s).mode = s.mode := rfl
@[simp] theorem delay_calValid (us : Nat) (s : State) : (delay us s).calValid = s.calValid := rfl
@[simp] theorem delay_cal (us : Nat) (s : State) : (delay us s).cal = s.cal := rfl
@[simp] theorem delay_lastCfg (us : Nat) (s : State) : (delay us s).lastCfg = s.lastCfg := rfl
@[simp] theorem delay_trace (us : Nat) (s : State) : (delay us s).trace = s.trace ++ [.dly us] := rfl
@[simp] theorem delay_tSel (us : Nat) (s : State) : (delay us s).tSel = s.tSel := rfl
@[simp] theorem delay_refusalMark (us : Nat) (s : State) : (delay us s).refusalMark = s.refusalMark := rfl
@[simp] theorem delay_params (us : Nat) (s : State) : (delay us s).params = s.params := rfl
@[simp] theorem delay_hostIn (us : Nat) (s : State) : (delay us s).hostIn = s.hostIn := rfl
@[simp] theorem delay_frameIn (us : Nat) (s : State) : (delay us s).frameIn = s.frameIn := rfl
@[simp] theorem delay_result (us : Nat) (s : State) : (delay us s).result = s.result := rfl
@[simp] theorem delay_answers (us : Nat) (s : State) : (delay us s).answers = s.answers := rfl
@[simp] theorem delay_drawn (us : Nat) (s : State) : (delay us s).drawn = s.drawn := rfl
@[simp] theorem delay_ties (us : Nat) (s : State) : (delay us s).ties = s.ties := rfl
@[simp] theorem delay_tiesDrawn (us : Nat) (s : State) : (delay us s).tiesDrawn = s.tiesDrawn := rfl

/-! ### configuredAs -/

@[simp] theorem State.configuredAs_devAddr (s : State) (c : Cfg) : (s.configuredAs c).devAddr = s.devAddr := rfl
@[simp] theorem State.configuredAs_phase (s : State) (c : Cfg) : (s.configuredAs c).phase = .configured := rfl
@[simp] theorem State.configuredAs_mode (s : State) (c : Cfg) : (s.configuredAs c).mode = modeOf c.mode := rfl
@[simp] theorem State.configuredAs_calValid (s : State) (c : Cfg) : (s.configuredAs c).calValid = s.calValid := rfl
@[simp] theorem State.configuredAs_cal (s : State) (c : Cfg) : (s.configuredAs c).cal = s.cal := rfl
@[simp] theorem State.configuredAs_lastCfg (s : State) (c : Cfg) : (s.configuredAs c).lastCfg = some c := rfl
@[simp] theorem State.configuredAs_trace (s : State) (c : Cfg) : (s.configuredAs c).trace = s.trace := rfl
@[simp] theorem State.configuredAs_tSel (s : State) (c : Cfg) : (s.configuredAs c).tSel = s.tSel := rfl
@[simp] theorem State.configuredAs_refusalMark (s : State) (c : Cfg) : (s.configuredAs c).refusalMark = s.refusalMark := rfl
@[simp] theorem State.configuredAs_params (s : State) (c : Cfg) : (s.configuredAs c).params = s.params := rfl
@[simp] theorem State.configuredAs_hostIn (s : State) (c : Cfg) : (s.configuredAs c).hostIn = s.hostIn := rfl
@[simp] theorem State.configuredAs_frameIn (s : State) (c : Cfg) : (s.configuredAs c).frameIn = s.frameIn := rfl
@[simp] theorem State.configuredAs_result (s : State) (c : Cfg) : (s.configuredAs c).result = s.result := rfl
@[simp] theorem State.configuredAs_answers (s : State) (c : Cfg) : (s.configuredAs c).answers = s.answers := rfl
@[simp] theorem State.configuredAs_drawn (s : State) (c : Cfg) : (s.configuredAs c).drawn = s.drawn := rfl
@[simp] theorem State.configuredAs_ties (s : State) (c : Cfg) : (s.configuredAs c).ties = s.ties := rfl
@[simp] theorem State.configuredAs_tiesDrawn (s : State) (c : Cfg) : (s.configuredAs c).tiesDrawn = s.tiesDrawn := rfl

/-! ### afterSoftReset -/

@[simp] theorem State.afterSoftReset_devAddr (s : State) : (s.afterSoftReset).devAddr = s.devAddr := rfl
@[simp] theorem State.afterSoftReset_phase (s : State) : (s.afterSoftReset).phase = if s.calValid then .ready else .uninit := rfl
@[simp] theorem State.afterSoftReset_mode (s : State) : (s.afterSoftReset).mode = .none := rfl
@[simp] theorem State.afterSoftReset_calValid (s : State) : (s.afterSoftReset).calValid = s.calValid := rfl
@[simp] theorem State.afterSoftReset_cal (s : State) : (s.afterSoftReset).cal = s.cal := rfl
@[simp] theorem State.afterSoftReset_lastCfg (s : State) : (s.afterSoftReset).lastCfg = s.lastCfg := rfl
@[simp] theorem State.afterSoftReset_trace (s : State) : (s.afterSoftReset).trace = s.trace := rfl
@[simp] theorem State.afterSoftReset_tSel (s : State) : (s.afterSoftReset).tSel = s.tSel := rfl
@[simp] theorem State.afterSoftReset_refusalMark (s : State) : (s.afterSoftReset).refusalMark = s.refusalMark := rfl
@[simp] theorem State.afterSoftReset_params (s : State) : (s.afterSoftReset).params = s.params := rfl
@[simp] theorem State.afterSoftReset_hostIn (s : State) : (s.afterSoftReset).hostIn = s.hostIn := rfl
@[simp] theorem State.afterSoftReset_frameIn (s : State) : (s.afterSoftReset).frameIn = s.frameIn := rfl
@[simp] theorem State.afterSoftReset_result (s : State) : (s.afterSoftReset).result = s.result := rfl
@[simp] theorem State.afterSoftReset_answers (s : State) : (s.afterSoftReset).answers = s.answers := rfl
@[simp] theorem State.afterSoftReset_drawn (s : State) : (s.afterSoftReset).drawn = s.drawn := rfl
@[simp] theorem State.afterSoftReset_ties (s : State) : (s.afterSoftReset).ties = s.ties := rfl
@[simp] theorem State.afterSoftReset_tiesDrawn (s : State) : (s.afterSoftReset).tiesDrawn = s.tiesDrawn := rfl

/-! ### afterRead -/

@[simp] theorem State.afterRead_devAddr (s : State) : (s.afterRead).devAddr = s.devAddr := rfl
@[simp] theorem State.afterRead_phase (s : State) : (s.afterRead).phase = s.phase := rfl
@[simp] theorem State.afterRead_mode (s : State) : (s.afterRead).mode = if s.mode = .forcedPending then .sleep else s.mode := rfl
@[simp] theorem State.afterRead_calValid (s : State) : (s.afterRead).calValid = s.calValid := rfl
@[simp] theorem State.afterRead_cal (s : State) : (s.afterRead).cal = s.cal := rfl
@[simp] theorem State.afterRead_lastCfg (s : State) : (s.afterRead).lastCfg = s.lastCfg := rfl
@[simp] theorem State.afterRead_trace (s : State) : (s.afterRead).trace = s.trace := rfl
@[simp] theorem State.afterRead_tSel (s : State) : (s.afterRead).tSel = s.tSel := rfl
@[simp] theorem State.afterRead_refusalMark (s : State) : (s.afterRead).refusalMark = s.refusalMark := rfl
@[simp] theorem State.afterRead_params (s : State) : (s.afterRead).params = s.params := rfl
@[simp] theorem State.afterRead_hostIn (s : State) : (s.afterRead).hostIn = s.hostIn := rfl
@[simp] theorem State.afterRead_frameIn (s : State) : (s.afterRead).frameIn = s.frameIn := rfl
@[simp] theorem State.afterRead_result (s : State) : (s.afterRead).result = s.result := rfl
@[simp] theorem State.afterRead_answers (s : State) : (s.afterRead).answers = s.answers := rfl
@[simp] theorem State.afterRead_drawn (s : State) : (s.afterRead).drawn = s.drawn := rfl
@[simp] theorem State.afterRead_ties (s : State) : (s.afterRead).ties = s.ties := rfl
@[simp] theorem State.afterRead_tiesDrawn (s : State) : (s.afterRead).tiesDrawn = s.tiesDrawn := rfl

/-! ### afterBus -/

@[simp] theorem State.afterBus_devAddr (s : State) (n : Nat) (es : List Event) (sel : Option DevAddr) : (s.afterBus n es sel).devAddr = s.devAddr := rfl
@[simp] theorem State.afterBus_phase (s : State) (n : Nat) (es : List Event) (sel : Option DevAddr) : (s.afterBus n es sel).phase = s.phase := rfl
@[simp] theorem State.afterBus_mode (s : State) (n : Nat) (es : List Event) (sel : Option DevAddr) : (s.afterBus n es sel).mode = s.mode := rfl
@[simp] theorem State.afterBus_calValid (s : State) (n : Nat) (es : List Event) (sel : Option DevAddr) : (s.afterBus n es sel).calValid = s.calValid := rfl
@[simp] theorem State.afterBus_cal (s : State) (n : Nat) (es : List Event) (sel : Option DevAddr) : (s.afterBus n es sel).cal = s.cal := rfl
@[simp] theorem State.afterBus_lastCfg (s : State) (n : Nat) (es : List Event) (sel : Option DevAddr) : (s.afterBus n es sel).lastCfg = s.lastCfg := rfl
@[simp] theorem State.afterBus_trace (s : State) (n : Nat) (es : List Event) (sel : Option DevAddr) : (s.afterBus n es sel).trace = s.trace ++ es := rfl
@[simp] theorem State.afterBus_tSel (s : State) (n : Nat) (es : List Event) (sel : Option DevAddr) : (s.afterBus n es sel).tSel = sel := rfl
@[simp] theorem State.afterBus_refusalMark (s : State) (n : Nat) (es : List Event) (sel : Option DevAddr) : (s.afterBus n es sel).refusalMark = s.refusalMark := rfl
@[simp] theorem State.afterBus_params (s : State) (n : Nat) (es : List Event) (sel : Option DevAddr) : (s.afterBus n es sel).params = s.params := rfl
@[simp] theorem State.afterBus_hostIn (s : State) (n : Nat) (es : List Event) (sel : Option DevAddr) : (s.afterBus n es sel).hostIn = s.hostIn := rfl
@[simp] theorem State.afterBus_frameIn (s : State) (n : Nat) (es : List Event) (sel : Option DevAddr) : (s.afterBus n es sel).frameIn = s.frameIn := rfl
@[simp] theorem State.afterBus_result (s : State) (n : Nat) (es : List Event) (sel : Option DevAddr) : (s.afterBus n es sel).result = s.result := rfl
@[simp] theorem State.afterBus_answers (s : State) (n : Nat) (es : List Event) (sel : Option DevAddr) : (s.afterBus n es sel).answers = s.answers.drop n := rfl
@[simp] theorem State.afterBus_drawn (s : State) (n : Nat) (es : List Event) (sel : Option DevAddr) : (s.afterBus n es sel).drawn = s.drawn + n := rfl
@[simp] theorem State.afterBus_ties (s : State) (n : Nat) (es : List Event) (sel : Option DevAddr) : (s.afterBus n es sel).ties = s.ties := rfl
@[simp] theorem State.afterBus_tiesDrawn (s : State) (n : Nat) (es : List Event) (sel : Option DevAddr) : (s.afterBus n es sel).tiesDrawn = s.tiesDrawn := rfl

/-! ### succeeded -/

@[simp] theorem State.succeeded_devAddr (s : State) (p : Payload) : (s.succeeded p).devAddr = s.devAddr := rfl
@[simp] theorem State.succeeded_phase (s : State) (p : Payload) : (s.succeeded p).phase = s.phase := rfl
@[simp] theorem State.succeeded_mode (s : State) (p : Payload) : (s.succeeded p).mode = s.mode := rfl
@[simp] theorem State.succeeded_calValid (s : State) (p : Payload) : (s.succeeded p).calValid = s.calValid := rfl
@[simp] theorem State.succeeded_cal (s : State) (p : Payload) : (s.succeeded p).cal = s.cal := rfl
@[simp] theorem State.succeeded_lastCfg (s : State) (p : Payload) : (s.succeeded p).lastCfg = s.lastCfg := rfl
@[simp] theorem State.succeeded_trace (s : State) (p : Payload) : (s.succeeded p).trace = s.trace := rfl
@[simp] theorem State.succeeded_tSel (s : State) (p : Payload) : (s.succeeded p).tSel = s.tSel := rfl
@[simp] theorem State.succeeded_refusalMark (s : State) (p : Payload) : (s.succeeded p).refusalMark = s.refusalMark := rfl
@[simp] theorem State.succeeded_params (s : State) (p : Payload) : (s.succeeded p).params = s.params := rfl
@[simp] theorem State.succeeded_hostIn (s : State) (p : Payload) : (s.succeeded p).hostIn = s.hostIn := rfl
@[simp] theorem State.succeeded_frameIn (s : State) (p : Payload) : (s.succeeded p).frameIn = s.frameIn := rfl
@[simp] theorem State.succeeded_result (s : State) (p : Payload) : (s.succeeded p).result = some (.success p) := rfl
@[simp] theorem State.succeeded_answers (s : State) (p : Payload) : (s.succeeded p).answers = s.answers := rfl
@[simp] theorem State.succeeded_drawn (s : State) (p : Payload) : (s.succeeded p).drawn = s.drawn := rfl
@[simp] theorem State.succeeded_ties (s : State) (p : Payload) : (s.succeeded p).ties = s.ties := rfl
@[simp] theorem State.succeeded_tiesDrawn (s : State) (p : Payload) : (s.succeeded p).tiesDrawn = s.tiesDrawn := rfl

/-! ### failed -/

@[simp] theorem State.failed_devAddr (s : State) (e : CmdError) : (s.failed e).devAddr = s.devAddr := rfl
@[simp] theorem State.failed_phase (s : State) (e : CmdError) : (s.failed e).phase = s.phase := rfl
@[simp] theorem State.failed_mode (s : State) (e : CmdError) : (s.failed e).mode = s.mode := rfl
@[simp] theorem State.failed_calValid (s : State) (e : CmdError) : (s.failed e).calValid = s.calValid := rfl
@[simp] theorem State.failed_cal (s : State) (e : CmdError) : (s.failed e).cal = s.cal := rfl
@[simp] theorem State.failed_lastCfg (s : State) (e : CmdError) : (s.failed e).lastCfg = s.lastCfg := rfl
@[simp] theorem State.failed_trace (s : State) (e : CmdError) : (s.failed e).trace = s.trace := rfl
@[simp] theorem State.failed_tSel (s : State) (e : CmdError) : (s.failed e).tSel = s.tSel := rfl
@[simp] theorem State.failed_refusalMark (s : State) (e : CmdError) : (s.failed e).refusalMark = s.refusalMark := rfl
@[simp] theorem State.failed_params (s : State) (e : CmdError) : (s.failed e).params = s.params := rfl
@[simp] theorem State.failed_hostIn (s : State) (e : CmdError) : (s.failed e).hostIn = s.hostIn := rfl
@[simp] theorem State.failed_frameIn (s : State) (e : CmdError) : (s.failed e).frameIn = s.frameIn := rfl
@[simp] theorem State.failed_result (s : State) (e : CmdError) : (s.failed e).result = some (.error e) := rfl
@[simp] theorem State.failed_answers (s : State) (e : CmdError) : (s.failed e).answers = s.answers := rfl
@[simp] theorem State.failed_drawn (s : State) (e : CmdError) : (s.failed e).drawn = s.drawn := rfl
@[simp] theorem State.failed_ties (s : State) (e : CmdError) : (s.failed e).ties = s.ties := rfl
@[simp] theorem State.failed_tiesDrawn (s : State) (e : CmdError) : (s.failed e).tiesDrawn = s.tiesDrawn := rfl

/-! ### refusedWith -/

@[simp] theorem State.refusedWith_devAddr (s : State) (r : RefuseReason) : (s.refusedWith r).devAddr = s.devAddr := rfl
@[simp] theorem State.refusedWith_phase (s : State) (r : RefuseReason) : (s.refusedWith r).phase = s.phase := rfl
@[simp] theorem State.refusedWith_mode (s : State) (r : RefuseReason) : (s.refusedWith r).mode = s.mode := rfl
@[simp] theorem State.refusedWith_calValid (s : State) (r : RefuseReason) : (s.refusedWith r).calValid = s.calValid := rfl
@[simp] theorem State.refusedWith_cal (s : State) (r : RefuseReason) : (s.refusedWith r).cal = s.cal := rfl
@[simp] theorem State.refusedWith_lastCfg (s : State) (r : RefuseReason) : (s.refusedWith r).lastCfg = s.lastCfg := rfl
@[simp] theorem State.refusedWith_trace (s : State) (r : RefuseReason) : (s.refusedWith r).trace = s.trace := rfl
@[simp] theorem State.refusedWith_tSel (s : State) (r : RefuseReason) : (s.refusedWith r).tSel = s.tSel := rfl
@[simp] theorem State.refusedWith_refusalMark (s : State) (r : RefuseReason) : (s.refusedWith r).refusalMark = true := rfl
@[simp] theorem State.refusedWith_params (s : State) (r : RefuseReason) : (s.refusedWith r).params = s.params := rfl
@[simp] theorem State.refusedWith_hostIn (s : State) (r : RefuseReason) : (s.refusedWith r).hostIn = s.hostIn := rfl
@[simp] theorem State.refusedWith_frameIn (s : State) (r : RefuseReason) : (s.refusedWith r).frameIn = s.frameIn := rfl
@[simp] theorem State.refusedWith_result (s : State) (r : RefuseReason) : (s.refusedWith r).result = some (.refused r) := rfl
@[simp] theorem State.refusedWith_answers (s : State) (r : RefuseReason) : (s.refusedWith r).answers = s.answers := rfl
@[simp] theorem State.refusedWith_drawn (s : State) (r : RefuseReason) : (s.refusedWith r).drawn = s.drawn := rfl
@[simp] theorem State.refusedWith_ties (s : State) (r : RefuseReason) : (s.refusedWith r).ties = s.ties := rfl
@[simp] theorem State.refusedWith_tiesDrawn (s : State) (r : RefuseReason) : (s.refusedWith r).tiesDrawn = s.tiesDrawn := rfl

/-! ### The shape of an ended command -/

@[simp] theorem isRefused_success (p : Payload) : (CmdOutcome.success p).isRefused = false := rfl
@[simp] theorem isRefused_error (e : CmdError) : (CmdOutcome.error e).isRefused = false := rfl
@[simp] theorem isRefused_refused (r : RefuseReason) : (CmdOutcome.refused r).isRefused = true := rfl

theorem reply_succeed (p : Payload) (s : State) : reply (succeed p s) = s.succeeded p := by
  simp [reply, succeed, State.succeeded]

theorem reply_raise (e : CmdError) (s : State) : reply (raise e s) = s.failed e := by
  simp [reply, raise, State.failed]

theorem reply_refuse (r : RefuseReason) (s : State) : reply (refuse r s) = s.refusedWith r := by
  simp [reply, refuse, State.refusedWith]

/-- Two stretches of answered calls are one. -/
theorem State.afterBus_afterBus (s : State) (m n : Nat) (es fs : List Event) (a b : Option DevAddr) :
    (s.afterBus m es a).afterBus n fs b = s.afterBus (m + n) (es ++ fs) b := by
  simp [State.afterBus, Nat.add_assoc]

/-- The answers to come after `n` calls. -/
theorem State.upcoming_afterBus (s : State) (n : Nat) (es : List Event) (a : Option DevAddr) (k : Nat) :
    (s.afterBus n es a).upcoming k = s.upcoming (n + k) := by
  simp [State.upcoming, State.afterBus, Nat.add_assoc]

end Sys2Proof.Machine
end

