-- ==== Sys2Proof/Laws/Ops.lean ====
section
/-! SUPPORT. What the transport calls and the register primitives do: each call as one `afterBus`, each primitive's success
and failures (R100 to R108), and one inversion lemma a primitive, from which the whole-machine facts follow. -/

namespace Sys2Proof.Machine

/-! ### The transport calls -/

theorem select_of_ok (s : State) (h : (s.upcoming 0).fails = false) :
    select s = (.ok, s.afterBus 1 [.sel s.devAddr .ok] (some s.devAddr)) := by
  simp [select, selectAnswer, h, State.afterDraw, State.record, State.afterBus]

theorem select_of_fail (s : State) (h : (s.upcoming 0).fails = true) :
    select s = (.fail, s.afterBus 1 [.sel s.devAddr .fail] none) := by
  simp [select, selectAnswer, h, State.afterDraw, State.record, State.afterBus]

theorem txWrite_eq (bs : List Byte) (s : State) :
    txWrite bs s = (writeAnswer bs.length (s.upcoming 0),
      s.afterBus 1 [.w bs (writeAnswer bs.length (s.upcoming 0))] s.tSel) := by
  simp [txWrite, State.afterDraw, State.record, State.afterBus]

theorem txRead_eq (n : Nat) (s : State) :
    txRead n s = (readAnswer n (s.upcoming 0), s.afterBus 1 [.r n (readAnswer n (s.upcoming 0))] s.tSel) := by
  simp [txRead, State.afterDraw, State.record, State.afterBus]

theorem delay_eq (us : Nat) (s : State) : delay us s = s.afterBus 0 [.dly us] s.tSel := by
  simp [delay, State.record, State.afterBus]

/-! ### The primitives, case by case -/

theorem memWrite_closed (reg val : Byte) (s : State) (h : s.phase = .closed) :
    memWrite reg val s = (some .closed, s) := by simp [memWrite, h]

theorem memRead_closed (reg : Byte) (n : Nat) (s : State) (h : s.phase = .closed) :
    memRead reg n s = (.error .closed, s) := by simp [memRead, h]

theorem memWrite_selectFailed (reg val : Byte) (s : State) (hp : s.phase ≠ .closed)
    (h : (s.upcoming 0).fails = true) :
    memWrite reg val s = (some .selectFailed, s.afterBus 1 [.sel s.devAddr .fail] none) := by
  simp [memWrite, hp, select_of_fail s h]

/-- After a successful select, the answer to the frame decides (R103, R104). -/
theorem memWrite_selected (reg val : Byte) (s : State) (hp : s.phase ≠ .closed) (h : (s.upcoming 0).fails = false) :
    memWrite reg val s =
      (if (s.upcoming 1).fails then some .ioFailure else if (s.upcoming 1).count < 2 then some .shortWrite else none,
       s.afterBus 2 [.sel s.devAddr .ok, .w [reg, val] (writeAnswer 2 (s.upcoming 1))] (some s.devAddr)) := by
  simp only [memWrite, hp, if_false, select_of_ok s h, txWrite_eq, State.afterBus_afterBus, State.upcoming_afterBus,
    writeAnswer, List.length_cons, List.length_nil]
  by_cases h1 : (s.upcoming 1).fails = true
  · simp [h1]
  · by_cases h2 : (s.upcoming 1).count < 2 <;> simp [h1, h2] <;> omega

theorem memWrite_goesThrough (reg val : Byte) (s : State) (hp : s.phase ≠ .closed) (h : s.writeGoesThrough 0) :
    memWrite reg val s = (none, s.afterBus 2 (writeEvents s.devAddr reg val) (some s.devAddr)) := by
  obtain ⟨h0, h1, h2⟩ := h
  rw [Nat.zero_add] at h1 h2
  rw [memWrite_selected reg val s hp h0]
  simp [h1, writeEvents, writeAnswer, Nat.not_lt.mpr h2, Nat.min_eq_right h2]

theorem memRead_selectFailed (reg : Byte) (n : Nat) (s : State) (hp : s.phase ≠ .closed)
    (h : (s.upcoming 0).fails = true) :
    memRead reg n s = (.error .selectFailed, s.afterBus 1 [.sel s.devAddr .fail] none) := by
  simp [memRead, hp, select_of_fail s h]

theorem memRead_ioFailure (reg : Byte) (n : Nat) (s : State) (hp : s.phase ≠ .closed)
    (h0 : (s.upcoming 0).fails = false) (h1 : (s.upcoming 1).fails = true) :
    memRead reg n s =
      (.error .ioFailure, s.afterBus 2 [.sel s.devAddr .ok, .w [reg] .fail] (some s.devAddr)) := by
  simp [memRead, hp, select_of_ok s h0, txWrite_eq, State.afterBus_afterBus, State.upcoming_afterBus, writeAnswer, h1]

theorem memRead_shortWrite (reg : Byte) (n : Nat) (s : State) (hp : s.phase ≠ .closed)
    (h0 : (s.upcoming 0).fails = false) (h1 : (s.upcoming 1).fails = false) (h2 : (s.upcoming 1).count = 0) :
    memRead reg n s =
      (.error .shortWrite, s.afterBus 2 [.sel s.devAddr .ok, .w [reg] (.wrote 0)] (some s.devAddr)) := by
  simp [memRead, hp, select_of_ok s h0, txWrite_eq, State.afterBus_afterBus, State.upcoming_afterBus, writeAnswer, h1, h2]

/-- After a successful select and an accepted frame, the answer to the read decides (R103, R105). -/
theorem memRead_addressed (reg : Byte) (n : Nat) (s : State) (hp : s.phase ≠ .closed)
    (h0 : (s.upcoming 0).fails = false) (h1 : (s.upcoming 1).fails = false) (h2 : 1 ≤ (s.upcoming 1).count) :
    memRead reg n s =
      (if (s.upcoming 2).fails then .error .ioFailure
       else if (s.upcoming 2).bytes.length < n then .error .shortRead
       else .ok ((s.upcoming 2).bytes.take n),
       s.afterBus 3 [.sel s.devAddr .ok, .w [reg] (.wrote 1), .r n (readAnswer n (s.upcoming 2))]
         (some s.devAddr)) := by
  have hm : min (s.upcoming 1).count 1 = 1 := Nat.min_eq_right h2
  simp only [memRead, hp, if_false, select_of_ok s h0, txWrite_eq, txRead_eq, State.afterBus_afterBus,
    State.upcoming_afterBus, writeAnswer, readAnswer, List.length_cons, List.length_nil, h1, hm, Bool.false_eq_true,
    Nat.zero_add, List.cons_append, List.nil_append, Nat.reduceAdd]
  by_cases h3 : (s.upcoming 2).fails = true
  · simp [h3]
  · by_cases h4 : (s.upcoming 2).bytes.length < n
    · simp [h3, h4]
    · simp [h3, h4]

theorem memRead_gives (reg : Byte) (n : Nat) (bs : List Byte) (s : State) (hp : s.phase ≠ .closed)
    (h : s.readGives 0 n bs) :
    memRead reg n s = (.ok bs, s.afterBus 3 (readEvents s.devAddr reg n bs) (some s.devAddr)) := by
  obtain ⟨h0, h1, h2, h3, h4, h5⟩ := h
  rw [Nat.zero_add] at h1 h2 h3 h4
  have hl : ¬ (s.upcoming 2).bytes.length < n := by
    rw [← h4, List.length_take] at h5
    omega
  rw [memRead_addressed reg n s hp h0 h1 h2]
  simp [h3, hl, h4, readEvents, readAnswer]

theorem readGives_afterBus {s : State} {k n m : Nat} {es : List Event} {sel : Option DevAddr} {bs : List Byte}
    (h : s.readGives (m + k) n bs) : (s.afterBus m es sel).readGives k n bs := by
  simpa [State.readGives, State.upcoming_afterBus, Nat.add_assoc] using h

theorem writeGoesThrough_afterBus {s : State} {k m : Nat} {es : List Event} {sel : Option DevAddr}
    (h : s.writeGoesThrough (m + k)) : (s.afterBus m es sel).writeGoesThrough k := by
  simpa [State.writeGoesThrough, State.upcoming_afterBus, Nat.add_assoc] using h

/-! ### Every access goes through or fails, and a failure is its cause -/

theorem memWrite_fails {reg val : Byte} {s : State} {f : BusFailure} (hp : s.phase ≠ .closed)
    (h : s.WriteFails 0 reg val f) : memWrite reg val s = (some f.cause, s.afterBus f.calls f.events f.sel) := by
  cases h with
  | select h0 => exact memWrite_selectFailed _ _ _ hp h0
  | frame h0 h1 =>
    rw [Nat.zero_add] at h1
    simp [memWrite_selected _ _ _ hp h0, h1, writeAnswer]
  | short h0 h1 h2 =>
    rw [Nat.zero_add] at h1 h2
    simp [memWrite_selected _ _ _ hp h0, h1, h2, writeAnswer, Nat.min_eq_left (Nat.le_of_lt h2)]

theorem memRead_fails {reg : Byte} {n : Nat} {s : State} {f : BusFailure} (hp : s.phase ≠ .closed)
    (h : s.ReadFails 0 reg n f) : memRead reg n s = (.error f.cause, s.afterBus f.calls f.events f.sel) := by
  cases h with
  | select h0 => exact memRead_selectFailed _ _ _ hp h0
  | address h0 h1 => exact memRead_ioFailure _ _ _ hp h0 (by simpa using h1)
  | shortAddress h0 h1 h2 => exact memRead_shortWrite _ _ _ hp h0 (by simpa using h1) (by simpa using h2)
  | read h0 h1 h2 h3 =>
    rw [Nat.zero_add] at h1 h2 h3
    simp [memRead_addressed _ _ _ hp h0 h1 h2, h3, readAnswer]
  | shortRead h0 h1 h2 h3 h4 =>
    rw [Nat.zero_add] at h1 h2 h3 h4
    simp [memRead_addressed _ _ _ hp h0 h1 h2, h3, h4, readAnswer, List.take_of_length_le (Nat.le_of_lt h4)]

theorem writeFails_afterBus {s : State} {k m : Nat} {es : List Event} {sel : Option DevAddr} {reg val : Byte}
    {f : BusFailure} (h : s.WriteFails (m + k) reg val f) : (s.afterBus m es sel).WriteFails k reg val f := by
  have hu : ∀ j, s.upcoming (m + j) = (s.afterBus m es sel).upcoming j := fun j => by rw [State.upcoming_afterBus]
  cases h with
  | select a => exact .select (hu k ▸ a)
  | frame a b => exact .frame (hu k ▸ a) (hu (k + 1) ▸ b)
  | short a b c =>
    simp only [Nat.add_assoc, hu] at b c ⊢
    exact .short (hu k ▸ a) b c

theorem readFails_afterBus {s : State} {k m : Nat} {es : List Event} {sel : Option DevAddr} {reg : Byte} {n : Nat}
    {f : BusFailure} (h : s.ReadFails (m + k) reg n f) : (s.afterBus m es sel).ReadFails k reg n f := by
  have hu : ∀ j, s.upcoming (m + j) = (s.afterBus m es sel).upcoming j := fun j => by rw [State.upcoming_afterBus]
  cases h with
  | select a => exact .select (hu k ▸ a)
  | address a b => exact .address (hu k ▸ a) (hu (k + 1) ▸ b)
  | shortAddress a b c => exact .shortAddress (hu k ▸ a) (hu (k + 1) ▸ b) (hu (k + 1) ▸ c)
  | read a b c d => exact .read (hu k ▸ a) (hu (k + 1) ▸ b) (hu (k + 1) ▸ c) (hu (k + 2) ▸ d)
  | shortRead a b c d e =>
    simp only [Nat.add_assoc, hu] at b c d e ⊢
    exact .shortRead (hu k ▸ a) b c d e

/-- Nothing lies between: a write goes through or fails in one of the ways of `WriteFails`. -/
theorem write_goesThrough_or_fails (s : State) (k : Nat) (reg val : Byte) :
    s.writeGoesThrough k ∨ ∃ f, s.WriteFails k reg val f := by
  cases h0 : (s.upcoming k).fails
  · cases h1 : (s.upcoming (k + 1)).fails
    · rcases Nat.lt_or_ge (s.upcoming (k + 1)).count 2 with h2 | h2
      · exact .inr ⟨_, .short h0 h1 h2⟩
      · exact .inl ⟨h0, h1, h2⟩
    · exact .inr ⟨_, .frame h0 h1⟩
  · exact .inr ⟨_, .select h0⟩

/-- Nothing lies between: a read gives its bytes or fails in one of the ways of `ReadFails`. -/
theorem read_gives_or_fails (s : State) (k : Nat) (reg : Byte) (n : Nat) :
    (∃ bs, s.readGives k n bs) ∨ ∃ f, s.ReadFails k reg n f := by
  cases h0 : (s.upcoming k).fails
  · cases h1 : (s.upcoming (k + 1)).fails
    · rcases Nat.eq_zero_or_pos (s.upcoming (k + 1)).count with h2 | h2
      · exact .inr ⟨_, .shortAddress h0 h1 h2⟩
      · cases h3 : (s.upcoming (k + 2)).fails
        · rcases Nat.lt_or_ge (s.upcoming (k + 2)).bytes.length n with h4 | h4
          · exact .inr ⟨_, .shortRead h0 h1 h2 h3 h4⟩
          · exact .inl ⟨_, h0, h1, h2, h3, rfl, by simp [h4]⟩
        · exact .inr ⟨_, .read h0 h1 h2 h3⟩
    · exact .inr ⟨_, .address h0 h1⟩
  · exact .inr ⟨_, .select h0⟩

/-! ### Event sequences -/

@[simp] theorem framesOf_append (es fs : List Event) : framesOf (es ++ fs) = framesOf es ++ framesOf fs := by
  induction es using framesOf.induct <;> simp_all [framesOf]

/-- Events accepted anywhere may follow any accepted events. -/
theorem framed_append (a : DevAddr) (pos : BusPos) (es fs : List Event) (h : framed a pos es = true)
    (hf : ∀ p, framed a p fs = true) : framed a pos (es ++ fs) = true := by
  induction pos, es using framed.induct <;> simp_all [framed]

/-- What a stretch of the block's own transport calls can do to the state: it answers some calls, appends an accepted
event sequence whose write frames are `fs`, and leaves `T.sel` as it was, unknown, or at the block's own address. -/
def BusRun (s t : State) (fs : List (List Byte)) : Prop :=
  ∃ n es sel, t = s.afterBus n es sel ∧ (sel = s.tSel ∨ sel = none ∨ sel = some s.devAddr) ∧
    (∀ p, framed s.devAddr p es = true) ∧ framesOf es = fs

theorem BusRun.refl (s : State) : BusRun s s [] :=
  ⟨0, [], s.tSel, by simp [State.afterBus], .inl rfl, fun p => by cases p <;> rfl, rfl⟩

theorem BusRun.trans {s t u : State} {fs gs : List (List Byte)} (h : BusRun s t fs) (k : BusRun t u gs) :
    BusRun s u (fs ++ gs) := by
  obtain ⟨m, es, a, rfl, ha, he, rfl⟩ := h
  obtain ⟨n, es', b, rfl, hb, he', rfl⟩ := k
  refine ⟨m + n, es ++ es', b, State.afterBus_afterBus .., ?_, fun p => framed_append _ _ _ _ (he p) he', by simp⟩
  rcases hb with rfl | rfl | rfl <;> simp_all

/-- Transport calls touch nothing but the trace, `T.sel` and the oracle's position (R104, R105). -/
theorem BusRun.frame {s t : State} {fs : List (List Byte)} (h : BusRun s t fs) :
    t = { s with answers := t.answers, drawn := t.drawn, trace := t.trace, tSel := t.tSel } := by
  obtain ⟨_, _, _, rfl, -⟩ := h
  rfl

theorem BusRun.trace_append {s t : State} {fs : List (List Byte)} (h : BusRun s t fs) :
    ∃ es, t.trace = s.trace ++ es ∧ (∀ p, framed s.devAddr p es = true) ∧ framesOf es = fs := by
  obtain ⟨_, es, _, rfl, -, he, hf⟩ := h
  exact ⟨es, rfl, he, hf⟩

theorem BusRun.tSel_own {s t : State} {fs : List (List Byte)} (h : BusRun s t fs)
    (hs : s.tSel = none ∨ s.tSel = some s.devAddr) : t.tSel = none ∨ t.tSel = some t.devAddr := by
  obtain ⟨_, _, sel, rfl, hsel, -⟩ := h
  rcases hsel with rfl | rfl | rfl <;> simp [hs]

/-- A register write either goes through whole or stops at a cause, on the bus all the while with at most its one frame. -/
theorem memWrite_run {reg val : Byte} {s t : State} {r : Option BusCause} (h : memWrite reg val s = (r, t)) :
    ∃ fs, BusRun s t fs ∧ fs <+: [[reg, val]] ∧ (r = none → fs = [[reg, val]] ∧ s.phase ≠ .closed) := by
  by_cases hp : s.phase = .closed
  · rw [memWrite_closed _ _ _ hp] at h
    cases h
    exact ⟨[], BusRun.refl s, by simp, by simp⟩
  by_cases h0 : (s.upcoming 0).fails = true
  · rw [memWrite_selectFailed _ _ _ hp h0] at h
    cases h
    exact ⟨[], ⟨1, _, _, rfl, by simp, fun p => by cases p <;> simp [framed], rfl⟩, by simp, by simp⟩
  · rw [memWrite_selected _ _ _ hp (by simpa using h0)] at h
    cases h
    refine ⟨[[reg, val]], ⟨2, _, _, rfl, by simp, fun p => ?_, rfl⟩, by simp, by simp [hp]⟩
    cases p <;> by_cases h1 : (s.upcoming 1).fails = true <;> simp [framed, writeAnswer, h1]

/-- A register read either goes through whole or stops at a cause, on the bus all the while with at most its one frame; the
bytes it gives are as many as asked. -/
theorem memRead_run {reg : Byte} {n : Nat} {s t : State} {r : Except BusCause (List Byte)}
    (h : memRead reg n s = (r, t)) :
    ∃ fs, BusRun s t fs ∧ fs <+: [[reg]] ∧ ∀ bs, r = .ok bs → fs = [[reg]] ∧ bs.length = n ∧ s.phase ≠ .closed := by
  by_cases hp : s.phase = .closed
  · rw [memRead_closed _ _ _ hp] at h
    cases h
    exact ⟨[], BusRun.refl s, by simp, by simp⟩
  by_cases h0 : (s.upcoming 0).fails = true
  · rw [memRead_selectFailed _ _ _ hp h0] at h
    cases h
    exact ⟨[], ⟨1, _, _, rfl, by simp, fun p => by cases p <;> simp [framed], rfl⟩, by simp, by simp⟩
  have h0' : (s.upcoming 0).fails = false := by simpa using h0
  by_cases h1 : (s.upcoming 1).fails = true
  · rw [memRead_ioFailure _ _ _ hp h0' h1] at h
    cases h
    exact ⟨[[reg]], ⟨2, _, _, rfl, by simp, fun p => by cases p <;> simp [framed], rfl⟩, by simp, by simp⟩
  have h1' : (s.upcoming 1).fails = false := by simpa using h1
  by_cases h2 : (s.upcoming 1).count = 0
  · rw [memRead_shortWrite _ _ _ hp h0' h1' h2] at h
    cases h
    exact ⟨[[reg]], ⟨2, _, _, rfl, by simp, fun p => by cases p <;> simp [framed], rfl⟩, by simp, by simp⟩
  · rw [memRead_addressed _ _ _ hp h0' h1' (by omega)] at h
    cases h
    refine ⟨[[reg]], ⟨3, _, _, rfl, by simp, fun p => ?_, rfl⟩, by simp, fun bs hb => ⟨rfl, ?_, hp⟩⟩
    · cases p <;> by_cases h3 : (s.upcoming 2).fails = true <;> simp [framed, readAnswer, h3]
    · split at hb
      · cases hb
      · split at hb
        · cases hb
        · cases hb
          simp
          omega

end Sys2Proof.Machine
end

