-- ==== Sys2Proof/Laws/Commands.lean ====
section
/-! SUPPORT. What each command can do: one inversion lemma a command ("if it ends with `o` at `t`, then one of these cases
holds"), from which the whole-machine facts follow without unfolding the command again. -/

namespace Sys2Proof.Machine

/-! ### Every instruction is a command whose outcome is returned -/

/-- The outcome and the state of an instruction before the outcome is returned. -/
def cmdOf : Instr → State → CmdOutcome × State
  | .writeReg reg val, s => writeCmd reg val s
  | .readRegs reg count, s => readRegsCmd reg count s
  | .decodeTp b, s => succeed (.tp (decodeTpFields b)) s
  | .decodeH c h1, s => succeed (.hu (decodeHFields s.params.h45SignExtend c h1)) s
  | .unpackRaw d, s => succeed (.raw (unpackRaw d).praw (unpackRaw d).traw (unpackRaw d).hraw) s
  | .compT traw cal, s => compTCmd traw cal s
  | .compP praw tfine cal, s => compPCmd praw tfine cal s
  | .compH hraw tfine cal, s => succeed (.humid (compH hraw tfine (decodeCal s.params cal).hu)) s
  | .clamp t p h flag, s => succeed (.meas (clampMeas s.params { t := t, p := p, h := h } (flagSet flag))) s
  | .compensate praw traw hraw cal, s => compensateCmd praw traw hraw cal s
  | .validateCfg c, s => withValidCfg c s fun _ => .none
  | .encCtrlHum c, s => withValidCfg c s fun c => .regVal (ctrlHumOf c)
  | .encCtrlMeas c, s => withValidCfg c s fun c => .regVal (ctrlMeasOf c)
  | .encConfig c, s => withValidCfg c s fun c => .regVal (configOf s.params.configLayout c)
  | .durTypical c, s => withValidCfg c s fun c => .duration (BitVec.ofNat 64 (typicalUs c))
  | .durMax c, s => withValidCfg c s fun c => .duration (BitVec.ofNat 64 (maximumUs c))
  | .durCycle c, s => withValidCfg c s fun c => .duration (BitVec.ofNat 64 (cycleUs c))
  | .nearestStandby req, s => nearestStandbyCmd req.toInt s
  | .init, s => initCmd s
  | .configure c, s => configureCmd c s
  | .softReset, s => softResetCmd s
  | .readMeas, s => readMeasCmd s
  | .close, s => succeed .none { s with phase := .closed, mode := .none }
  | .rdId, s => readCmd Reg.identity 1 s
  | .rdCal1, s => readCmd Reg.calBlock1 24 s
  | .rdCal2, s => readCmd Reg.calBlock2 8 s
  | .rdCalH1, s => readCmd Reg.calH1 1 s
  | .rdData, s => readCmd Reg.data 8 s
  | .wrCtrlHum val, s => writeCmd Reg.ctrlHum val s
  | .wrCtrlMeas val, s => writeCmd Reg.ctrlMeas val s
  | .wrConfig val, s => writeCmd Reg.config val s
  | .wrReset, s => writeCmd Reg.softReset resetCmd s

theorem exec_eq_reply (i : Instr) (s : State) : exec i s = .next (reply (cmdOf i s)) := by
  cases i <;> rfl

/-- The only outcome of `exec` is a next state, the reply to some outcome of the command. -/
theorem exec_next_cases {i : Instr} {s t : State} (h : exec i s = .next t) :
    ∃ o u, cmdOf i s = (o, u) ∧ t = reply (o, u) := by
  rw [exec_eq_reply] at h
  cases h
  exact ⟨(cmdOf i s).1, (cmdOf i s).2, rfl, rfl⟩

/-! ### Single register accesses -/

/-- The parts of a cal operand: its first 24 bytes by R121, its last 9 by R122 (R61). -/
@[simp] theorem decodeCal_tp (p : Config.Params) (c : CalOperand) : (decodeCal p c).tp = decodeTpFields c.blk24 := rfl
@[simp] theorem decodeCal_hu (p : Config.Params) (c : CalOperand) :
    (decodeCal p c).hu = decodeHFields p.h45SignExtend c.blk8 c.h1 := rfl

theorem cmdOf_of_writeOf {i : Instr} {reg val : Byte} (h : writeOf i = some (reg, val)) (s : State) :
    cmdOf i s = writeCmd reg val s := by
  cases i <;> simp only [writeOf, Option.some.injEq, Prod.mk.injEq, reduceCtorEq] at h <;> obtain ⟨rfl, rfl⟩ := h <;> rfl

theorem cmdOf_of_readOf {i : Instr} {reg : Byte} {n : Nat} (h : readOf i = some (reg, n)) (s : State)
    (hp : s.phase ≠ .closed) : cmdOf i s = readCmd reg n s := by
  cases i <;> simp only [readOf, Option.some.injEq, Prod.mk.injEq, reduceCtorEq, Option.ite_none_right_eq_some] at h
  case readRegs =>
    obtain ⟨⟨h1, h2⟩, rfl, rfl⟩ := h
    simp [cmdOf, readRegsCmd, hp, burstInDomain, h1, h2]
  all_goals
    obtain ⟨rfl, rfl⟩ := h
    rfl

theorem writeCmd_cases {reg val : Byte} {s t : State} {o : CmdOutcome} (h : writeCmd reg val s = (o, t)) :
    ∃ fs, BusRun s t fs ∧ fs <+: [[reg, val]] ∧ (o = .success .none ∨ ∃ c, o = .error (.busError c)) := by
  unfold writeCmd at h
  split at h
  case h_1 c s1 hm =>
    obtain ⟨fs, hb, hf, -⟩ := memWrite_run hm
    cases h
    exact ⟨fs, hb, hf, .inr ⟨c, rfl⟩⟩
  case h_2 s1 hm =>
    obtain ⟨fs, hb, hf, -⟩ := memWrite_run hm
    cases h
    exact ⟨fs, hb, hf, .inl rfl⟩

theorem readCmd_cases {reg : Byte} {n : Nat} {s t : State} {o : CmdOutcome} (h : readCmd reg n s = (o, t)) :
    ∃ fs, BusRun s t fs ∧ fs <+: [[reg]] ∧
      ((∃ bs, o = .success (.bytes bs) ∧ bs.length = n) ∨ ∃ c, o = .error (.busError c)) := by
  unfold readCmd at h
  split at h
  case h_1 c s1 hm =>
    obtain ⟨fs, hb, hf, -⟩ := memRead_run hm
    cases h
    exact ⟨fs, hb, hf, .inr ⟨c, rfl⟩⟩
  case h_2 bs s1 hm =>
    obtain ⟨fs, hb, hf, hbs⟩ := memRead_run hm
    cases h
    exact ⟨fs, hb, hf, .inl ⟨bs, rfl, (hbs bs rfl).2.1⟩⟩

theorem readRegsCmd_cases {reg count : Byte} {s t : State} {o : CmdOutcome} (h : readRegsCmd reg count s = (o, t)) :
    (∃ fs, BusRun s t fs ∧ fs <+: [[reg]] ∧
      ((∃ bs, o = .success (.bytes bs)) ∨ ∃ c, o = .error (.busError c))) ∨
    (o = .refused .badBurst ∧ t = s) := by
  unfold readRegsCmd at h
  split at h
  · cases h
    exact .inl ⟨[], BusRun.refl s, by simp, .inr ⟨_, rfl⟩⟩
  · split at h
    · obtain ⟨fs, hb, hf, ho⟩ := readCmd_cases h
      exact .inl ⟨fs, hb, hf, ho.imp (fun ⟨bs, e, _⟩ => ⟨bs, e⟩) id⟩
    · cases h
      exact .inr ⟨rfl, rfl⟩

/-! ### Datapath commands -/

theorem validate_of_valid {c : Cfg} (h1 : c.osrsH.toNat ≤ 7) (h2 : c.osrsP.toNat ≤ 7) (h3 : c.osrsT.toNat ≤ 7)
    (h4 : c.mode = 0 ∨ c.mode = 1 ∨ c.mode = 3) (h5 : c.filter.toNat ≤ 7) (h6 : c.tSb.toNat ≤ 7) :
    validate c = none := by
  rcases h4 with h4 | h4 | h4 <;> simp [validate, fits3, modeDefined, *]

theorem withValidCfg_of_valid {c : Cfg} (s : State) (f : Cfg → Payload) (h : validate c = none) :
    withValidCfg c s f = succeed (f c) s := by simp [withValidCfg, h]

theorem withValidCfg_of_invalid {c : Cfg} {e : CmdError} (s : State) (f : Cfg → Payload) (h : validate c = some e) :
    withValidCfg c s f = raise e s := by simp [withValidCfg, h]

theorem nearestStandbyCmd_cases {req : Int} {s t : State} {o : CmdOutcome} (h : nearestStandbyCmd req s = (o, t)) :
    (∃ c, o = .success (.standby c)) ∧ (t = s ∨ t = s.afterTie) := by
  unfold nearestStandbyCmd at h
  split at h <;> cases h
  · exact ⟨⟨_, rfl⟩, .inl rfl⟩
  · exact ⟨⟨_, rfl⟩, .inr rfl⟩

/-- A datapath command leaves the state alone; a tie uses up one tie choice (R211). -/
theorem datapath_cases {i : Instr} {s t : State} {o : CmdOutcome} (hi : isDatapath i = true)
    (h : cmdOf i s = (o, t)) : t = s ∨ ((∃ r, i = .nearestStandby r) ∧ t = s.afterTie) := by
  have hv : ∀ c f, withValidCfg c s f = (o, t) → t = s := by
    intro c f hw
    unfold withValidCfg at hw
    split at hw <;> cases hw <;> rfl
  cases i <;> simp only [isDatapath, Bool.false_eq_true] at hi <;> simp only [cmdOf] at h
  case compT => unfold compTCmd at h; split at h <;> cases h <;> exact .inl rfl
  case compP => unfold compPCmd at h; split at h <;> cases h <;> exact .inl rfl
  case compensate => unfold compensateCmd at h; split at h <;> cases h <;> exact .inl rfl
  case nearestStandby r =>
    exact (nearestStandbyCmd_cases h).2.imp id fun e => ⟨⟨r, rfl⟩, e⟩
  all_goals first
    | exact .inl (hv _ _ h)
    | (cases h; exact .inl rfl)

/-! ### INIT -/

theorem loadCal_cases {s t : State} {r : Option BusCause} (h : loadCal s = (r, t)) :
    (∃ c fs, r = some c ∧ BusRun s t fs ∧ fs <+: [[0x88], [0xE1], [0xA1]]) ∨
    (r = none ∧ ∃ u k, BusRun s u [[0x88], [0xE1], [0xA1]] ∧ t = { u with cal := k, calValid := true }) := by
  unfold loadCal at h
  split at h
  case h_1 c s1 h1 =>
    obtain ⟨fs, hb, hf, -⟩ := memRead_run h1
    cases h
    exact .inl ⟨c, fs, rfl, hb, hf.trans ⟨_, rfl⟩⟩
  case h_2 b s1 h1 =>
    obtain ⟨fs1, hb1, -, hf1⟩ := memRead_run h1
    obtain ⟨rfl, -, -⟩ := hf1 b rfl
    split at h
    case h_1 c s2 h2 =>
      obtain ⟨fs, hb, hf, -⟩ := memRead_run h2
      cases h
      refine .inl ⟨c, _, rfl, hb1.trans hb, ?_⟩
      exact ((List.prefix_append_right_inj _).mpr hf).trans ⟨[[0xA1]], rfl⟩
    case h_2 c s2 h2 =>
      obtain ⟨fs2, hb2, -, hf2⟩ := memRead_run h2
      obtain ⟨rfl, -, -⟩ := hf2 c rfl
      split at h
      case h_1 e s3 h3 =>
        obtain ⟨fs, hb, hf, -⟩ := memRead_run h3
        cases h
        exact .inl ⟨e, _, rfl, (hb1.trans hb2).trans hb, (List.prefix_append_right_inj _).mpr hf⟩
      case h_2 d s3 h3 =>
        obtain ⟨fs3, hb3, -, hf3⟩ := memRead_run h3
        obtain ⟨rfl, -, -⟩ := hf3 d rfl
        cases h
        exact .inr ⟨rfl, s3, _, (hb1.trans hb2).trans hb3, rfl⟩

theorem initCmd_cases {s t : State} {o : CmdOutcome} (h : initCmd s = (o, t)) :
    (∃ e fs, o = .error e ∧ BusRun s t fs ∧ fs <+: [[0xD0], [0x88], [0xE1], [0xA1]]) ∨
    (o = .success .none ∧ s.phase ≠ .closed ∧ ∃ u k, BusRun s u [[0xD0], [0x88], [0xE1], [0xA1]] ∧
      t = { u with cal := k, calValid := true, phase := if s.phase = .uninit then .ready else s.phase }) := by
  unfold initCmd at h
  split at h
  case h_1 c s1 h1 =>
    obtain ⟨fs, hb, hf, -⟩ := memRead_run h1
    cases h
    exact .inl ⟨_, fs, rfl, hb, hf.trans ⟨_, rfl⟩⟩
  case h_2 id s1 h1 =>
    obtain ⟨fs1, hb1, -, hf1⟩ := memRead_run h1
    obtain ⟨rfl, -, hp⟩ := hf1 id rfl
    split at h
    · cases h
      exact .inl ⟨_, _, rfl, hb1, ⟨_, rfl⟩⟩
    · split at h
      case h_1 c s2 h2 =>
        rcases loadCal_cases h2 with ⟨c', fs, -, hb, hf⟩ | ⟨hr, -⟩
        · cases h
          exact .inl ⟨_, _, rfl, hb1.trans hb, (List.prefix_append_right_inj _).mpr hf⟩
        · cases hr
      case h_2 s2 h2 =>
        rcases loadCal_cases h2 with ⟨c', fs, hr, -, -⟩ | ⟨-, u, k, hb, rfl⟩
        · cases hr
        · cases h
          have hph : u.phase = s.phase := by
            obtain ⟨_, _, _, rfl, -⟩ := hb1
            obtain ⟨_, _, _, rfl, -⟩ := hb
            rfl
          refine .inr ⟨rfl, hp, u, k, hb1.trans hb, ?_⟩
          simp [hph]

/-! ### CONFIGURE -/

theorem configureWrites_cases {hum meas conf : Byte} {s t : State} {r : Option BusCause}
    (h : configureWrites hum meas conf s = (r, t)) :
    ∃ fs, BusRun s t fs ∧ fs <+: [[0xF2, hum], [0xF4, meas], [0xF5, conf]] ∧
      (r = none → fs = [[0xF2, hum], [0xF4, meas], [0xF5, conf]]) := by
  unfold configureWrites at h
  split at h
  case h_1 c s1 h1 =>
    obtain ⟨fs, hb, hf, -⟩ := memWrite_run h1
    cases h
    exact ⟨fs, hb, hf.trans ⟨_, rfl⟩, by simp⟩
  case h_2 s1 h1 =>
    obtain ⟨fs1, hb1, -, hf1⟩ := memWrite_run h1
    obtain ⟨rfl, -⟩ := hf1 rfl
    split at h
    case h_1 c s2 h2 =>
      obtain ⟨fs, hb, hf, -⟩ := memWrite_run h2
      cases h
      exact ⟨_, hb1.trans hb, ((List.prefix_append_right_inj _).mpr hf).trans ⟨[[0xF5, conf]], rfl⟩, by simp⟩
    case h_2 s2 h2 =>
      obtain ⟨fs2, hb2, -, hf2⟩ := memWrite_run h2
      obtain ⟨rfl, -⟩ := hf2 rfl
      obtain ⟨fs3, hb3, hp3, hf3⟩ := memWrite_run h
      refine ⟨_, (hb1.trans hb2).trans hb3, (List.prefix_append_right_inj _).mpr hp3, fun hr => ?_⟩
      rw [(hf3 hr).1]
      rfl

/-- The write frames of `CONFIGURE c`. -/
def configureFrames (layout : Config.ConfigLayout) (c : Cfg) : List (List Byte) :=
  [[0xF2, ctrlHumOf c], [0xF4, ctrlMeasOf c], [0xF5, configOf layout c]]

theorem configureCmd_cases {c : Cfg} {s t : State} {o : CmdOutcome} (h : configureCmd c s = (o, t)) :
    (∃ e fs, o = .error e ∧ BusRun s t fs ∧ fs <+: configureFrames s.params.configLayout c) ∨
    (o = .refused .notInitialized ∧ t = s ∧ s.phase = .uninit) ∨
    (o = .success .none ∧ cfgAccepted c = true ∧ (s.phase = .ready ∨ s.phase = .configured) ∧
      ∃ u, BusRun s u (configureFrames s.params.configLayout c) ∧ t = u.configuredAs c) := by
  unfold configureCmd at h
  split at h
  · cases h
    exact .inl ⟨_, [], rfl, BusRun.refl s, by simp⟩
  · split at h
    · cases h
      exact .inr (.inl ⟨rfl, rfl, ‹_›⟩)
    · split at h
      case h_1 e _ =>
        cases h
        exact .inl ⟨_, [], rfl, BusRun.refl s, by simp⟩
      case h_2 hv =>
        split at h
        case h_1 e s1 hw =>
          obtain ⟨fs, hb, hf, -⟩ := configureWrites_cases hw
          cases h
          exact .inl ⟨_, fs, rfl, hb, hf⟩
        case h_2 s1 hw =>
          obtain ⟨fs, hb, -, hf⟩ := configureWrites_cases hw
          obtain rfl := hf rfl
          cases h
          refine .inr (.inr ⟨rfl, by simp [cfgAccepted, hv], ?_, s1, hb, rfl⟩)
          cases hs : s.phase <;> simp_all

/-! ### SOFT_RESET -/

theorem softResetCmd_cases {s t : State} {o : CmdOutcome} (h : softResetCmd s = (o, t)) :
    (∃ c fs, o = .error (.busError c) ∧ BusRun s t fs ∧ fs <+: [[0xE0, 0xB6]]) ∨
    (s.phase ≠ .closed ∧ ∃ u, BusRun s u [[0xE0, 0xB6]] ∧ reapplyAfterReset u.afterSoftReset = (o, t)) := by
  unfold softResetCmd at h
  split at h
  case h_1 c s1 hm =>
    obtain ⟨fs, hb, hf, -⟩ := memWrite_run hm
    cases h
    exact .inl ⟨c, fs, rfl, hb, hf⟩
  case h_2 s1 hm =>
    obtain ⟨fs, -, -, hok⟩ := memWrite_run hm
    have hp := (hok rfl).2
    refine .inr ⟨hp, _, ?_, h⟩
    by_cases h0 : (s.upcoming 0).fails = true
    · rw [memWrite_selectFailed _ _ _ hp h0] at hm
      cases hm
    · rw [memWrite_selected _ _ _ hp (by simpa using h0)] at hm
      simp only [Prod.mk.injEq] at hm
      obtain ⟨hr, rfl⟩ := hm
      rw [delay_eq, State.afterBus_afterBus]
      refine ⟨_, _, _, rfl, by simp, fun p => ?_, rfl⟩
      cases p <;> by_cases h1 : (s.upcoming 1).fails = true <;> simp [framed, writeAnswer, h1]

theorem reapplyAfterReset_cases {s t : State} {o : CmdOutcome} (h : reapplyAfterReset s = (o, t)) :
    (o = .success .none ∧ t = s ∧
      (s.params.resetReappliesConfig = false ∨ s.calValid = false ∨ s.lastCfg = none)) ∨
    (∃ c, s.lastCfg = some c ∧ s.params.resetReappliesConfig = true ∧ s.calValid = true ∧
      configureCmd c s = (o, t)) := by
  unfold reapplyAfterReset at h
  split at h
  case h_1 c hc =>
    split at h
    case isTrue hcond => exact .inr ⟨c, hc, by simp_all, by simp_all, h⟩
    case isFalse hcond =>
      cases h
      refine .inl ⟨rfl, rfl, ?_⟩
      cases hr : s.params.resetReappliesConfig <;> simp_all
  case h_2 hc =>
    cases h
    exact .inl ⟨rfl, rfl, .inr (.inr hc)⟩

/-! ### READ_MEAS -/

theorem readMeasCmd_cases {s t : State} {o : CmdOutcome} (h : readMeasCmd s = (o, t)) :
    (∃ c fs, o = .error (.busError c) ∧ BusRun s t fs ∧ fs <+: [[0xF7]]) ∨
    (∃ r, o = .refused r ∧ t = s) ∨
    (s.calValid = true ∧ (s.phase = .ready ∨ s.phase = .configured) ∧
      ∃ u m, BusRun s u [[0xF7]] ∧ o = .success (.meas m) ∧ t = u.afterRead) := by
  unfold readMeasCmd at h
  split at h
  · cases h
    exact .inl ⟨_, [], rfl, BusRun.refl s, by simp⟩
  · split at h
    · cases h
      exact .inr (.inl ⟨_, rfl, rfl⟩)
    · split at h
      · cases h
        exact .inr (.inl ⟨_, rfl, rfl⟩)
      · split at h
        case h_1 c s1 hm =>
          obtain ⟨fs, hb, hf, -⟩ := memRead_run hm
          cases h
          exact .inl ⟨c, fs, rfl, hb, hf⟩
        case h_2 d s1 hm =>
          obtain ⟨fs, hb, -, hf⟩ := memRead_run hm
          obtain ⟨rfl, -, -⟩ := hf d rfl
          cases h
          refine .inr (.inr ⟨by simp_all, ?_, s1, _, hb, rfl, rfl⟩)
          cases hs : s.phase <;> simp_all

/-! ### All instructions at once -/

/-- Everything an instruction can do before its outcome is returned. -/
inductive CmdEffect (i : Instr) (s : State) : CmdOutcome → State → Prop
  /-- A refusal: nothing is written (R232). -/
  | refused (r : RefuseReason) : CmdEffect i s (.refused r) s
  /-- An error: at most transport calls were made (R239). -/
  | failed (e : CmdError) (t : State) (fs : List (List Byte)) (hb : BusRun s t fs) : CmdEffect i s (.error e) t
  /-- A single register access. -/
  | accessed (p : Payload) (t : State) (fs : List (List Byte)) (hb : BusRun s t fs) (hd : isDatapath i = false) :
      CmdEffect i s (.success p) t
  /-- A datapath value. -/
  | computed (p : Payload) (hd : isDatapath i = true) : CmdEffect i s (.success p) s
  /-- A tie of NEAREST_STANDBY. -/
  | tied (p : Payload) (r : BitVec 64) (hi : i = .nearestStandby r) : CmdEffect i s (.success p) s.afterTie
  | initialised (hi : i = .init) (hp : s.phase ≠ .closed) (u : State) (k : Cal)
      (hb : BusRun s u [[0xD0], [0x88], [0xE1], [0xA1]]) :
      CmdEffect i s (.success .none)
        { u with cal := k, calValid := true, phase := if s.phase = .uninit then .ready else s.phase }
  | configured (c : Cfg) (hi : i = .configure c) (hv : cfgAccepted c = true)
      (hp : s.phase = .ready ∨ s.phase = .configured) (u : State)
      (hb : BusRun s u (configureFrames s.params.configLayout c)) :
      CmdEffect i s (.success .none) (u.configuredAs c)
  | reset (hi : i = .softReset) (hp : s.phase ≠ .closed) (u : State) (hb : BusRun s u [[0xE0, 0xB6]]) :
      CmdEffect i s (.success .none) u.afterSoftReset
  | resetThenFailed (hi : i = .softReset) (hp : s.phase ≠ .closed) (hr : s.params.resetReappliesConfig = true)
      (hc : s.calValid = true) (u : State) (hb : BusRun s u [[0xE0, 0xB6]]) (e : CmdError) (t : State)
      (fs : List (List Byte)) (ht : BusRun u.afterSoftReset t fs) : CmdEffect i s (.error e) t
  | resetThenConfigured (hi : i = .softReset) (hp : s.phase ≠ .closed) (hr : s.params.resetReappliesConfig = true)
      (hc : s.calValid = true) (u : State) (hb : BusRun s u [[0xE0, 0xB6]]) (c : Cfg) (hl : s.lastCfg = some c)
      (hv : cfgAccepted c = true) (t : State) (fs : List (List Byte)) (ht : BusRun u.afterSoftReset t fs) :
      CmdEffect i s (.success .none) (t.configuredAs c)
  | measured (hi : i = .readMeas) (hc : s.calValid = true) (hp : s.phase = .ready ∨ s.phase = .configured) (u : State)
      (m : Meas) (hb : BusRun s u [[0xF7]]) : CmdEffect i s (.success (.meas m)) u.afterRead
  | closed (hi : i = .close) : CmdEffect i s (.success .none) { s with phase := .closed, mode := .none }

theorem CmdEffect.of_access {i : Instr} {s t : State} {o : CmdOutcome} {fs : List (List Byte)}
    (hd : isDatapath i = false) (hb : BusRun s t fs) (ho : (∃ p, o = .success p) ∨ ∃ e, o = .error e) :
    CmdEffect i s o t := by
  rcases ho with ⟨p, rfl⟩ | ⟨e, rfl⟩
  · exact .accessed p t fs hb hd
  · exact .failed e t fs hb

theorem datapath_effect {i : Instr} {s t : State} {o : CmdOutcome} (hi : isDatapath i = true)
    (h : cmdOf i s = (o, t)) : CmdEffect i s o t := by
  rcases datapath_cases hi h with rfl | ⟨⟨r, rfl⟩, rfl⟩
  · cases o with
    | success p => exact .computed p hi
    | error e => exact .failed e _ [] (BusRun.refl _)
    | refused r => exact .refused r
  · obtain ⟨⟨c, rfl⟩, -⟩ := nearestStandbyCmd_cases h
    exact .tied _ r rfl

theorem softReset_effect {s t : State} {o : CmdOutcome} (h : softResetCmd s = (o, t)) : CmdEffect .softReset s o t := by
  rcases softResetCmd_cases h with ⟨c, fs, rfl, hb, -⟩ | ⟨hp, u, hb, hr⟩
  · exact .failed _ _ fs hb
  obtain ⟨n, es, sel, rfl, -⟩ := id hb
  rcases reapplyAfterReset_cases hr with ⟨rfl, rfl, -⟩ | ⟨c, hl, hre, hc, hcfg⟩
  · exact .reset rfl hp _ hb
  rcases configureCmd_cases hcfg with ⟨e, fs, rfl, ht, -⟩ | ⟨-, -, hu⟩ | ⟨rfl, hv, -, v, ht, rfl⟩
  · exact .resetThenFailed rfl hp hre hc _ hb e t fs ht
  · simp_all
  · exact .resetThenConfigured rfl hp hre hc _ hb c hl hv v _ ht

/-- The one inversion lemma of the instruction set. -/
theorem cmd_effect {i : Instr} {s t : State} {o : CmdOutcome} (h : cmdOf i s = (o, t)) : CmdEffect i s o t := by
  have hw : ∀ {reg val : Byte}, isDatapath i = false → writeCmd reg val s = (o, t) → CmdEffect i s o t := by
    intro reg val hd hc
    obtain ⟨fs, hb, -, ho⟩ := writeCmd_cases hc
    exact .of_access hd hb (ho.imp (fun e => ⟨_, e⟩) fun ⟨_, e⟩ => ⟨_, e⟩)
  have hr : ∀ {reg : Byte} {n : Nat}, isDatapath i = false → readCmd reg n s = (o, t) → CmdEffect i s o t := by
    intro reg n hd hc
    obtain ⟨fs, hb, -, ho⟩ := readCmd_cases hc
    exact .of_access hd hb (ho.imp (fun ⟨_, e, _⟩ => ⟨_, e⟩) fun ⟨_, e⟩ => ⟨_, e⟩)
  by_cases hd : isDatapath i = true
  · exact datapath_effect hd h
  have hd' : isDatapath i = false := by simpa using hd
  cases i <;> simp only [isDatapath, not_true_eq_false] at hd <;> simp only [cmdOf] at h
  case readRegs =>
    rcases readRegsCmd_cases h with ⟨fs, hb, -, ho⟩ | ⟨rfl, rfl⟩
    · exact .of_access hd' hb (ho.imp (fun ⟨_, e⟩ => ⟨_, e⟩) fun ⟨_, e⟩ => ⟨_, e⟩)
    · exact .refused _
  case init =>
    rcases initCmd_cases h with ⟨e, fs, rfl, hb, -⟩ | ⟨rfl, hp, u, k, hb, rfl⟩
    · exact .failed e t fs hb
    · exact .initialised rfl hp u k hb
  case configure c =>
    rcases configureCmd_cases h with ⟨e, fs, rfl, hb, -⟩ | ⟨rfl, rfl, -⟩ | ⟨rfl, hv, hp, u, hb, rfl⟩
    · exact .failed e t fs hb
    · exact .refused _
    · exact .configured c rfl hv hp u hb
  case softReset => exact softReset_effect h
  case readMeas =>
    rcases readMeasCmd_cases h with ⟨c, fs, rfl, hb, -⟩ | ⟨r, rfl, rfl⟩ | ⟨hc, hp, u, m, hb, rfl, rfl⟩
    · exact .failed _ t fs hb
    · exact .refused r
    · exact .measured rfl hc hp u m hb
  case close => cases h; exact .closed rfl
  case writeReg | wrCtrlHum | wrCtrlMeas | wrConfig | wrReset => exact hw hd' h
  all_goals exact hr hd' h

end Sys2Proof.Machine
end

