-- ==== Sys2Proof/Laws/Decode.lean ====
section
/-! SUPPORT. Byte order, operand layouts and ports (R60 to R66): what decoding an encoded operand gives back. -/

namespace Sys2Proof

/-! ### Little-endian numbers -/

@[simp] theorem length_leBytes (n x : Nat) : (leBytes n x).length = n := by
  induction n generalizing x with
  | zero => rfl
  | succ n ih => simp [leBytes, ih]

theorem leNat_lt (bs : List Byte) : leNat bs < 256 ^ bs.length := by
  induction bs with
  | nil => simp [leNat]
  | cons b bs ih =>
    have := b.isLt
    simp only [leNat, List.length_cons, pow_succ]
    omega

/-- The little-endian value of `n` bytes of `x` is `x`, cut to `n` bytes. -/
theorem leNat_leBytes (n x : Nat) : leNat (leBytes n x) = x % 256 ^ n := by
  induction n generalizing x with
  | zero => simp [leBytes, leNat, Nat.mod_one]
  | succ n ih =>
    rw [leBytes, leNat, ih, pow_succ', Nat.mod_mul, BitVec.toNat_ofNat]

/-- The bytes of a byte sequence's value are the sequence. -/
theorem leBytes_leNat (bs : List Byte) : leBytes bs.length (leNat bs) = bs := by
  induction bs with
  | nil => rfl
  | cons b bs ih =>
    have hb := b.isLt
    have h1 : (b.toNat + 256 * leNat bs) / 256 = leNat bs := by omega
    have h2 : BitVec.ofNat 8 (b.toNat + 256 * leNat bs) = b := by
      apply BitVec.eq_of_toNat_eq
      simp
      omega
    rw [leNat, List.length_cons, leBytes, h1, h2, ih]

/-! ### Reading operands out of byte strings -/

theorem slice_append_left (as bs : List Byte) (n : Nat) (h : as.length = n) : slice (as ++ bs) 0 n = as := by
  simp [slice, ← h]

theorem slice_append_right (as bs : List Byte) (at0 n k : Nat) (h : as.length = k) (hk : k ≤ at0) :
    slice (as ++ bs) at0 n = slice bs (at0 - k) n := by
  simp [slice, List.drop_append, h, List.drop_eq_nil_of_le (h ▸ hk : as.length ≤ at0)]

theorem byteAt_append_right (as bs : List Byte) (i k : Nat) (h : as.length = k) (hk : k ≤ i) :
    byteAt (as ++ bs) i = byteAt bs (i - k) := by
  simp [byteAt, List.getD_eq_getElem?_getD, List.getElem?_append_right (h ▸ hk : as.length ≤ i), h]

/-- A little-endian field gives back the register it was written from. -/
theorem leField_leBytes (w n : Nat) (x : BitVec w) (bs : List Byte) (h : 2 ^ w = 256 ^ n) :
    leField w (leBytes n x.toNat ++ bs) 0 n = x := by
  rw [leField, slice_append_left _ _ _ (length_leBytes n _), leNat_leBytes, ← h, Nat.mod_eq_of_lt x.isLt]
  simp

theorem leField_append_right (w : Nat) (as bs : List Byte) (at0 n k : Nat) (h : as.length = k) (hk : k ≤ at0) :
    leField w (as ++ bs) at0 n = leField w bs (at0 - k) n := by
  rw [leField, leField, slice_append_right as bs at0 n k h hk]

/-- A `cfg` operand gives back its record. -/
@[simp] theorem cfgOf_cfgBytes (c : Cfg) : cfgOf (cfgBytes c) = c := rfl

@[simp] theorem length_cfgBytes (c : Cfg) : (cfgBytes c).length = 6 := rfl

/-- The length of a well-formed `cal` operand is 33 bytes (R61). -/
theorem length_calBytes (c : CalOperand) (h : c.wellFormed = true) : (calBytes c).length = 33 := by
  simp [CalOperand.wellFormed] at h
  simp [calBytes, h]

/-- A well-formed `cal` operand gives back its record. -/
theorem calOperandAt_calBytes (c : CalOperand) (h : c.wellFormed = true) : calOperandAt (calBytes c) 0 = c := by
  obtain ⟨b24, b8, h1⟩ := c
  simp [CalOperand.wellFormed] at h
  obtain ⟨ha, hb⟩ := h
  simp only [calOperandAt, calBytes, CalOperand.mk.injEq]
  refine ⟨?_, ?_, ?_⟩
  · rw [List.append_assoc, slice_append_left _ _ _ ha]
  · rw [List.append_assoc, slice_append_right _ _ _ _ 24 ha (by omega), slice_append_left _ _ _ hb]
  · rw [byteAt_append_right _ _ _ 32 (by simp [ha, hb]) (by omega)]; rfl

theorem calOperandAt_append_right (as bs : List Byte) (at0 k : Nat) (h : as.length = k) (hk : k ≤ at0) :
    calOperandAt (as ++ bs) at0 = calOperandAt bs (at0 - k) := by
  simp only [calOperandAt]
  rw [slice_append_right _ _ _ _ k h hk, slice_append_right _ _ _ _ k h (by omega),
    byteAt_append_right _ _ _ k h (by omega)]
  congr 2 <;> omega

/-! ### Operands are the bytes they were read from -/

theorem slice_append_slice (bs : List Byte) (at0 m n : Nat) :
    slice bs at0 m ++ slice bs (at0 + m) n = slice bs at0 (m + n) := by
  simp only [slice]
  rw [List.take_add, List.drop_drop]

theorem length_slice (bs : List Byte) (at0 n : Nat) (h : at0 + n ≤ bs.length) : (slice bs at0 n).length = n := by
  simp [slice]
  omega

theorem slice_whole (bs : List Byte) (n : Nat) (h : bs.length = n) : slice bs 0 n = bs := by
  simp [slice, ← h]

theorem singleton_byteAt (bs : List Byte) (i : Nat) (h : i < bs.length) : [byteAt bs i] = slice bs i 1 := by
  rw [slice, byteAt, List.getD_eq_getElem?_getD, List.getElem?_eq_getElem h, List.drop_eq_getElem_cons h]
  rfl

/-- The bytes of a little-endian field are the bytes it was read from. -/
theorem leBytes_leField (w n : Nat) (bs : List Byte) (at0 : Nat) (hw : 2 ^ w = 256 ^ n) (h : at0 + n ≤ bs.length) :
    leBytes n (leField w bs at0 n).toNat = slice bs at0 n := by
  have hl := length_slice bs at0 n h
  have hlt := leNat_lt (slice bs at0 n)
  rw [hl, ← hw] at hlt
  rw [leField, BitVec.toNat_ofNat, Nat.mod_eq_of_lt hlt]
  have := leBytes_leNat (slice bs at0 n)
  rwa [hl] at this

/-- The bytes of a `cal` operand are the bytes it was read from. -/
theorem calBytes_calOperandAt (bs : List Byte) (at0 : Nat) (h : at0 + 33 ≤ bs.length) :
    calBytes (calOperandAt bs at0) = slice bs at0 33 := by
  rw [calBytes, calOperandAt, singleton_byteAt bs (at0 + 32) (by omega), slice_append_slice]
  exact slice_append_slice bs at0 32 1

/-- A `cal` operand read from enough bytes is well formed. -/
theorem wellFormed_calOperandAt (bs : List Byte) (at0 : Nat) (h : at0 + 33 ≤ bs.length) :
    (calOperandAt bs at0).wellFormed = true := by
  simp [CalOperand.wellFormed, calOperandAt, length_slice bs at0 24 (by omega),
    length_slice bs (at0 + 24) 8 (by omega)]

/-- The six bytes of a `cfg` operand are the bytes it was read from. -/
theorem cfgBytes_cfgOf (bs : List Byte) (h : bs.length = 6) : cfgBytes (cfgOf bs) = bs := by
  match bs, h with
  | [_, _, _, _, _, _], _ => rfl

/-! ### Taking operands from a stream -/

/-- Operands of the right length, whatever follows them. -/
theorem withOperands_append (n : Nat) (os rest : List Byte) (build : List Byte → Instr) (h : os.length = n) :
    withOperands n (os ++ rest) build = .ok (build os, rest) := by
  simp [withOperands, ← h]

/-- The one way operands are taken. -/
theorem withOperands_ok {n : Nat} {bs rest : List Byte} {build : List Byte → Instr} {i : Instr}
    (h : withOperands n bs build = .ok (i, rest)) : ∃ os, os.length = n ∧ i = build os ∧ bs = os ++ rest := by
  unfold withOperands at h
  split at h
  · cases h
  · cases h
    exact ⟨bs.take n, by simp; omega, rfl, (List.take_append_drop n bs).symm⟩

/-! ### The opcode map, one command a lemma (R62) -/

theorem decodeHost_writeReg (bs : List Byte) : decodeHost (0x01 :: bs) =
    withOperands 2 bs fun o => .writeReg (byteAt o 0) (byteAt o 1) := rfl
theorem decodeHost_readRegs (bs : List Byte) : decodeHost (0x02 :: bs) =
    withOperands 2 bs fun o => .readRegs (byteAt o 0) (byteAt o 1) := rfl
theorem decodeHost_decodeTp (bs : List Byte) : decodeHost (0x10 :: bs) =
    withOperands 24 bs fun o => .decodeTp o := rfl
theorem decodeHost_decodeH (bs : List Byte) : decodeHost (0x11 :: bs) =
    withOperands 9 bs fun o => .decodeH (slice o 0 8) (byteAt o 8) := rfl
theorem decodeHost_unpackRaw (bs : List Byte) : decodeHost (0x20 :: bs) =
    withOperands 8 bs fun o => .unpackRaw o := rfl
theorem decodeHost_compT (bs : List Byte) : decodeHost (0x21 :: bs) =
    withOperands 37 bs fun o => .compT (leField 32 o 0 4) (calOperandAt o 4) := rfl
theorem decodeHost_compP (bs : List Byte) : decodeHost (0x22 :: bs) =
    withOperands 41 bs fun o => .compP (leField 32 o 0 4) (leField 32 o 4 4) (calOperandAt o 8) := rfl
theorem decodeHost_compH (bs : List Byte) : decodeHost (0x23 :: bs) =
    withOperands 39 bs fun o => .compH (leField 16 o 0 2) (leField 32 o 2 4) (calOperandAt o 6) := rfl
theorem decodeHost_clamp (bs : List Byte) : decodeHost (0x24 :: bs) =
    withOperands 25 bs fun o => .clamp (leField 64 o 0 8) (leField 64 o 8 8) (leField 64 o 16 8) (byteAt o 24) := rfl
theorem decodeHost_compensate (bs : List Byte) : decodeHost (0x25 :: bs) =
    withOperands 43 bs fun o => .compensate (leField 32 o 0 4) (leField 32 o 4 4) (leField 16 o 8 2) (calOperandAt o 10) := rfl
theorem decodeHost_validateCfg (bs : List Byte) : decodeHost (0x30 :: bs) =
    withOperands 6 bs fun o => .validateCfg (cfgOf o) := rfl
theorem decodeHost_encCtrlHum (bs : List Byte) : decodeHost (0x31 :: bs) =
    withOperands 6 bs fun o => .encCtrlHum (cfgOf o) := rfl
theorem decodeHost_encCtrlMeas (bs : List Byte) : decodeHost (0x32 :: bs) =
    withOperands 6 bs fun o => .encCtrlMeas (cfgOf o) := rfl
theorem decodeHost_encConfig (bs : List Byte) : decodeHost (0x33 :: bs) =
    withOperands 6 bs fun o => .encConfig (cfgOf o) := rfl
theorem decodeHost_durTypical (bs : List Byte) : decodeHost (0x34 :: bs) =
    withOperands 6 bs fun o => .durTypical (cfgOf o) := rfl
theorem decodeHost_durMax (bs : List Byte) : decodeHost (0x35 :: bs) =
    withOperands 6 bs fun o => .durMax (cfgOf o) := rfl
theorem decodeHost_durCycle (bs : List Byte) : decodeHost (0x36 :: bs) =
    withOperands 6 bs fun o => .durCycle (cfgOf o) := rfl
theorem decodeHost_nearestStandby (bs : List Byte) : decodeHost (0x37 :: bs) =
    withOperands 8 bs fun o => .nearestStandby (leField 64 o 0 8) := rfl
theorem decodeHost_init (bs : List Byte) : decodeHost (0x40 :: bs) =
    withOperands 0 bs fun _ => .init := rfl
theorem decodeHost_configure (bs : List Byte) : decodeHost (0x41 :: bs) =
    withOperands 6 bs fun o => .configure (cfgOf o) := rfl
theorem decodeHost_softReset (bs : List Byte) : decodeHost (0x42 :: bs) =
    withOperands 0 bs fun _ => .softReset := rfl
theorem decodeHost_readMeas (bs : List Byte) : decodeHost (0x43 :: bs) =
    withOperands 0 bs fun _ => .readMeas := rfl
theorem decodeHost_close (bs : List Byte) : decodeHost (0x44 :: bs) =
    withOperands 0 bs fun _ => .close := rfl

/-! ### The write frames (R64, R66) -/

theorem decodeFrame_wrCtrlHum (bs : List Byte) : decodeFrame (0xF2 :: bs) =
    withOperands 1 bs fun o => .wrCtrlHum (byteAt o 0) := rfl
theorem decodeFrame_wrCtrlMeas (bs : List Byte) : decodeFrame (0xF4 :: bs) =
    withOperands 1 bs fun o => .wrCtrlMeas (byteAt o 0) := rfl
theorem decodeFrame_wrConfig (bs : List Byte) : decodeFrame (0xF5 :: bs) =
    withOperands 1 bs fun o => .wrConfig (byteAt o 0) := rfl
theorem decodeFrame_wrReset (bs : List Byte) : decodeFrame (0xE0 :: 0xB6 :: bs) = .ok (.wrReset, bs) := rfl

/-- Every host opcode of the map, with the number of operand bytes and the command it builds: the one case analysis of
`decodeHost`. -/
theorem decodeHost_cases (op : Byte) (bs : List Byte) :
    (decodeHost (op :: bs) = .error .undefinedOpcode ∧ commandLength op.toNat = none) ∨
    ∃ n build, decodeHost (op :: bs) = withOperands n bs build ∧ commandLength op.toNat = some (n + 1) := by
  simp only [decodeHost]
  split
  case h_24 =>
    refine .inl ⟨rfl, ?_⟩
    unfold commandLength
    split <;> first | rfl | contradiction
  all_goals exact .inr ⟨_, _, rfl, by simp only [commandLength, *]⟩

end Sys2Proof
end

