-- ==== Sys2Proof/Laws/F64.lean ====
section
/-! SUPPORT. Binary64 patterns and their values: magnitude bits count the representable magnitudes in order, and a scaled
integer below 2^53 is one of them. -/

namespace Sys2Proof.F64

/-! ### Patterns -/

theorem magBits_lt (x : F64) : magBits x < 2 ^ 63 := Nat.mod_lt _ (by decide)

theorem toNat_eq (x : F64) : x.toNat = (if sign x then 2 ^ 63 else 0) + magBits x := by
  have hs : sign x = decide (2 ^ 63 ≤ x.toNat) := by
    have := BitVec.msb_eq_decide x
    simpa [sign, BitVec.msb] using this
  have hx := x.isLt
  by_cases h : 2 ^ 63 ≤ x.toNat
  · simp only [hs, h, decide_true, if_true, magBits]
    omega
  · simp only [hs, h, decide_false, magBits]
    simp only [Bool.false_eq_true, if_false]
    omega

theorem ext_bits {x y : F64} (hs : sign x = sign y) (hm : magBits x = magBits y) : x = y := by
  apply BitVec.eq_of_toNat_eq
  rw [toNat_eq x, toNat_eq y, hs, hm]

theorem toNat_ofBits (neg : Bool) (m : Nat) (h : m < 2 ^ 63) : (ofBits neg m).toNat = (if neg then 2 ^ 63 else 0) + m := by
  cases neg <;> simp [ofBits, BitVec.toNat_ofNat] <;> omega

theorem magBits_ofBits (neg : Bool) (m : Nat) (h : m < 2 ^ 63) : magBits (ofBits neg m) = m := by
  rw [magBits, toNat_ofBits neg m h]
  cases neg <;> simp <;> omega

theorem sign_ofBits (neg : Bool) (m : Nat) (h : m < 2 ^ 63) : sign (ofBits neg m) = neg := by
  have h1 := toNat_eq (ofBits neg m)
  rw [toNat_ofBits neg m h, magBits_ofBits neg m h] at h1
  cases neg <;> cases hs : sign (ofBits _ m) <;> simp_all

theorem fracField_eq (x : F64) : fracField x = magBits x % 2 ^ 52 := by
  simp only [fracField, magBits]
  omega

/-! ### Magnitudes -/

/-- The units of 2^-1074 that magnitude bits stand for. -/
def unitsOf (b : Nat) : Nat :=
  (if b / 2 ^ 52 = 0 then b % 2 ^ 52 else 2 ^ 52 + b % 2 ^ 52) * 2 ^ (b / 2 ^ 52 - 1)

theorem units_eq (x : F64) : units x = unitsOf (magBits x) := by
  simp only [units, mant, scale, expField, fracField_eq, unitsOf]

/-- A significand of at most 53 bits at scale `k` is the magnitude with bits `k * 2^52 + m`. -/
theorem unitsOf_scaled (k m : Nat) (hm : m ≤ 2 ^ 53) (hk : k = 0 ∨ 2 ^ 52 ≤ m) :
    unitsOf (k * 2 ^ 52 + m) = m * 2 ^ k := by
  have hd : (k * 2 ^ 52 + m) / 2 ^ 52 = k + m / 2 ^ 52 := by omega
  have hr : (k * 2 ^ 52 + m) % 2 ^ 52 = m % 2 ^ 52 := by omega
  rw [unitsOf, hd, hr]
  by_cases h1 : m < 2 ^ 52
  · obtain rfl : k = 0 := by omega
    rw [show m / 2 ^ 52 = 0 by omega, if_pos rfl, Nat.mod_eq_of_lt h1]
  by_cases h2 : m < 2 ^ 53
  · have h3 : m / 2 ^ 52 = 1 := by omega
    have h4 : m % 2 ^ 52 = m - 2 ^ 52 := by omega
    rw [h3, h4, if_neg (by omega), Nat.add_sub_cancel]
    rw [show 2 ^ 52 + (m - 2 ^ 52) = m by omega]
  · obtain rfl : m = 2 ^ 53 := by omega
    have h3 : (2 : Nat) ^ 53 / 2 ^ 52 = 2 := by norm_num
    rw [h3, if_neg (by omega), show k + 2 - 1 = k + 1 by omega, pow_succ]
    norm_num
    ring

/-- Every magnitude is a significand below 2^53 at its scale. -/
theorem unitsOf_eq_scaled (b : Nat) :
    ∃ k m, b = k * 2 ^ 52 + m ∧ m < 2 ^ 53 ∧ (k = 0 ∨ 2 ^ 52 ≤ m) ∧ unitsOf b = m * 2 ^ k := by
  by_cases h : b / 2 ^ 52 = 0
  · have hb : b < 2 ^ 52 := by omega
    exact ⟨0, b, by omega, by omega, .inl rfl, by rw [unitsOf, h, if_pos rfl, Nat.mod_eq_of_lt hb]⟩
  · refine ⟨b / 2 ^ 52 - 1, 2 ^ 52 + b % 2 ^ 52, ?_, by omega, .inr (by omega), by rw [unitsOf, if_neg h]⟩
    have := Nat.div_add_mod b (2 ^ 52)
    have h2 : b / 2 ^ 52 = (b / 2 ^ 52 - 1) + 1 := by omega
    rw [h2, Nat.mul_add] at this
    omega

theorem unitsOf_lt_succ (b : Nat) : unitsOf b < unitsOf (b + 1) := by
  obtain ⟨k, m, rfl, hm, hk, hu⟩ := unitsOf_eq_scaled b
  rw [hu, Nat.add_assoc, unitsOf_scaled k (m + 1) (by omega) (by omega)]
  exact Nat.mul_lt_mul_of_pos_right (by omega) (by positivity)

/-- More bits, more magnitude. -/
theorem unitsOf_strictMono : StrictMono unitsOf := strictMono_nat_of_lt_succ unitsOf_lt_succ

@[simp] theorem unitsOf_zero : unitsOf 0 = 0 := rfl

theorem unitsOf_infBits : unitsOf infBits = 2 ^ 2098 := by
  have h := unitsOf_scaled 2045 (2 ^ 53) (by decide) (.inr (by decide))
  rw [show 2045 * 2 ^ 52 + 2 ^ 53 = infBits by decide] at h
  rw [h, ← pow_add]

theorem natAbs_toUnits (x : F64) : (toUnits x).natAbs = unitsOf (magBits x) := by
  rw [toUnits, units_eq]
  cases sign x <;> simp

theorem toUnits_ofBits (neg : Bool) (m : Nat) (h : m < 2 ^ 63) :
    toUnits (ofBits neg m) = if neg then -(unitsOf m : Int) else unitsOf m := by
  rw [toUnits, units_eq, sign_ofBits neg m h, magBits_ofBits neg m h]

/-- The value order is the order of the signed magnitude bits. -/
theorem key_lt_iff (x y : F64) : key x < key y ↔ toUnits x < toUnits y := by
  have hm := unitsOf_strictMono.lt_iff_lt (a := magBits x) (b := magBits y)
  have hm' := unitsOf_strictMono.lt_iff_lt (a := magBits y) (b := magBits x)
  have hx := unitsOf_strictMono.lt_iff_lt (a := 0) (b := magBits x)
  have hy := unitsOf_strictMono.lt_iff_lt (a := 0) (b := magBits y)
  simp only [unitsOf_zero] at hx hy
  simp only [key, toUnits, units_eq]
  cases sign x <;> cases sign y <;> simp <;> omega

/-! ### Negation -/

theorem toNat_signBit : (0x8000000000000000 : F64).toNat = 2 ^ 63 := by decide

theorem magBits_neg (x : F64) : magBits (neg x) = magBits x := by
  apply Nat.eq_of_testBit_eq
  intro i
  rw [magBits, magBits, Nat.testBit_mod_two_pow, Nat.testBit_mod_two_pow, neg, BitVec.toNat_xor, toNat_signBit,
    Nat.testBit_xor, Nat.testBit_two_pow]
  by_cases h : i < 63
  · simp [h, show 63 ≠ i by omega]
  · simp [h]

theorem sign_neg (x : F64) : sign (neg x) = !sign x := by
  rw [sign, sign, neg, BitVec.getMsbD_xor]
  have : BitVec.getMsbD (0x8000000000000000 : F64) 0 = true := by decide
  rw [this, Bool.xor_true]

theorem toUnits_neg (x : F64) : toUnits (neg x) = -toUnits x := by
  rw [toUnits, toUnits, units_eq, units_eq, magBits_neg, sign_neg]
  cases sign x <;> simp

/-- The pressure sentinel holds of the two zeros and of nothing else (R176). -/
theorem isSentinel_iff (x : F64) : Machine.isSentinel x = true ↔ x = 0x0000000000000000 ∨ x = 0x8000000000000000 := by
  have h0 : isNaN (zero false) = false ∧ key (zero false) = 0 := by decide
  have hb : Machine.isSentinel x = true ↔ magBits x = 0 := by
    have hi : 0 < infBits := by decide
    have hk : key x = 0 ↔ magBits x = 0 := by
      rw [key]
      cases sign x <;> simp
    rw [Machine.isSentinel, eq, h0.1, h0.2]
    simp only [isNaN, Bool.not_false, Bool.and_true, Bool.and_eq_true, Bool.not_eq_true', decide_eq_false_iff_not,
      beq_iff_eq, hk]
    omega
  rw [hb]
  constructor
  · intro h
    cases hs : sign x
    · exact .inl (ext_bits (by rw [hs]; decide) (by rw [h]; decide))
    · exact .inr (ext_bits (by rw [hs]; decide) (by rw [h]; decide))
  · rintro (rfl | rfl) <;> decide

end Sys2Proof.F64
end

