-- ==== Sys2Proof/Laws/PerInstr.lean ====
section
/-! SUPPORT. Statements proved for every instruction, one lemma per constructor. -/

namespace Sys2Proof.Laws

/-- A well-formed host command's encoding has the length its opcode fixes (R60, R62). -/
def CommandLength.Statement (i : Instr) : Prop :=
  i.WellFormed = true → portOf i = .host → commandLength (byteAt (encode i) 0).toNat = some (encode i).length

theorem CommandLength.writeReg (reg val : Byte) : CommandLength.Statement (.writeReg reg val) := fun _ _ => rfl

theorem CommandLength.readRegs (reg count : Byte) : CommandLength.Statement (.readRegs reg count) := fun _ _ => rfl

theorem CommandLength.decodeTp (b : List Byte) : CommandLength.Statement (.decodeTp b) := by
  intro h _
  have h : b.length = _ := beq_iff_eq.mp h
  simp [encode, byteAt, commandLength, h]

theorem CommandLength.decodeH (c : List Byte) (h1 : Byte) : CommandLength.Statement (.decodeH c h1) := by
  intro h _
  have h : c.length = _ := beq_iff_eq.mp h
  simp [encode, byteAt, commandLength, h]

theorem CommandLength.unpackRaw (d : List Byte) : CommandLength.Statement (.unpackRaw d) := by
  intro h _
  have h : d.length = _ := beq_iff_eq.mp h
  simp [encode, byteAt, commandLength, h]

theorem CommandLength.compT (traw : BitVec 32) (cal : CalOperand) : CommandLength.Statement (.compT traw cal) := by
  intro h _
  simp [encode, byteAt, commandLength, length_calBytes cal h]

theorem CommandLength.compP (praw tfine : BitVec 32) (cal : CalOperand) : CommandLength.Statement (.compP praw tfine cal) := by
  intro h _
  simp [encode, byteAt, commandLength, length_calBytes cal h]

theorem CommandLength.compH (hraw : BitVec 16) (tfine : BitVec 32) (cal : CalOperand) : CommandLength.Statement (.compH hraw tfine cal) := by
  intro h _
  simp [encode, byteAt, commandLength, length_calBytes cal h]

theorem CommandLength.clamp (t p h : F64) (flag : Byte) : CommandLength.Statement (.clamp t p h flag) := fun _ _ => rfl

theorem CommandLength.compensate (praw traw : BitVec 32) (hraw : BitVec 16) (cal : CalOperand) : CommandLength.Statement (.compensate praw traw hraw cal) := by
  intro h _
  simp [encode, byteAt, commandLength, length_calBytes cal h]

theorem CommandLength.validateCfg (cfg : Cfg) : CommandLength.Statement (.validateCfg cfg) := fun _ _ => rfl

theorem CommandLength.encCtrlHum (cfg : Cfg) : CommandLength.Statement (.encCtrlHum cfg) := fun _ _ => rfl

theorem CommandLength.encCtrlMeas (cfg : Cfg) : CommandLength.Statement (.encCtrlMeas cfg) := fun _ _ => rfl

theorem CommandLength.encConfig (cfg : Cfg) : CommandLength.Statement (.encConfig cfg) := fun _ _ => rfl

theorem CommandLength.durTypical (cfg : Cfg) : CommandLength.Statement (.durTypical cfg) := fun _ _ => rfl

theorem CommandLength.durMax (cfg : Cfg) : CommandLength.Statement (.durMax cfg) := fun _ _ => rfl

theorem CommandLength.durCycle (cfg : Cfg) : CommandLength.Statement (.durCycle cfg) := fun _ _ => rfl

theorem CommandLength.nearestStandby (r : BitVec 64) : CommandLength.Statement (.nearestStandby r) := fun _ _ => rfl

theorem CommandLength.init : CommandLength.Statement .init := fun _ _ => rfl

theorem CommandLength.configure (cfg : Cfg) : CommandLength.Statement (.configure cfg) := fun _ _ => rfl

theorem CommandLength.softReset : CommandLength.Statement .softReset := fun _ _ => rfl

theorem CommandLength.readMeas : CommandLength.Statement .readMeas := fun _ _ => rfl

theorem CommandLength.close : CommandLength.Statement .close := fun _ _ => rfl

theorem CommandLength.rdId : CommandLength.Statement .rdId := fun _ h => by cases h

theorem CommandLength.rdCal1 : CommandLength.Statement .rdCal1 := fun _ h => by cases h

theorem CommandLength.rdCal2 : CommandLength.Statement .rdCal2 := fun _ h => by cases h

theorem CommandLength.rdCalH1 : CommandLength.Statement .rdCalH1 := fun _ h => by cases h

theorem CommandLength.wrCtrlHum (val : Byte) : CommandLength.Statement (.wrCtrlHum val) := fun _ h => by cases h

theorem CommandLength.wrCtrlMeas (val : Byte) : CommandLength.Statement (.wrCtrlMeas val) := fun _ h => by cases h

theorem CommandLength.wrConfig (val : Byte) : CommandLength.Statement (.wrConfig val) := fun _ h => by cases h

theorem CommandLength.wrReset : CommandLength.Statement .wrReset := fun _ h => by cases h

theorem CommandLength.rdData : CommandLength.Statement .rdData := fun _ h => by cases h

end Sys2Proof.Laws
end

