-- ==== Sys2Proof/Laws/Rounding.lean ====
section
/-! SUPPORT. Binary64 rounding: `roundUnits` gives the nearest value, ties to even (R170), and a rounded result stays
within representable bounds. -/

namespace Sys2Proof.F64

open Sys2Proof.Machine

/-- `roundQuot` is a nearest integer, and an even one on a tie. -/
theorem roundQuot_nearest (n d : Nat) (hd : 0 < d) :
    (∀ j : Int, |(roundQuot n d : ℚ) - n / d| ≤ |(j : ℚ) - n / d|) ∧
    (∀ j : Int, |(j : ℚ) - n / d| = |(roundQuot n d : ℚ) - n / d| → j ≠ roundQuot n d →
      roundQuot n d % 2 = 0) := by
  have hdm := Nat.div_add_mod n d
  have hr := Nat.mod_lt n hd
  set q := n / d with hq
  set r := n % d with hr'
  have hdq : (0:ℚ) < d := by exact_mod_cast hd
  have hn : (n : ℚ) / d = q + r / d := by
    rw [← hdm]; push_cast; field_simp
  rw [hn]
  have e : ∀ j : ℤ, ((j : ℚ) - (q + r/d)) = (((j - q) * d - r : ℤ) : ℚ) / d := by
    intro j; push_cast; field_simp; ring
  have e' : ∀ j : ℤ, |((j : ℚ) - (q + r/d))| = (|((j - q) * d - r : ℤ)| : ℤ) / (d : ℚ) := by
    intro j; rw [e, abs_div, abs_of_pos hdq, ← Int.cast_abs]
  have hrq : roundQuot n d = if d < 2 * r ∨ (2 * r = d ∧ q % 2 = 1) then q + 1 else q := rfl
  have low : ∀ j : ℤ, j ≤ q →
      (r : ℤ) ≤ |(j - q) * (d:ℤ) - r| ∧ (j < q → (r:ℤ) < |(j - q) * (d:ℤ) - r|) := by
    intro j hj
    have : (j - q) * (d:ℤ) ≤ 0 := by nlinarith
    constructor
    · rw [abs_of_nonpos (by omega)]; omega
    · intro hj2; have : (j - q) * (d:ℤ) < 0 := by nlinarith
      rw [abs_of_nonpos (by omega)]; omega
  have high : ∀ j : ℤ, q + 1 ≤ j →
      (d:ℤ) - r ≤ |(j - q) * (d:ℤ) - r| ∧ (q + 1 < j → (d:ℤ) - r < |(j - q) * (d:ℤ) - r|) := by
    intro j hj
    have : (d:ℤ) ≤ (j - q) * (d:ℤ) := by nlinarith
    constructor
    · rw [abs_of_nonneg (by omega)]; omega
    · intro hj2; have : (d:ℤ) < (j - q) * (d:ℤ) := by nlinarith
      rw [abs_of_nonneg (by omega)]; omega
  have c1 : ∀ a b : ℤ, ((a : ℚ) / d ≤ b / d ↔ a ≤ b) := by
    intro a b; rw [div_le_div_iff_of_pos_right hdq]; exact_mod_cast Iff.rfl
  have c2 : ∀ a b : ℤ, ((a : ℚ) / d = b / d ↔ a = b) := by
    intro a b; rw [div_left_inj' (ne_of_gt hdq)]; exact_mod_cast Iff.rfl
  have cast : ((roundQuot n d : ℕ) : ℚ) = ((roundQuot n d : ℤ) : ℚ) := by push_cast; rfl
  simp only [cast, e', c1, c2]
  rw [hrq]
  split_ifs with hc
  · have z : ((q + 1 : ℕ) : ℤ) - q = 1 := by omega
    simp only [z, one_mul]
    rw [abs_of_nonneg (by omega)]
    refine ⟨fun j => ?_, fun j hj hne => ?_⟩
    · rcases le_or_gt j q with h | h
      · have := (low j h).1; omega
      · exact (high j h).1
    · rcases le_or_gt j q with h | h
      · rcases lt_or_eq_of_le h with h2 | h2
        · have := (low j h).2 h2; omega
        · have := (low j h).1; omega
      · have := (high j h).2 (by omega); omega
  · have z : (q : ℤ) - q = 0 := by omega
    simp only [z, zero_mul, zero_sub, abs_neg, Nat.abs_cast]
    refine ⟨fun j => ?_, fun j hj hne => ?_⟩
    · rcases le_or_gt j q with h | h
      · exact (low j h).1
      · have := (high j h).1; omega
    · rcases le_or_gt j q with h | h
      · have := (low j h).2 (by omega); omega
      · have := (high j h).1; omega

theorem binadeScale_bounds (n d : Nat) (hd : 0 < d) :
    let k := binadeScale n d
    (n : ℚ) / d < 2 ^ 53 * 2 ^ k ∧ (k = 0 ∨ (2 : ℚ) ^ 52 * 2 ^ k ≤ n / d) := by
  intro k
  have hdq : (0:ℚ) < d := by exact_mod_cast hd
  rw [div_lt_iff₀ hdq, le_div_iff₀ hdq]
  have h1 : n / d < 2 ^ ((n/d).log2 + 1) := Nat.lt_log2_self
  have hk : k = (n / d).log2 - 52 := rfl
  constructor
  · have : n / d < 2 ^ 53 * 2 ^ k := by
      refine lt_of_lt_of_le h1 ?_
      rw [← pow_add]; exact Nat.pow_le_pow_right (by norm_num) (by omega)
    have := (Nat.div_lt_iff_lt_mul hd).1 this
    exact_mod_cast this
  · by_cases h0 : k = 0
    · exact .inl h0
    · right
      have hne : n / d ≠ 0 := by
        intro h; rw [hk, h] at h0; simp at h0
      have : 2 ^ 52 * 2 ^ k ≤ n / d := by
        rw [← pow_add, show 52 + k = (n/d).log2 by omega]; exact Nat.log2_self_le hne
      have := (Nat.le_div_iff_mul_le hd).1 this
      exact_mod_cast this

theorem unitsOf_multiple_or_small (k : Nat) (b : Nat) :
    (∃ j, unitsOf b = j * 2 ^ k) ∨ (k ≠ 0 ∧ unitsOf b < 2 ^ 52 * 2 ^ k) := by
  obtain ⟨k', m, rfl, hm, hk, hu⟩ := unitsOf_eq_scaled b
  rw [hu]
  by_cases h : k ≤ k'
  · left; exact ⟨m * 2 ^ (k' - k), by rw [mul_assoc, ← pow_add, Nat.sub_add_cancel h]⟩
  · refine .inr ⟨by omega, ?_⟩
    calc m * 2 ^ k' < 2 ^ 53 * 2 ^ k' := Nat.mul_lt_mul_of_pos_right hm (by positivity)
      _ = 2 ^ 52 * 2 ^ (k' + 1) := by rw [pow_succ]; ring
      _ ≤ _ := Nat.mul_le_mul_left _ (Nat.pow_le_pow_right (by norm_num) (by omega))

/-- The rounded count of units is nearest to `n / d` among all signed magnitudes, and on a tie its bits are even. -/
theorem nearest_of_scaled (n d : Nat) (hd : 0 < d) :
    let k := binadeScale n d
    let r := roundQuot n (d * 2 ^ k)
    unitsOf (k * 2 ^ 52 + r) = r * 2 ^ k ∧
    (∀ u : Int, (∃ b, u.natAbs = unitsOf b) → |((r * 2 ^ k : Nat) : ℚ) - n / d| ≤ |(u : ℚ) - n / d| ∧ 
      (|((u : ℚ) - n / d)| = |((r * 2 ^ k : Nat) : ℚ) - n / d| → u ≠ (r * 2 ^ k : Nat) → r % 2 = 0)) := by
  intro k r
  obtain ⟨b1, b2⟩ := binadeScale_bounds n d hd
  have hdk : 0 < d * 2 ^ k := by positivity
  have hdq : (0:ℚ) < d := by exact_mod_cast hd
  have hk2 : (0:ℚ) < 2 ^ k := by positivity
  obtain ⟨s1, s2⟩ := roundQuot_nearest n (d * 2 ^ k) hdk
  have hx : ((n : ℚ) / ((d * 2 ^ k : ℕ) : ℚ)) = n / d / 2 ^ k := by push_cast; rw [div_div]
  rw [hx] at s1 s2
  set x : ℚ := n / d with hxdef
  have hx0 : 0 ≤ x := by positivity
  have sc : ∀ j : ℚ, |j - x / 2 ^ k| * 2 ^ k = |j * 2 ^ k - x| := by
    intro j
    rw [← abs_of_pos hk2, ← abs_mul, abs_of_pos hk2, sub_mul, div_mul_cancel₀ _ (ne_of_gt hk2)]
  have t1 : ∀ j : ℤ, |(r : ℚ) * 2 ^ k - x| ≤ |(j : ℚ) * 2 ^ k - x| := by
    intro j; rw [← sc, ← sc]; exact mul_le_mul_of_nonneg_right (s1 j) hk2.le
  have t2 : ∀ j : ℤ, |(j : ℚ) * 2 ^ k - x| = |(r : ℚ) * 2 ^ k - x| → j ≠ r → r % 2 = 0 := by
    intro j h; rw [← sc, ← sc] at h; exact s2 j (mul_right_cancel₀ (ne_of_gt hk2) h)
  have hr53 : r ≤ 2 ^ 53 := by
    by_contra hc
    rw [not_le] at hc
    have := t1 (2 ^ 53)
    have h2 : (2:ℚ)^53 + 1 ≤ r := by exact_mod_cast hc
    have h3 : (2 ^ 53 + 1) * (2:ℚ) ^ k ≤ r * 2 ^ k := mul_le_mul_of_nonneg_right h2 hk2.le
    push_cast at this
    rw [abs_of_pos (by nlinarith), abs_of_pos (by nlinarith)] at this
    nlinarith
  have hr52 : k = 0 ∨ 2 ^ 52 ≤ r := by
    refine b2.imp id fun b2 => ?_
    by_contra hc
    rw [not_le] at hc
    have := t1 (2 ^ 52)
    have h2 : (r:ℚ) + 1 ≤ 2^52 := by exact_mod_cast hc
    have h3 : (r + 1) * (2:ℚ) ^ k ≤ 2^52 * 2 ^ k := mul_le_mul_of_nonneg_right h2 hk2.le
    push_cast at this
    rw [abs_of_nonpos (by nlinarith), abs_of_nonpos (by nlinarith)] at this
    nlinarith
  refine ⟨unitsOf_scaled k r hr53 hr52, ?_⟩
  rintro u ⟨b, hb⟩
  push_cast
  rcases unitsOf_multiple_or_small k b with ⟨j, hj⟩ | ⟨hk0, hlt⟩
  · have : ∃ i : ℤ, u = i * 2 ^ k := by
      rcases Int.natAbs_eq u with h | h
      · exact ⟨j, by rw [h, hb, hj]; push_cast; ring⟩
      · exact ⟨-j, by rw [h, hb, hj]; push_cast; ring⟩
    obtain ⟨i, rfl⟩ := this
    push_cast
    refine ⟨t1 i, fun h hne => t2 i h ?_⟩
    rintro rfl; apply hne; ring
  · have b2' := b2.resolve_left hk0
    rw [show binadeScale n d = k from rfl] at b2'
    have hu : (u : ℚ) < 2 ^ 52 * 2 ^ k := by
      have : u < 2 ^ 52 * 2 ^ k := by
        have := Int.le_natAbs (a := u); rw [hb] at this
        have : (unitsOf b : ℤ) < ((2 ^ 52 * 2 ^ k : ℕ) : ℤ) := by exact_mod_cast hlt
        push_cast at this
        omega
      exact_mod_cast this
    have h1 := t1 (2 ^ 52)
    push_cast at h1
    rw [abs_of_nonpos (by norm_num at b2' ⊢; linarith : (4503599627370496:ℚ) * 2 ^ k - x ≤ 0)] at h1
    norm_num at hu b2'
    have h2 : |(u:ℚ) - x| = -(u - x) := abs_of_nonpos (by linarith)
    rw [h2]
    refine ⟨by linarith, fun h => ?_⟩
    exfalso; linarith

theorem isFinite_iff (x : F64) : isFinite x = true ↔ magBits x < infBits := by simp [isFinite]

theorem infBits_lt : infBits < 2 ^ 63 := by decide

theorem isFinite_ofBits {neg : Bool} {b : Nat} (h : b < infBits) : isFinite (ofBits neg b) = true := by
  rw [isFinite_iff, magBits_ofBits _ _ (h.trans infBits_lt)]; exact h

/-- The factor a sign bit stands for. -/
def sgn (neg : Bool) : ℚ := if neg then -1 else 1

theorem ratOf_ofBits (neg : Bool) (m : Nat) (h : m < 2 ^ 63) :
    ratOf (ofBits neg m) = sgn neg * unitsOf m / 2 ^ 1074 := by
  rw [ratOf, toUnits_ofBits _ _ h]; cases neg <;> simp [sgn]

theorem cast_maxSignificand (j : Nat) : (((2 ^ 53 - 1) * 2 ^ j : ℕ) : ℚ) = (2 ^ 53 - 1) * 2 ^ j := by
  rw [Nat.cast_mul, Nat.cast_pow]; norm_num

theorem overflow_midway (j : Nat) {A B : Nat} (hA : A = (2 ^ 53 - 1) * 2 ^ (j + 1)) (hB : B = 2 ^ (j + 54)) :
    (B : ℚ) - (2 ^ 54 - 1) * 2 ^ j = (2 ^ 54 - 1) * 2 ^ j - (A : ℚ) ∧
      (A : ℚ) < (2 ^ 54 - 1) * 2 ^ j := by
  rw [hA, hB, cast_maxSignificand, Nat.cast_pow, Nat.cast_ofNat, pow_add (2:ℚ) j 54, pow_succ (2:ℚ) j]
  have p3 : (0:ℚ) < 2 ^ j := by positivity
  generalize (2:ℚ) ^ j = z at *
  constructor
  · ring
  · nlinarith

theorem overflow_iff_of_nearest (x : ℚ) (U A B r : Nat) (T : ℚ) (m1 : (B : ℚ) - T = T - A) (m2 : (A : ℚ) < T)
    (gap : U < B → U ≤ A) (oddr : U = A → r % 2 = 0 → False)
    (q1 : |(U : ℚ) - x| ≤ |(B : ℚ) - x| ∧ (|(B : ℚ) - x| = |(U : ℚ) - x| → (B : ℤ) ≠ U → r % 2 = 0))
    (q2 : |(U : ℚ) - x| ≤ |(A : ℚ) - x|) : B ≤ U ↔ T ≤ x := by
  constructor
  · intro h
    by_contra hc
    rw [not_le] at hc
    have hB : (B : ℚ) ≤ U := by exact_mod_cast h
    have := q2
    rw [abs_of_nonneg (by linarith : 0 ≤ (U : ℚ) - x)] at this
    have := le_abs_self ((A : ℚ) - x)
    rcases abs_cases ((A:ℚ) - x) with ⟨h1, h2⟩ | ⟨h1, h2⟩ <;> linarith
  · intro h
    by_contra hc
    rw [not_le] at hc
    have hA := gap hc
    have hAq : (U : ℚ) ≤ A := by exact_mod_cast hA
    have := q1.1
    have hUx : |(U:ℚ) - x| = x - U := by rw [abs_of_nonpos (by linarith)]; ring
    rw [hUx] at this q1
    have hBx : |(B:ℚ) - x| ≤ x - A := by
      rcases abs_cases ((B:ℚ) - x) with ⟨h1, h2⟩ | ⟨h1, h2⟩ <;> linarith
    have hUA : (U:ℚ) = A := by linarith
    have hUA' : U = A := by exact_mod_cast hUA
    have hBx2 : |(B:ℚ) - x| = x - U := by rw [hUA] at this ⊢; linarith
    refine oddr hUA' (q1.2 hBx2 ?_)
    have : (U : ℚ) < B := by linarith
    intro he
    have he : B = U := by exact_mod_cast he
    omega

theorem unitsOf_maxBits : unitsOf (infBits - 1) = (2 ^ 53 - 1) * 2 ^ (2044 + 1) := by
  have h : infBits - 1 = 2045 * 2 ^ 52 + (2 ^ 53 - 1) := by decide
  exact (congrArg unitsOf h).trans (unitsOf_scaled (2044 + 1) (2 ^ 53 - 1) (by decide) (.inr (by decide)))

theorem unitsOf_below_infBits (b : Nat) : unitsOf b < unitsOf infBits → unitsOf b ≤ unitsOf (infBits - 1) := by
  rw [unitsOf_strictMono.lt_iff_lt, unitsOf_strictMono.le_iff_le]; omega

theorem overflow_iff (n d : Nat) (hd : 0 < d) :
    let k := binadeScale n d
    let bits := k * 2 ^ 52 + roundQuot n (d * 2 ^ k)
    (infBits ≤ bits ↔ (2 ^ 54 - 1) * 2 ^ 2044 ≤ (n : ℚ) / d) := by
  intro k bits
  obtain ⟨c1, c2⟩ := nearest_of_scaled n d hd
  rw [← unitsOf_strictMono.le_iff_le]
  have c1 : unitsOf bits = roundQuot n (d * 2 ^ k) * 2 ^ k := c1
  have q1 := c2 (unitsOf infBits : ℤ) ⟨infBits, Int.natAbs_natCast _⟩
  have q2 := c2 (unitsOf (infBits - 1) : ℤ) ⟨infBits - 1, Int.natAbs_natCast _⟩
  rw [Int.cast_natCast] at q1 q2
  have c1' := c1
  rw [show k = binadeScale n d from rfl] at c1
  rw [← c1] at q1 q2
  have mid := overflow_midway 2044 unitsOf_maxBits unitsOf_infBits
  refine overflow_iff_of_nearest _ _ (unitsOf (infBits - 1)) (unitsOf infBits) (roundQuot n (d * 2 ^ k)) _ mid.1
    mid.2 (unitsOf_below_infBits bits) ?_ q1 q2.1
  intro h he
  have h2 : bits = infBits - 1 := unitsOf_strictMono.injective h
  have h3 : (infBits - 1) % 2 = 1 := by decide
  rw [← h2] at h3
  have h4 : bits = k * 2 ^ 52 + roundQuot n (d * 2 ^ k) := rfl
  clear q1 q2 mid
  omega

theorem natAbs_toUnits_mem (x : F64) : ∃ b, (toUnits x).natAbs = unitsOf b := ⟨_, natAbs_toUnits x⟩

/-- The one rounding of every operation is to nearest, ties to even, with IEEE overflow. -/
theorem roundsTo_roundUnits (neg : Bool) (n d : Nat) (hd : 0 < d) (q : ℚ)
    (hq : q = sgn neg * (n / d) / 2 ^ 1074) (hn : n ≠ 0) :
    RoundsTo q (roundUnits neg n d) := by
  have hdq : (0:ℚ) < d := by exact_mod_cast hd
  have hnq : (0:ℚ) < n := by exact_mod_cast Nat.pos_of_ne_zero hn
  obtain ⟨c1, c2⟩ := nearest_of_scaled n d hd
  have co := overflow_iff n d hd
  simp only at co
  set k := binadeScale n d
  set r := roundQuot n (d * 2 ^ k)
  have hx0 : (0 : ℚ) < n / d := by positivity
  have habs : |q| = (n / d : ℚ) / 2 ^ 1074 := by
    rw [hq, abs_div, abs_mul, abs_of_pos hx0, abs_of_pos (by positivity : (0:ℚ) < 2 ^ 1074)]
    cases neg <;> simp [sgn]
  have hov : overflowBound ≤ |q| ↔ infBits ≤ k * 2 ^ 52 + r := by
    rw [co, habs, le_div_iff₀ (by positivity), overflowBound, mul_assoc, ← pow_add]
  have hround : roundUnits neg n d = if infBits ≤ k * 2 ^ 52 + r then inf neg else ofBits neg (k * 2 ^ 52 + r) := rfl
  have hneg : decide (q < 0) = neg := by
    have : 0 < (n / d : ℚ) / 2 ^ 1074 := by positivity
    cases neg
    · have e : q = (n / d : ℚ) / 2 ^ 1074 := by rw [hq]; simp [sgn]
      simp only [decide_eq_false_iff_not, not_lt]; linarith
    · have e : q = -((n / d : ℚ) / 2 ^ 1074) := by rw [hq]; simp [sgn]; ring
      simp only [decide_eq_true_eq]; linarith
  refine ⟨fun h => ?_, fun h => ?_⟩
  · have hb : ¬ infBits ≤ k * 2 ^ 52 + r := by rw [← hov]; exact not_le.2 h
    rw [hround, if_neg hb]
    rw [not_le] at hb
    have hb63 := hb.trans infBits_lt
    have hs : sgn neg * sgn neg = 1 := by cases neg <;> simp [sgn]
    have key : ∀ w : ℚ, |w / 2 ^ 1074 - q| = |sgn neg * w - n / d| / 2 ^ 1074 := by
      intro w
      have : w / 2 ^ 1074 - q = sgn neg * ((sgn neg * w - n / d) / 2 ^ 1074) := by
        rw [hq]; linear_combination (-(w / 2 ^ 1074)) * hs
      rw [this, abs_mul, abs_div, abs_of_pos (by positivity : (0:ℚ) < 2 ^ 1074)]
      cases neg <;> simp [sgn]
    have hr : ratOf (ofBits neg (k * 2 ^ 52 + r)) = sgn neg * ((r * 2 ^ k : ℕ) : ℚ) / 2 ^ 1074 := by
      rw [ratOf_ofBits _ _ hb63, c1]
    have hrk : |ratOf (ofBits neg (k * 2 ^ 52 + r)) - q| = |((r * 2 ^ k : ℕ) : ℚ) - n / d| / 2 ^ 1074 := by
      rw [hr, key, ← mul_assoc, hs, one_mul]
    have z : ∀ z : F64, ∃ u : ℤ, (∃ b, u.natAbs = unitsOf b) ∧ (u : ℚ) = sgn neg * toUnits z := by
      intro z
      cases neg
      · exact ⟨toUnits z, natAbs_toUnits_mem z, by simp [sgn]⟩
      · exact ⟨-toUnits z, by rw [Int.natAbs_neg]; exact natAbs_toUnits_mem z, by simp [sgn]⟩
    refine ⟨isFinite_ofBits hb, fun w hw => ?_, fun w hw he hne => ?_⟩
    · obtain ⟨u, hu, hu2⟩ := z w
      rw [hrk, ratOf, key, ← hu2]
      exact div_le_div_of_nonneg_right (c2 u hu).1 (by positivity)
    · obtain ⟨u, hu, hu2⟩ := z w
      rw [hrk, ratOf, key, ← hu2, div_left_inj' (by positivity)] at he
      rw [magBits_ofBits _ _ hb63]
      have := (c2 u hu).2 he (by
        intro hh
        apply hne
        rw [hr, ratOf]
        have h5 : (u : ℚ) = ((r * 2 ^ k : ℕ) : ℚ) := by exact_mod_cast hh
        rw [h5] at hu2
        rw [hu2, ← mul_assoc, hs, one_mul])
      omega
  · rw [hround, if_pos (hov.1 h), hneg]

theorem cast_toUnits {x : F64} : (toUnits x : ℚ) = sgn (sign x) * units x := by
  rw [toUnits]; cases sign x <;> simp [sgn]

theorem isZero_of_units_eq_zero {x : F64} (h : units x = 0) : isZero x = true := by
  rw [units_eq] at h
  have : unitsOf (magBits x) = unitsOf 0 := by rw [h]; rfl
  simp [isZero, unitsOf_strictMono.injective this]

theorem units_eq_zero_of_isZero {x : F64} (h : isZero x = true) : units x = 0 := by
  rw [units_eq]; simp [isZero] at h; rw [h]; rfl

theorem notNaN_notInf_of_isFinite {x : F64} (h : isFinite x = true) : isNaN x = false ∧ isInf x = false := by
  have := (isFinite_iff x).1 h
  constructor
  · simp [isNaN]; omega
  · simp [isInf]; omega

theorem ratOf_zero (b : Bool) : ratOf (zero b) = 0 := by rw [zero, ratOf_ofBits _ _ (by decide)]; simp

theorem overflowBound_pos : 0 < overflowBound := by unfold overflowBound; norm_num

theorem roundsTo_zero (b : Bool) : RoundsTo 0 (zero b) := by
  refine ⟨fun _ => ⟨isFinite_ofBits (by decide), fun z _ => ?_, fun z _ h hne => ?_⟩, fun h => ?_⟩
  · rw [ratOf_zero]; simp
  · rw [ratOf_zero] at h hne; simp at h; exact absurd h hne
  · have := overflowBound_pos; simp at h; linarith

theorem isFinite_neg {x : F64} (hx : isFinite x = true) : isFinite (neg x) = true := by
  rw [isFinite_iff, magBits_neg]; exact (isFinite_iff x).1 hx

theorem sgn_bne (a b : Bool) : sgn (a != b) = sgn a * sgn b := by cases a <;> cases b <;> simp [sgn]

/-- Rounding does not pass a representable bound. -/
theorem ratOf_le_of_roundsTo {q : ℚ} {r : F64} (h : RoundsTo q r) (hq : |q| < overflowBound)
    {z : F64} (hz : isFinite z = true) (hle : q ≤ ratOf z) : ratOf r ≤ ratOf z := by
  obtain ⟨_, h2, _⟩ := h.1 hq
  by_contra hc
  rw [not_le] at hc
  have := h2 z hz
  rw [abs_of_nonneg (by linarith), abs_of_nonneg (by linarith)] at this
  linarith
theorem le_ratOf_of_roundsTo {q : ℚ} {r : F64} (h : RoundsTo q r) (hq : |q| < overflowBound)
    {z : F64} (hz : isFinite z = true) (hle : ratOf z ≤ q) : ratOf z ≤ ratOf r := by
  obtain ⟨_, h2, _⟩ := h.1 hq
  by_contra hc
  rw [not_le] at hc
  have := h2 z hz
  rw [abs_of_nonpos (by linarith), abs_of_nonpos (by linarith)] at this
  linarith

end Sys2Proof.F64
end

