-- ==== Sys2Proof/Laws/Step.lean ====
section
/-! SUPPORT. What a step can do, and the one induction over runs: what every step keeps, every run keeps. -/

namespace Sys2Proof.Machine

/-! ### Fetching changes nothing but the ports -/

theorem fetch_run {s u : State} {i : Instr} (h : fetch s = .run i u) :
    u = { s with hostIn := u.hostIn, frameIn := u.frameIn } := by
  unfold fetch fetchHost at h
  split at h
  · cases h
    rfl
  · split at h <;> cases h
    rfl
  · cases h

theorem fetch_refuse {s u : State} {r : RefuseReason} (h : fetch s = .refuse r u) :
    u = { s with hostIn := u.hostIn, frameIn := u.frameIn } := by
  unfold fetch fetchHost at h
  split at h
  · cases h
  · split at h <;> cases h <;> rfl
  · cases h

/-- A step waits, runs one instruction at the state with its bytes taken, or refuses what is no command. -/
theorem step_next_cases {s t : State} (h : step s = .next t) :
    t = s ∨
    (∃ (i : Instr) (u : State), u = { s with hostIn := u.hostIn, frameIn := u.frameIn } ∧ exec i u = .next t) ∨
    ∃ (r : RefuseReason) (u : State), u = { s with hostIn := u.hostIn, frameIn := u.frameIn } ∧ t = u.refusedWith r := by
  unfold step at h
  split at h
  · cases h
    exact .inl rfl
  · exact .inr (.inl ⟨_, _, fetch_run ‹_›, h⟩)
  · cases h
    exact .inr (.inr ⟨_, _, fetch_refuse ‹_›, reply_refuse _ _⟩)
  · cases h

/-! ### Runs -/

theorem core_run_zero (s : State) : Sys2Proof.core.run 0 s = .next s := rfl

theorem core_run_succ {s t : State} {n : Nat} (h : Sys2Proof.core.run (n + 1) s = .next t) :
    ∃ u, step s = .next u ∧ Sys2Proof.core.run n u = .next t := by
  cases hs : Sys2Proof.core.step s <;> simp only [Host.Core.run, hs] at h
  · exact ⟨_, hs, h⟩
  · cases h
  · cases h

/-- A run that gets `k` steps far goes on from there. -/
theorem core_run_add {s t u : State} {k n : Nat} (h : Sys2Proof.core.run k s = .next t)
    (h' : Sys2Proof.core.run (k + n) s = .next u) : Sys2Proof.core.run n t = .next u := by
  induction k generalizing s with
  | zero =>
    cases h
    rwa [Nat.zero_add] at h'
  | succ k ih =>
    rw [Nat.add_right_comm] at h'
    obtain ⟨a, ha, h⟩ := core_run_succ h
    obtain ⟨b, hb, h'⟩ := core_run_succ h'
    rw [ha] at hb
    cases hb
    exact ih h h'

/-- What every step keeps, every run keeps. -/
theorem run_keeps {P : State → Prop} (hstep : ∀ s t, P s → step s = .next t → P t) {n : Nat} {s t : State} (hs : P s)
    (h : Sys2Proof.core.run n s = .next t) : P t := by
  induction n generalizing s with
  | zero =>
    cases h
    exact hs
  | succ n ih =>
    obtain ⟨u, hu, h⟩ := core_run_succ h
    exact ih (hstep s u hs hu) h

end Sys2Proof.Machine
end

