-- ==== Sys2Proof/Machine/Asm.lean ====
section
/-! DEFINITION. The textual form of commands (R73, R74), as text and read back from it. Where R73 gives an operand type no
spelling (the binary64 triple, the `cal` operand), it is the byte array of R61 (log entry 22). -/

namespace Sys2Proof.Machine.Asm

/-- A line of text. -/
abbrev Text := List Char

def openBrace : Char := Char.ofNat 123
def closeBrace : Char := Char.ofNat 125

/-! ### Command to text -/

/-- A hexadecimal digit, capital letters. -/
def hexDigit (n : Nat) : Char := if n < 10 then Char.ofNat (48 + n) else Char.ofNat (55 + n)

/-- `0xHH` (R73). -/
def byteText (b : Byte) : Text := ['0', 'x', hexDigit (b.toNat / 16), hexDigit (b.toNat % 16)]

/-- A decimal natural (R73). -/
def natText (n : Nat) : Text := Nat.toDigits 10 n

/-- A decimal integer (R73). -/
def intText (i : Int) : Text := if i < 0 then '-' :: natText i.natAbs else natText i.natAbs

/-- Operands separated by commas (R73). -/
def commaSep (ts : List Text) : Text := [',', ' '].intercalate ts

/-- `[0xHH, ...]` (R73). -/
def arrayText (bs : List Byte) : Text := '[' :: (commaSep (bs.map byteText) ++ [']'])

/-- The mode code's spelling: `sleep`, `forced`, `normal`, or the bare number (R73). -/
def modeText (code : Byte) : Text :=
  match code.toNat with
  | 0 => "sleep".toList
  | 1 => "forced".toList
  | 3 => "normal".toList
  | n => natText n

/-- The `cfg` operand in its braces (R73). -/
def cfgText (c : Cfg) : Text :=
  let field (name : String) (v : Text) : Text := name.toList ++ ['='] ++ v
  openBrace :: (commaSep [field "h" (natText c.osrsH.toNat), field "p" (natText c.osrsP.toNat),
    field "t" (natText c.osrsT.toNat), field "mode" (modeText c.mode), field "filter" (natText c.filter.toNat),
    field "sb" (natText c.tSb.toNat)] ++ [closeBrace])

/-- Mnemonic, then operands (R73). -/
def line (mnemonic : String) (operands : List Text) : Option Text :=
  some (if operands.isEmpty then mnemonic.toList else mnemonic.toList ++ [' '] ++ commaSep operands)

/-- The text of a host command; a bus transaction is no command and has none. -/
def text : Instr → Option Text
  | .writeReg reg val => line "WRITE_REG" [byteText reg, byteText val]
  | .readRegs reg count => line "READ_REGS" [byteText reg, natText count.toNat]
  | .decodeTp b => line "DECODE_TP" [arrayText b]
  | .decodeH c h1 => line "DECODE_H" [arrayText c, byteText h1]
  | .unpackRaw d => line "UNPACK_RAW" [arrayText d]
  | .compT traw cal => line "COMP_T" [natText traw.toNat, arrayText (calBytes cal)]
  | .compP praw tfine cal => line "COMP_P" [natText praw.toNat, intText tfine.toInt, arrayText (calBytes cal)]
  | .compH hraw tfine cal => line "COMP_H" [natText hraw.toNat, intText tfine.toInt, arrayText (calBytes cal)]
  | .clamp t p h flag =>
      line "CLAMP" [arrayText (leBytes 8 t.toNat ++ leBytes 8 p.toNat ++ leBytes 8 h.toNat), byteText flag]
  | .compensate praw traw hraw cal =>
      line "COMPENSATE" [natText praw.toNat, natText traw.toNat, natText hraw.toNat, arrayText (calBytes cal)]
  | .validateCfg cfg => line "VALIDATE_CFG" [cfgText cfg]
  | .encCtrlHum cfg => line "ENC_CTRL_HUM" [cfgText cfg]
  | .encCtrlMeas cfg => line "ENC_CTRL_MEAS" [cfgText cfg]
  | .encConfig cfg => line "ENC_CONFIG" [cfgText cfg]
  | .durTypical cfg => line "DUR_TYPICAL" [cfgText cfg]
  | .durMax cfg => line "DUR_MAX" [cfgText cfg]
  | .durCycle cfg => line "DUR_CYCLE" [cfgText cfg]
  | .nearestStandby req => line "NEAREST_STANDBY" [intText req.toInt]
  | .init => line "INIT" []
  | .configure cfg => line "CONFIGURE" [cfgText cfg]
  | .softReset => line "SOFT_RESET" []
  | .readMeas => line "READ_MEAS" []
  | .close => line "CLOSE" []
  | .rdId | .rdCal1 | .rdCal2 | .rdCalH1 | .rdData => none
  | .wrCtrlHum _ | .wrCtrlMeas _ | .wrConfig _ | .wrReset => none

/-! ### Text to command -/

/-- A character that is a token by itself. -/
def isPunct (c : Char) : Bool := c == ',' || c == '[' || c == ']' || c == '=' || c == openBrace || c == closeBrace

/-- The word read so far, as a token if there is one; `cur` holds it in reverse. -/
def flush (cur : Text) : List Text := if cur.isEmpty then [] else [cur.reverse]

/-- The tokens of a line; a comment begins with `;` (R73). -/
def tokens (cur : Text) : Text → List Text
  | [] => flush cur
  | c :: cs =>
    if c == ';' then flush cur
    else if c == ' ' || c == '\t' then flush cur ++ tokens [] cs
    else if isPunct c then flush cur ++ [c] :: tokens [] cs
    else tokens (c :: cur) cs

/-- A parser of an operand: the value and the tokens after it. -/
abbrev Reader (α : Type) := List Text → Option (α × List Text)

def hexValue (c : Char) : Option Nat :=
  if '0' ≤ c ∧ c ≤ '9' then some (c.toNat - 48)
  else if 'A' ≤ c ∧ c ≤ 'F' then some (c.toNat - 55)
  else if 'a' ≤ c ∧ c ≤ 'f' then some (c.toNat - 87)
  else none

/-- Decimal digits onto what is already read. -/
def digits (acc : Nat) : Text → Option Nat
  | [] => some acc
  | c :: cs => if '0' ≤ c ∧ c ≤ '9' then digits (acc * 10 + (c.toNat - 48)) cs else none

def natValue (t : Text) : Option Nat := if t.isEmpty then none else digits 0 t

def intValue : Text → Option Int
  | '-' :: t => (natValue t).map fun n => -(n : Int)
  | t => (natValue t).map fun n => (n : Int)

/-- One token `t` and nothing else. -/
def expect (t : Text) : Reader Unit
  | u :: ts => if u = t then some ((), ts) else none
  | [] => none

/-- A token read by `f`. -/
def token {α : Type} (f : Text → Option α) : Reader α
  | u :: ts => (f u).map fun a => (a, ts)
  | [] => none

/-- `0xHH`. -/
def readByte : Reader Byte := token fun t =>
  match t with
  | ['0', 'x', a, b] => (hexValue a).bind fun x => (hexValue b).map fun y => BitVec.ofNat 8 (16 * x + y)
  | _ => none

/-- A decimal natural of `w` bits. -/
def readNat (w : Nat) : Reader (BitVec w) := token fun t =>
  (natValue t).bind fun n => if n < 2 ^ w then some (BitVec.ofNat w n) else none

/-- A decimal two's complement integer of `w` bits. -/
def readInt (w : Nat) : Reader (BitVec w) := token fun t =>
  (intValue t).bind fun i =>
    if -(2 ^ (w - 1) : Int) ≤ i ∧ i < 2 ^ (w - 1) then some (BitVec.ofInt w i) else none

/-- `n` more bytes of an array, each after a comma. -/
def readMore : Nat → Reader (List Byte)
  | 0, ts => some ([], ts)
  | n + 1, ts => do
    let (_, ts) ← expect [','] ts
    let (b, ts) ← readByte ts
    let (bs, ts) ← readMore n ts
    pure (b :: bs, ts)

/-- An array of `n + 1` bytes. -/
def readArray (n : Nat) : Reader (List Byte) := fun ts => do
  let (_, ts) ← expect ['['] ts
  let (b, ts) ← readByte ts
  let (bs, ts) ← readMore n ts
  let (_, ts) ← expect [']'] ts
  pure (b :: bs, ts)

/-- The next operand, after its comma. -/
def next {α : Type} (r : Reader α) : Reader α := fun ts => do
  let (_, ts) ← expect [','] ts
  r ts

/-- A `cal` operand as its 33 bytes. -/
def readCal : Reader CalOperand := fun ts => do
  let (bs, ts) ← readArray 32 ts
  pure (calOperandAt bs 0, ts)

/-- `name=<code>`, the code a bare number or, for the mode, one of its names (R73). -/
def readField (name : String) : Reader Byte := fun ts => do
  let (_, ts) ← expect name.toList ts
  let (_, ts) ← expect ['='] ts
  token (fun t =>
    if name == "mode" && t == "sleep".toList then some 0
    else if name == "mode" && t == "forced".toList then some 1
    else if name == "mode" && t == "normal".toList then some 3
    else (natValue t).bind fun n => if n < 256 then some (BitVec.ofNat 8 n) else none) ts

/-- A `cfg` operand (R73). -/
def readCfg : Reader Cfg := fun ts => do
  let (_, ts) ← expect [openBrace] ts
  let (h, ts) ← readField "h" ts
  let (p, ts) ← next (readField "p") ts
  let (t, ts) ← next (readField "t") ts
  let (m, ts) ← next (readField "mode") ts
  let (f, ts) ← next (readField "filter") ts
  let (b, ts) ← next (readField "sb") ts
  let (_, ts) ← expect [closeBrace] ts
  pure ({ osrsH := h, osrsP := p, osrsT := t, mode := m, filter := f, tSb := b }, ts)

/-- What a line says: a command or a pseudo-command. -/
inductive Line where
  | command (i : Instr)
  | pseudo (p : Pseudo)
  deriving DecidableEq, Repr

/-- The operands of a mnemonic, read from the tokens after it. -/
def readLine (mnemonic : String) (ts : List Text) : Option (Line × List Text) :=
  let ofCfg (f : Cfg → Instr) : Option (Line × List Text) := (readCfg ts).map fun r => (.command (f r.1), r.2)
  match mnemonic with
  | "WRITE_REG" => do
    let (reg, ts) ← readByte ts
    let (val, ts) ← next readByte ts
    pure (.command (.writeReg reg val), ts)
  | "READ_REGS" => do
    let (reg, ts) ← readByte ts
    let (count, ts) ← next (readNat 8) ts
    pure (.command (.readRegs reg count), ts)
  | "DECODE_TP" => (readArray 23 ts).map fun r => (.command (.decodeTp r.1), r.2)
  | "DECODE_H" => do
    let (c, ts) ← readArray 7 ts
    let (h1, ts) ← next readByte ts
    pure (.command (.decodeH c h1), ts)
  | "UNPACK_RAW" => (readArray 7 ts).map fun r => (.command (.unpackRaw r.1), r.2)
  | "COMP_T" => do
    let (traw, ts) ← readNat 32 ts
    let (cal, ts) ← next readCal ts
    pure (.command (.compT traw cal), ts)
  | "COMP_P" => do
    let (praw, ts) ← readNat 32 ts
    let (tfine, ts) ← next (readInt 32) ts
    let (cal, ts) ← next readCal ts
    pure (.command (.compP praw tfine cal), ts)
  | "COMP_H" => do
    let (hraw, ts) ← readNat 16 ts
    let (tfine, ts) ← next (readInt 32) ts
    let (cal, ts) ← next readCal ts
    pure (.command (.compH hraw tfine cal), ts)
  | "CLAMP" => do
    let (bs, ts) ← readArray 23 ts
    let (flag, ts) ← next readByte ts
    pure (.command (.clamp (leField 64 bs 0 8) (leField 64 bs 8 8) (leField 64 bs 16 8) flag), ts)
  | "COMPENSATE" => do
    let (praw, ts) ← readNat 32 ts
    let (traw, ts) ← next (readNat 32) ts
    let (hraw, ts) ← next (readNat 16) ts
    let (cal, ts) ← next readCal ts
    pure (.command (.compensate praw traw hraw cal), ts)
  | "VALIDATE_CFG" => ofCfg .validateCfg
  | "ENC_CTRL_HUM" => ofCfg .encCtrlHum
  | "ENC_CTRL_MEAS" => ofCfg .encCtrlMeas
  | "ENC_CONFIG" => ofCfg .encConfig
  | "DUR_TYPICAL" => ofCfg .durTypical
  | "DUR_MAX" => ofCfg .durMax
  | "DUR_CYCLE" => ofCfg .durCycle
  | "NEAREST_STANDBY" => (readInt 64 ts).map fun r => (.command (.nearestStandby r.1), r.2)
  | "INIT" => some (.command .init, ts)
  | "CONFIGURE" => ofCfg .configure
  | "SOFT_RESET" => some (.command .softReset, ts)
  | "READ_MEAS" => some (.command .readMeas, ts)
  | "CLOSE" => some (.command .close, ts)
  | "REAPPLY" => some (.pseudo .reapply, ts)
  | "RESET_AND_REAPPLY" => some (.pseudo .resetAndReapply, ts)
  | _ => none

/-- The command or pseudo-command a line of text spells, if it spells one. -/
def parse (cs : Text) : Option Line :=
  match tokens [] cs with
  | [] => none
  | m :: ts =>
    match readLine (String.ofList m) ts with
    | some (l, []) => some l
    | some (_, _ :: _) => none
    | none => none

end Sys2Proof.Machine.Asm
end

