-- ==== Sys2Proof/Tests/Slice0.lean ====
section
/-! SUPPORT. Tests: ill-formed terms refused, words written out from the encodings, one-step checks against the vectors
of spec/95_test_vectors.md, and a witness for the hypotheses of each obligation. -/

namespace Sys2Proof.Tests

open Sys2Proof.Machine

/-! ### Data of spec/95_test_vectors.md -/

def cal1 : List Byte :=
  [0x70, 0x6B, 0x43, 0x67, 0x18, 0xFC, 0x7D, 0x8E, 0x43, 0xD6, 0xD0, 0x0B] ++
  [0x27, 0x0B, 0x8C, 0x00, 0xF9, 0xFF, 0x8C, 0x3C, 0xF8, 0xC6, 0x70, 0x17]

def cal2 : List Byte := [0x6A, 0x01, 0x00, 0x13, 0x29, 0x03, 0x1E, 0x00]

def cal : CalOperand := { blk24 := cal1, blk8 := cal2, h1 := 0x4B }

/-- `CAL1` with P1 = 0. -/
def calNoP1 : CalOperand := { cal with blk24 := cal1.take 6 ++ [0x00, 0x00] ++ cal1.drop 8 }

def dataA : List Byte := [0x65, 0x5A, 0xC0, 0x7E, 0xED, 0x00, 0x6D, 0x3C]

/-- The block 2 of L1-3. -/
def block2 : List Byte := [0x01, 0x02, 0x03, 0xA4, 0x5B, 0x06, 0x07, 0x00]

/-- {1,1,1,normal,0,5}. -/
def cfgA : Cfg := { osrsH := 1, osrsP := 1, osrsT := 1, mode := 3, filter := 0, tSb := 5 }

/-! ### States and draws -/

def ok : Config.Draw := { fails := false, count := 0, bytes := [] }
def fails : Config.Draw := { fails := true, count := 0, bytes := [] }
def wrote (k : Nat) : Config.Draw := { fails := false, count := k, bytes := [] }
def got (bs : List Byte) : Config.Draw := { fails := false, count := 0, bytes := bs }
def writeOk : List Config.Draw := [ok, wrote 2]
def readOk (bs : List Byte) : List Config.Draw := [ok, wrote 1, got bs]

/-- A constructed block whose transport gives the answers `ds`. -/
def uninit (ds : List Config.Draw) : State := { State.reset with devAddr := 0x76, answers := ds }

/-- The same after INIT on the stand-in sensor. -/
def ready (ds : List Config.Draw) : State :=
  { uninit ds with phase := .ready, calValid := true, cal := decodeCal {} cal }

/-- The same after CONFIGURE. -/
def configured (ds : List Config.Draw) : State :=
  { ready ds with phase := .configured, mode := .normal, lastCfg := some cfgA }

def closed : State := { uninit [] with phase := .closed }

def nextOf (o : Host.Outcome State Fault Refusal) : Option State :=
  match o with
  | .next t => some t
  | .fault _ | .refused _ => none

def resultOf (o : Host.Outcome State Fault Refusal) : Option CmdOutcome := (nextOf o).bind (·.result)

/-- What a successful command returns. -/
def valueOf (i : Instr) (s : State) : Option Payload :=
  match resultOf (exec i s) with
  | some (.success p) => some p
  | some (.error _) | some (.refused _) | none => none

/-- The events a command appends. -/
def eventsOf (i : Instr) (s : State) : Option (List Event) :=
  (nextOf (exec i s)).map fun t => t.trace.drop s.trace.length

/-! ### WellFormed refuses (R61) -/

theorem test_illFormed_decodeTp :
    (Instr.decodeTp (List.replicate 23 0)).WellFormed = false := by
  decide

theorem test_illFormed_decodeH :
    (Instr.decodeH (List.replicate 9 0) 0).WellFormed = false := by
  decide

theorem test_illFormed_unpackRaw :
    (Instr.unpackRaw []).WellFormed = false := by
  decide

theorem test_illFormed_compT :
    (Instr.compT 0 { cal with blk24 := [] }).WellFormed = false := by
  decide

theorem test_illFormed_compP :
    (Instr.compP 0 0 { cal with blk8 := [0] }).WellFormed = false := by
  decide

theorem test_illFormed_compH :
    (Instr.compH 0 0 { cal with blk24 := 0 :: cal1 }).WellFormed = false := by
  decide

theorem test_illFormed_compensate :
    (Instr.compensate 0 0 0 { cal with blk8 := 0 :: cal2 }).WellFormed = false := by
  decide

theorem test_wellFormed_compensate :
    (Instr.compensate 0 0 0 cal).WellFormed = true := by
  decide

/-! ### Decoding words written out from R61, R62 and R64 to R66 -/

theorem test_decode_writeReg :
    decode .host [0x01, 0xF4, 0x27] =
    .ok (.writeReg 0xF4 0x27, []) := by
  decide

theorem test_decode_readRegs :
    decode .host [0x02, 0xF7, 0x08] =
    .ok (.readRegs 0xF7 8, []) := by
  decide

theorem test_decode_decodeTp :
    decode .host (0x10 :: cal1) =
    .ok (.decodeTp cal1, []) := by
  decide

theorem test_decode_decodeH :
    decode .host [0x11, 0x01, 0x02, 0x03, 0xA4, 0x5B, 0x06, 0x07, 0x00, 0x4B] =
    .ok (.decodeH block2 0x4B, []) := by
  decide

theorem test_decode_unpackRaw :
    decode .host [0x20, 0x65, 0x5A, 0xC0, 0x7E, 0xED, 0x00, 0x6D, 0x3C] =
    .ok (.unpackRaw dataA, []) := by
  decide

theorem test_decode_compT :
    decode .host ([0x21, 0xD0, 0xEE, 0x07, 0x00] ++ cal1 ++ cal2 ++ [0x4B]) =
    .ok (.compT 519888 cal, []) := by
  decide

theorem test_decode_compP :
    decode .host ([0x22, 0xAC, 0x55, 0x06, 0x00, 0xA6, 0xF5, 0x01, 0x00] ++ cal1 ++ cal2 ++ [0x4B]) =
    .ok (.compP 415148 128422 cal, []) := by
  decide

theorem test_decode_compH :
    decode .host ([0x23, 0x3C, 0x6D, 0xA6, 0xF5, 0x01, 0x00] ++ cal1 ++ cal2 ++ [0x4B]) =
    .ok (.compH 27964 128422 cal, []) := by
  decide

theorem test_decode_clamp :
    decode .host [0x24, 0x00, 0x00, 0x00, 0x00, 0x00, 0x40, 0x55, 0x40, 0x00, 0x00, 0x00, 0x00, 0xE0, 0x4B, 0xDD, 0x40,
    0xCA, 0x5F, 0x6B, 0x00, 0x00, 0x00, 0x59, 0x40, 0x00] =
    .ok (.clamp 0x4055400000000000 0x40DD4BE000000000 0x40590000006B5FCA 0, []) := by
  decide

theorem test_decode_compensate :
    decode .host ([0x25, 0xAC, 0x55, 0x06, 0x00, 0xD0, 0xEE, 0x07, 0x00, 0x3C, 0x6D] ++ cal1 ++ cal2 ++ [0x4B]) =
    .ok (.compensate 415148 519888 27964 cal, []) := by
  decide

theorem test_decode_validateCfg :
    decode .host [0x30, 0x01, 0x01, 0x01, 0x03, 0x00, 0x05] =
    .ok (.validateCfg cfgA, []) := by
  decide

theorem test_decode_encCtrlHum :
    decode .host [0x31, 0x01, 0x01, 0x01, 0x03, 0x00, 0x05] =
    .ok (.encCtrlHum cfgA, []) := by
  decide

theorem test_decode_encCtrlMeas :
    decode .host [0x32, 0x01, 0x01, 0x01, 0x03, 0x00, 0x05] =
    .ok (.encCtrlMeas cfgA, []) := by
  decide

theorem test_decode_encConfig :
    decode .host [0x33, 0x01, 0x01, 0x01, 0x03, 0x00, 0x05] =
    .ok (.encConfig cfgA, []) := by
  decide

theorem test_decode_durTypical :
    decode .host [0x34, 0x01, 0x01, 0x01, 0x03, 0x00, 0x05] =
    .ok (.durTypical cfgA, []) := by
  decide

theorem test_decode_durMax :
    decode .host [0x35, 0x01, 0x01, 0x01, 0x03, 0x00, 0x05] =
    .ok (.durMax cfgA, []) := by
  decide

theorem test_decode_durCycle :
    decode .host [0x36, 0x01, 0x01, 0x01, 0x03, 0x00, 0x05] =
    .ok (.durCycle cfgA, []) := by
  decide

theorem test_decode_nearestStandby :
    decode .host [0x37, 0xA0, 0x86, 0x01, 0x00, 0x00, 0x00, 0x00, 0x00] =
    .ok (.nearestStandby 100000, []) := by
  decide

theorem test_decode_init :
    decode .host [0x40] =
    .ok (.init, []) := by
  decide

theorem test_decode_configure :
    decode .host [0x41, 0x01, 0x01, 0x01, 0x03, 0x00, 0x05] =
    .ok (.configure cfgA, []) := by
  decide

theorem test_decode_softReset :
    decode .host [0x42] =
    .ok (.softReset, []) := by
  decide

theorem test_decode_readMeas :
    decode .host [0x43] =
    .ok (.readMeas, []) := by
  decide

theorem test_decode_close :
    decode .host [0x44] =
    .ok (.close, []) := by
  decide

theorem test_decode_rdId :
    decode .bus [0xD0] =
    .ok (.rdId, []) := by
  decide

theorem test_decode_rdCal1 :
    decode .bus [0x88] =
    .ok (.rdCal1, []) := by
  decide

theorem test_decode_rdCal2 :
    decode .bus [0xE1] =
    .ok (.rdCal2, []) := by
  decide

theorem test_decode_rdCalH1 :
    decode .bus [0xA1] =
    .ok (.rdCalH1, []) := by
  decide

theorem test_decode_rdData :
    decode .bus [0xF7] =
    .ok (.rdData, []) := by
  decide

theorem test_decode_wrCtrlHum :
    decode .bus [0xF2, 0x27] =
    .ok (.wrCtrlHum 0x27, []) := by
  decide

theorem test_decode_wrCtrlMeas :
    decode .bus [0xF4, 0x27] =
    .ok (.wrCtrlMeas 0x27, []) := by
  decide

theorem test_decode_wrConfig :
    decode .bus [0xF5, 0x27] =
    .ok (.wrConfig 0x27, []) := by
  decide

theorem test_decode_wrReset :
    decode .bus [0xE0, 0xB6] =
    .ok (.wrReset, []) := by
  decide

theorem test_decode_undefined :
    decode .host [0x03] = .error .undefinedOpcode := by
  decide

theorem test_decode_truncated :
    decode .host [0x41, 0x01, 0x01] = .error .truncatedCommand := by
  decide

theorem test_decode_noFrame :
    decode .bus [0xE0, 0x00] = .error .notAFrame := by
  decide

/-! ### The table's numbered words -/

theorem test_tableWord_configure :
    decodeTableWord 56 0x05000301010141 = some (.configure cfgA) := by
  decide +kernel

theorem test_tableWord_wrReset :
    decodeTableWord 16 0xE0B6 = some .wrReset := by
  decide +kernel

theorem test_tableWord_rdData :
    decodeTableWord 8 0xF7 = some .rdData := by
  decide +kernel

theorem test_tableWord_operandsZero :
    decodeTableWord 8 0x22 = some (.compP 0 0
    { blk24 := List.replicate 24 0, blk8 := List.replicate 8 0, h1 := 0 }) := by
  decide +kernel

theorem test_withFetchWord_init :
    resultOf (step ((uninit [fails]).withFetchWord 8 0x40)) = some (.error (.busError .selectFailed)) := by
  decide +kernel

theorem test_withFetchWord_wrReset :
    (nextOf (step ((uninit writeOk).withFetchWord 16 0xE0B6))).map (·.trace) =
    some [.sel 0x76 .ok, .w [0xE0, 0xB6] (.wrote 2)] := by
  decide +kernel

/-! ### Register access (L2-1) -/

theorem test_writeReg :
    eventsOf (.writeReg 0xF4 0x27) (ready [ok, wrote 1]) = some [.sel 0x76 .ok, .w [0xF4, 0x27] (.wrote 1)] := by
  decide

theorem test_writeReg_short :
    resultOf (exec (.writeReg 0xF4 0x27) (ready [ok, wrote 1])) = some (.error (.busError .shortWrite)) := by
  decide

theorem test_readRegs :
    valueOf (.readRegs 0xD0 1) (ready (readOk [0x60])) = some (.bytes [0x60]) := by
  decide

theorem test_readRegs_badBurst :
    resultOf (exec (.readRegs 0xFF 2) (ready [])) = some (.refused .badBurst) := by
  decide

theorem test_rdCal2_short :
    resultOf (exec .rdCal2 (ready (readOk [0x6A]))) = some (.error (.busError .shortRead)) := by
  decide

theorem test_wrReset_noDelay :
    eventsOf .wrReset (configured writeOk) = some [.sel 0x76 .ok, .w [0xE0, 0xB6] (.wrote 2)] := by
  decide

/-! ### Calibration (L2-2, L2-3) -/

theorem test_decodeTp :
    valueOf (.decodeTp cal1) (uninit []) = some (.tp
    { t1 := 27504, t2 := 26435, t3 := -1000, p1 := 36477, p2 := -10685, p3 := 3024, p4 := 2855, p5 := 140, p6 := -7,
      p7 := 15500, p8 := -14600, p9 := 6000 }) := by
  decide

theorem test_decodeH :
    valueOf (.decodeH [0x00, 0x80, 0xFF, 0x7F, 0xFF, 0x80, 0x80, 0xAA] 0xFF) (uninit []) =
    some (.hu { h1 := 255, h2 := -32768, h3 := 255, h4 := 2047, h5 := 2063, h6 := -128 }) := by
  decide

theorem test_decodeH_signExtend :
    valueOf (.decodeH block2 0x4B) { uninit [] with params := { h45SignExtend := true } } =
    some (.hu { h1 := 75, h2 := 513, h3 := 3, h4 := -1461, h5 := 101, h6 := 7 }) := by
  decide

/-! ### Compensation (L2-4 to L2-9) -/

theorem test_unpackRaw :
    valueOf (.unpackRaw [0x65, 0x5A, 0xCF, 0x7E, 0xED, 0x0F, 0x6D, 0x3C]) (uninit []) =
    some (.raw 415148 519888 27964) := by
  decide

theorem test_compT :
    valueOf (.compT 519888 cal) (uninit []) = some (.temp 0x4039151D460F8000 128422) := by
  decide +kernel

theorem test_compT_towardZero :
    valueOf (.compT 0 { cal with blk24 := [0xFF, 0xFF, 0xFF, 0x7F, 0xFF, 0x7F] ++ cal1.drop 6 }) (uninit []) =
    some (.temp 0xBF79994CCD000000 (-31)) := by
  decide +kernel

theorem test_compP :
    valueOf (.compP 415148 128422 cal) (uninit []) = some (.press 0x40F892D4215C750E false) := by
  decide +kernel

theorem test_compP_sentinel :
    valueOf (.compP 415148 128422 calNoP1) (uninit []) = some (.press 0 true) := by
  decide +kernel

theorem test_compH :
    valueOf (.compH 27964 128422 cal) (uninit []) = some (.humid 0x4045D44AC97F6A50) := by
  decide +kernel

theorem test_compH_noLimiter :
    valueOf (.compH 65535 128422 cal) (uninit []) = some (.humid 0x406EDB889A606709) := by
  decide +kernel

theorem test_clamp :
    valueOf (.clamp 0xC044000000000001 0x40DD4C0000000000 0x40590000006B5FCA 0) (uninit []) =
    some (.meas { t := 0xFFF0000000000000, p := 0x40DD4C0000000000, h := 0x7FF0000000000000 }) := by
  decide +kernel

theorem test_clamp_sentinel :
    valueOf (.clamp 0x4039000000000000 0 0x4049000000000000 0xFF) (uninit []) =
    some (.meas { t := 0x4039000000000000, p := 0, h := 0x4049000000000000 }) := by
  decide +kernel

theorem test_compensate :
    valueOf (.compensate 1048575 1048575 65535 cal) (uninit []) =
    some (.meas { t := 0x7FF0000000000000, p := 0xFFF0000000000000, h := 0x7FF0000000000000 }) := by
  decide +kernel

theorem test_compensate_skipCodes :
    valueOf (.compensate 524288 524288 32768 cal) (uninit []) =
    some (.meas { t := 0x403A75F9CB800000, p := 0x40F407C871FE9740, h := 0x40519D20979F9CF6 }) := by
  decide +kernel

/-! ### Configuration (L2-10, L2-11) -/

theorem test_validateCfg :
    resultOf (exec (.validateCfg { osrsH := 1, osrsP := 8, osrsT := 9, mode := 2, filter := 0, tSb := 0 }) closed) =
    some (.error (.configurationError .osrsP 8)) := by
  decide

theorem test_encCtrlHum :
    valueOf (.encCtrlHum { osrsH := 2, osrsP := 5, osrsT := 1, mode := 1, filter := 4, tSb := 0 }) (uninit []) =
    some (.regVal 0x02) := by
  decide

theorem test_encCtrlMeas :
    valueOf (.encCtrlMeas { osrsH := 2, osrsP := 5, osrsT := 1, mode := 1, filter := 4, tSb := 0 }) (uninit []) =
    some (.regVal 0x35) := by
  decide

theorem test_encConfig :
    valueOf (.encConfig { osrsH := 5, osrsP := 5, osrsT := 5, mode := 3, filter := 4, tSb := 7 }) (uninit []) =
    some (.regVal 0x78) := by
  decide

theorem test_encConfig_vendor :
    valueOf (.encConfig { osrsH := 5, osrsP := 5, osrsT := 5, mode := 3, filter := 4, tSb := 7 })
    { uninit [] with params := { configLayout := .vendor } } = some (.regVal 0xF0) := by
  decide

theorem test_durTypical :
    valueOf (.durTypical { osrsH := 5, osrsP := 5, osrsT := 5, mode := 3, filter := 4, tSb := 7 }) (uninit []) =
    some (.duration 118000) := by
  decide

theorem test_durMax :
    valueOf (.durMax { osrsH := 2, osrsP := 5, osrsT := 1, mode := 1, filter := 4, tSb := 0 }) closed =
    some (.duration 46100) := by
  decide

theorem test_durCycle :
    valueOf (.durCycle { osrsH := 0, osrsP := 0, osrsT := 0, mode := 3, filter := 0, tSb := 0 }) (uninit []) =
    some (.duration 1750) := by
  decide

theorem test_nearestStandby :
    valueOf (.nearestStandby 100000) (uninit []) = some (.standby 2) := by
  decide

theorem test_nearestStandby_tie :
    valueOf (.nearestStandby 375000) { uninit [] with ties := [1] } = some (.standby 4) := by
  decide

/-! ### The façade (L2-12, programs 1, 2 and 4) -/

theorem test_init :
    (nextOf (exec .init (uninit (readOk [0x60] ++ readOk cal1 ++ readOk cal2 ++ readOk [0x4B])))).map
    (fun t => (t.phase, t.calValid, decide (t.cal = decodeCal {} cal), t.trace.length)) = some (.ready, true, true, 12) := by
  decide +kernel

theorem test_init_shortBlock2 :
    resultOf (exec .init (uninit (readOk [0x60] ++ readOk cal1 ++ readOk [0x6A, 0x01]))) =
    some (.error (.calibrationReadError .shortRead)) := by
  decide +kernel

theorem test_configure :
    eventsOf (.configure cfgA) (ready (writeOk ++ writeOk ++ writeOk)) =
    some [.sel 0x76 .ok, .w [0xF2, 0x01] (.wrote 2), .sel 0x76 .ok, .w [0xF4, 0x27] (.wrote 2), .sel 0x76 .ok,
      .w [0xF5, 0x50] (.wrote 2)] := by
  decide

theorem test_configure_uninit :
    resultOf (exec (.configure { osrsH := 1, osrsP := 8, osrsT := 1, mode := 3, filter := 0, tSb := 5 }) (uninit [])) =
    some (.refused .notInitialized) := by
  decide

theorem test_softReset :
    (nextOf (exec .softReset (configured writeOk))).map (fun t => (t.phase, t.mode, t.lastCfg, t.trace)) =
    some (.ready, .none, some cfgA, [.sel 0x76 .ok, .w [0xE0, 0xB6] (.wrote 2), .dly 2000]) := by
  decide

theorem test_softReset_reapplies :
    (nextOf (exec .softReset { configured (writeOk ++ writeOk ++ writeOk ++ writeOk) with
    params := { resetReappliesConfig := true } })).map (fun t => (t.phase, t.mode, t.trace.length)) =
    some (.configured, .normal, 9) := by
  decide

theorem test_readMeas :
    (nextOf (exec .readMeas { configured (readOk dataA) with mode := .forcedPending })).map (fun t => (t.mode, t.result)) =
    some (.sleep, some (.success (.meas { t := 0x4039151D460F8000, p := 0x40F892D4215C750E, h := 0x4045D44AC97F6A50 }))) := by
  decide +kernel

theorem test_close :
    (nextOf (exec .close (configured []))).map (fun t => (t.phase, t.mode, t.trace)) = some (.closed, .none, []) := by
  decide

theorem test_close_twice :
    resultOf (exec .close closed) = some (.success .none) := by
  decide

/-! ### The step, errors, pseudo-commands and text (R63, R73, R74, R231) -/

theorem test_step_undefinedOpcode :
    (nextOf (step { uninit [] with hostIn := [0x03, 0x44] })).map (fun t => (t.result, t.refusalMark, t.hostIn)) =
    some (some (.refused .undefinedOpcode), true, [0x44]) := by
  decide

theorem test_step_truncated :
    (nextOf (step { uninit [] with hostIn := [0x41, 0x01, 0x01] })).map (fun t => (t.result, t.hostIn)) =
    some (some (.refused .truncatedCommand), []) := by
  decide

theorem test_step_idle :
    nextOf (step (configured [])) = some (configured []) := by
  decide +kernel

theorem test_errorCodes :
    [CmdError.busError .closed, .identityMismatch 0, .calibrationReadError .closed, .configurationError .mode 2].map
    CmdError.code = [1, 2, 3, 4] := by
  decide

theorem test_reapply_none :
    (runPseudo .reapply (ready [])).result = some (.refused .noLastConfig) := by
  decide

theorem test_resetAndReapply :
    (runPseudo .resetAndReapply (configured (writeOk ++ writeOk ++ writeOk ++ writeOk))).trace.length = 9 := by
  decide

theorem test_text_configure :
    Asm.text (.configure cfgA) = some ("CONFIGURE ".toList ++ [Asm.openBrace] ++
    "h=1, p=1, t=1, mode=normal, filter=0, sb=5".toList ++ [Asm.closeBrace]) := by
  decide +kernel

theorem test_parse_decodeH :
    Asm.parse "DECODE_H [0x01, 0x02, 0x03, 0xA4, 0x5B, 0x06, 0x07, 0x00], 0x4B  ; L1-3".toList =
    some (.command (.decodeH block2 0x4B)) := by
  decide +kernel

/-! ### Witnesses: for each obligation with hypotheses, a state and operands that meet them -/

/-- The draws of a whole bring-up. -/
def bringUp : List Config.Draw := readOk [0x60] ++ readOk cal1 ++ readOk cal2 ++ readOk [0x4B]

theorem uninit_inv (ds : List Config.Draw) : (uninit ds).Inv where
  modeNone _ := rfl
  modeOfCfg h := by cases h
  calLoaded h := by rcases h with h | h <;> cases h
  calAbsent _ := rfl
  cfgNeedsCal _ := rfl
  cfgValid c h := by cases h
  selOwn := .inl rfl
  refusalMarked _ h := by cases h

theorem witness_DecodeOfEncodeIsTheInstruction : (Instr.compensate 0xFFFFFFFF 0 0xFFFF cal).WellFormed = true := by decide

theorem witness_EncodeOfDecodeIsTheBytesRead :
    decode .host [0x42, 0x43] = .ok (.softReset, [0x43]) ∧ decode .bus [0xF5, 0x10, 0xD0] = .ok (.wrConfig 0x10, [0xD0]) := by
  decide

theorem witness_CommandLengthIsFixedByTheOpcode_short :
    commandLength (0x11 : Byte).toNat = some 10 ∧ (block2 : List Byte).length + 1 < 10 := by decide

theorem witness_CommandLengthIsFixedByTheOpcode_enough :
    commandLength (0x11 : Byte).toNat = some 10 ∧ 10 ≤ (block2 ++ [0x4B]).length + 1 := by decide

theorem witness_StepRunsTheDecodedInstruction :
    (State.reset.frameIn = [] ∧
      decode .host { State.reset with hostIn := [0x44] }.hostIn = .ok (.close, [])) ∧
    decode .bus { State.reset with frameIn := [0xF7] }.frameIn = .ok (.rdData, []) := by decide

theorem witness_StepRefusesWhatIsNoCommand :
    State.reset.frameIn = [] ∧
    decode .host { State.reset with hostIn := [0x45] }.hostIn = .error .undefinedOpcode ∧
    decode .host { State.reset with hostIn := [0x01, 0xF4] }.hostIn = .error .truncatedCommand ∧
    State.reset.hostIn = [] := by decide

theorem witness_PlacedTableWordIsTheNextInstruction_host : decodeTableWord 24 0x27F401 = some (.writeReg 0xF4 0x27) := by
  decide +kernel

theorem witness_PlacedTableWordIsTheNextInstruction_bus : decodeTableWord 8 0xA1 = some .rdCalH1 := by decide +kernel

theorem witness_RefusalWritesOnlyItsMarkAndSpoilsTheRun_command :
    ∃ t, exec .readMeas (uninit []) = .next t ∧ t.result = some (.refused .notInitialized) := ⟨_, rfl, rfl⟩

theorem witness_RefusalWritesOnlyItsMarkAndSpoilsTheRun_mark :
    ∃ t, { closed with refusalMark := true, hostIn := [0x44] }.refusalMark = true ∧
      step { closed with refusalMark := true, hostIn := [0x44] } = .next t := ⟨_, rfl, rfl⟩

/-- A run of two commands, refused at the first: READ_MEAS before INIT, then CLOSE. -/
theorem witness_RefusalWritesOnlyItsMarkAndSpoilsTheRun_run :
    ∃ t, { uninit [] with hostIn := [0x43, 0x44] }.Inv ∧
      Sys2Proof.core.run 1 { uninit [] with hostIn := [0x43, 0x44] } = .next t ∧
      t.result = some (.refused .notInitialized) :=
  ⟨_, { uninit_inv [] with }, rfl, rfl⟩

/-- A claim about a run without a refusal does hold: INIT leaves the block ready (R201). -/
theorem test_run_claim : RunClaim { uninit bringUp with hostIn := [0x40] } 1 fun t => t.phase = .ready :=
  ⟨_, rfl, rfl, rfl⟩

theorem witness_FailedCommandKeepsTheRecord_same :
    ∃ t, exec .readMeas (configured [fails]) = .next t ∧ t.result = some (.error (.busError .selectFailed)) :=
  ⟨_, rfl, rfl⟩

theorem witness_FailedCommandKeepsTheRecord_nested :
    ∃ t, exec .softReset { configured (writeOk ++ [fails]) with params := { resetReappliesConfig := true } } = .next t ∧
      t.result = some (.error (.busError .selectFailed)) := ⟨_, rfl, rfl⟩

theorem witness_ClosedBlockRaisesBusErrorClosed : closed.phase = .closed ∧ touchesBus (.readRegs 0xFF 2) = true := by decide

theorem witness_UninitialisedBlockRefusesConfigureAndRead : (uninit []).phase = .uninit := rfl

theorem witness_UnwrittenCalibrationIsNotRead :
    ({ ready [] with calValid := false }.phase = .ready ∨ { ready [] with calValid := false }.phase = .configured) ∧
    { ready [] with calValid := false }.calValid = false := by decide

theorem witness_OperandOutsideItsDomainIsRefused :
    ((ready []).phase ≠ .closed ∧ 256 < (0xFF : Byte).toNat + (0x02 : Byte).toNat) ∧ (0 : Byte).toNat = 0 ∧
    2 ^ 20 ≤ (1048576#32).toNat := by decide

theorem witness_InvalidConfigurationIsRejectedBeforeAnyWrite_fields :
    (8 : Byte) = { cfgA with osrsH := 8 }.osrsH ∧ 7 < (8 : Byte).toNat ∧
    (8 : Byte) = { cfgA with osrsP := 8 }.osrsP ∧ { cfgA with osrsP := 8 }.osrsH.toNat ≤ 7 ∧
    (255 : Byte) = { cfgA with osrsT := 255 }.osrsT ∧ 7 < (255 : Byte).toNat ∧
    { cfgA with osrsT := 255 }.osrsH.toNat ≤ 7 ∧ { cfgA with osrsT := 255 }.osrsP.toNat ≤ 7 := by decide

theorem witness_InvalidConfigurationIsRejectedBeforeAnyWrite_mode :
    (2 : Byte) = { cfgA with mode := 2 }.mode ∧ (2 : Byte) ≠ 0 ∧ (2 : Byte) ≠ 1 ∧ (2 : Byte) ≠ 3 ∧
    cfgA.osrsH.toNat ≤ 7 ∧ cfgA.osrsP.toNat ≤ 7 ∧ cfgA.osrsT.toNat ≤ 7 := by decide

theorem witness_InvalidConfigurationIsRejectedBeforeAnyWrite_last :
    (8 : Byte) = { cfgA with filter := 8 }.filter ∧ (8 : Byte) = { cfgA with tSb := 8 }.tSb ∧ 7 < (8 : Byte).toNat ∧
    cfgA.osrsH.toNat ≤ 7 ∧ cfgA.osrsP.toNat ≤ 7 ∧ cfgA.osrsT.toNat ≤ 7 ∧
    (cfgA.mode = 0 ∨ cfgA.mode = 1 ∨ cfgA.mode = 3) ∧ cfgA.filter.toNat ≤ 7 ∧
    ((ready []).phase = .ready ∨ (ready []).phase = .configured) := by decide

theorem witness_RegisterWriteCompletes :
    writeOf (.writeReg 0x00 0xFF) = some (0x00, 0xFF) ∧ writeOf (.wrCtrlHum 1) = some (0xF2, 1) ∧
    writeOf (.wrCtrlMeas 1) = some (0xF4, 1) ∧ writeOf (.wrConfig 1) = some (0xF5, 1) ∧
    writeOf .wrReset = some (0xE0, 0xB6) ∧ (uninit writeOk).phase ≠ .closed ∧ (uninit writeOk).writeGoesThrough 0 :=
  ⟨rfl, rfl, rfl, rfl, rfl, by decide, rfl, rfl, by decide⟩

theorem witness_RegisterReadCompletes :
    readOf (.readRegs 0xFF 1) = some (0xFF, 1) ∧ readOf .rdId = some (0xD0, 1) ∧ readOf .rdCal1 = some (0x88, 24) ∧
    readOf .rdCal2 = some (0xE1, 8) ∧ readOf .rdCalH1 = some (0xA1, 1) ∧ readOf .rdData = some (0xF7, 8) ∧
    (uninit (readOk dataA)).phase ≠ .closed ∧ (uninit (readOk dataA)).readGives 0 8 dataA ∧
    (uninit (readOk [0x60])).readGives 0 1 [0x60] ∧ (uninit (readOk cal1)).readGives 0 24 cal1 :=
  ⟨rfl, rfl, rfl, rfl, rfl, rfl, by decide, ⟨rfl, rfl, by decide, rfl, rfl, rfl⟩, ⟨rfl, rfl, by decide, rfl, rfl, rfl⟩,
    ⟨rfl, rfl, by decide, rfl, rfl, rfl⟩⟩

theorem witness_RegisterWriteFailsWithItsCause :
    (uninit []).phase ≠ .closed ∧ ((uninit [fails]).upcoming 0).fails = true ∧
    (((uninit [ok, fails]).upcoming 0).fails = false ∧ ((uninit [ok, fails]).upcoming 1).fails = true) ∧
    (((uninit [ok, wrote 1]).upcoming 0).fails = false ∧ ((uninit [ok, wrote 1]).upcoming 1).fails = false ∧
      ((uninit [ok, wrote 1]).upcoming 1).count < 2) := by decide

theorem witness_RegisterReadFailsWithItsCause :
    (uninit []).phase ≠ .closed ∧ ((uninit [fails]).upcoming 0).fails = true ∧
    ((uninit [ok, fails]).upcoming 1).fails = true ∧ ((uninit [ok, wrote 0]).upcoming 1).count = 0 ∧
    (((uninit [ok, wrote 1, fails]).upcoming 0).fails = false ∧
      ((uninit [ok, wrote 1, fails]).upcoming 1).fails = false ∧
      1 ≤ ((uninit [ok, wrote 1, fails]).upcoming 1).count ∧
      ((uninit [ok, wrote 1, fails]).upcoming 2).fails = true) ∧
    (((uninit [ok, wrote 1, got []]).upcoming 2).fails = false ∧
      ((uninit [ok, wrote 1, got []]).upcoming 2).bytes.length < 1) := by decide

theorem witness_StepAppendsOnlyFramedTransactions :
    ∃ t, step { uninit [ok, fails] with hostIn := [0x40] } = .next t := ⟨_, rfl⟩

theorem witness_FacadeEmitsOnlyItsTransactions :
    ∃ t, (configured []).params.resetReappliesConfig = false ∧ exec .softReset (configured writeOk) = .next t ∧
      t.result = some (.success .none) := ⟨_, rfl, rfl, rfl⟩

theorem witness_InitCompletes :
    (uninit bringUp).phase ≠ .closed ∧ (uninit bringUp).readGives 0 1 [0x60] ∧ (uninit bringUp).readGives 3 24 cal1 ∧
    (uninit bringUp).readGives 6 8 cal2 ∧ (uninit bringUp).readGives 9 1 [0x4B] :=
  ⟨by decide, ⟨rfl, rfl, by decide, rfl, rfl, rfl⟩, ⟨rfl, rfl, by decide, rfl, rfl, rfl⟩,
    ⟨rfl, rfl, by decide, rfl, rfl, rfl⟩, ⟨rfl, rfl, by decide, rfl, rfl, rfl⟩⟩

theorem witness_InitRejectsAnotherIdentity :
    (uninit (readOk [0x61])).phase ≠ .closed ∧ (uninit (readOk [0x61])).readGives 0 1 [0x61] ∧ (0x61 : Byte) ≠ 0x60 :=
  ⟨by decide, ⟨rfl, rfl, by decide, rfl, rfl, rfl⟩, by decide⟩

theorem witness_InitWrapsCalibrationReadFailures_identity :
    (uninit [fails]).phase ≠ .closed ∧ ∃ f, (uninit [fails]).ReadFails 0 0xD0 1 f :=
  ⟨by decide, _, .select rfl⟩

theorem witness_InitWrapsCalibrationReadFailures_block1 (s : State) (hs : s = uninit (readOk [0x60] ++ [ok, fails])) :
    s.phase ≠ .closed ∧ s.readGives 0 1 [0x60] ∧ ∃ f, s.ReadFails 3 0x88 24 f := by
  subst hs
  exact ⟨by decide, ⟨rfl, rfl, by decide, rfl, rfl, rfl⟩, _, .address rfl rfl⟩

theorem witness_InitWrapsCalibrationReadFailures_block2 (s : State)
    (hs : s = uninit (readOk [0x60] ++ readOk cal1 ++ [ok, wrote 1, got (cal2.take 7)])) :
    s.phase ≠ .closed ∧ s.readGives 0 1 [0x60] ∧ s.readGives 3 24 cal1 ∧ ∃ f, s.ReadFails 6 0xE1 8 f := by
  subst hs
  exact ⟨by decide, ⟨rfl, rfl, by decide, rfl, rfl, rfl⟩, ⟨rfl, rfl, by decide, rfl, rfl, rfl⟩, _,
    .shortRead rfl rfl (by decide) rfl (by decide)⟩

theorem witness_InitWrapsCalibrationReadFailures_h1 (s : State)
    (hs : s = uninit (readOk [0x60] ++ readOk cal1 ++ readOk cal2 ++ [ok, wrote 1, fails])) :
    s.phase ≠ .closed ∧ s.readGives 0 1 [0x60] ∧ s.readGives 3 24 cal1 ∧ s.readGives 6 8 cal2 ∧
    ∃ f, s.ReadFails 9 0xA1 1 f := by
  subst hs
  exact ⟨by decide, ⟨rfl, rfl, by decide, rfl, rfl, rfl⟩, ⟨rfl, rfl, by decide, rfl, rfl, rfl⟩,
    ⟨rfl, rfl, by decide, rfl, rfl, rfl⟩, _, .read rfl rfl (by decide) rfl⟩

theorem witness_ConfigureCompletes (s : State) (hs : s = ready (writeOk ++ writeOk ++ writeOk)) :
    (s.phase = .ready ∨ s.phase = .configured) ∧ cfgA.osrsH.toNat ≤ 7 ∧ cfgA.osrsP.toNat ≤ 7 ∧ cfgA.osrsT.toNat ≤ 7 ∧
    (cfgA.mode = 0 ∨ cfgA.mode = 1 ∨ cfgA.mode = 3) ∧ cfgA.filter.toNat ≤ 7 ∧ cfgA.tSb.toNat ≤ 7 ∧
    s.writeGoesThrough 0 ∧ s.writeGoesThrough 2 ∧ s.writeGoesThrough 4 := by
  subst hs
  exact ⟨.inl rfl, by decide, by decide, by decide, by decide, by decide, by decide, ⟨rfl, rfl, by decide⟩,
    ⟨rfl, rfl, by decide⟩, ⟨rfl, rfl, by decide⟩⟩

theorem witness_FacadeCommandsFailWithTheirCause_first :
    ((ready [fails]).phase = .ready ∨ (ready [fails]).phase = .configured) ∧ cfgAccepted cfgA = true ∧
    ∃ f, (ready [fails]).WriteFails 0 0xF2 (ctrlHumOf cfgA) f := ⟨.inl rfl, by decide, _, .select rfl⟩

theorem witness_FacadeCommandsFailWithTheirCause_second (s : State) (hs : s = configured (writeOk ++ [ok, fails])) :
    (s.phase = .ready ∨ s.phase = .configured) ∧ cfgAccepted cfgA = true ∧ s.writeGoesThrough 0 ∧
    ∃ f, s.WriteFails 2 0xF4 (ctrlMeasOf cfgA) f := by
  subst hs
  exact ⟨.inr rfl, by decide, ⟨rfl, rfl, by decide⟩, _, .frame rfl rfl⟩

theorem witness_FacadeCommandsFailWithTheirCause_third (s : State)
    (hs : s = configured (writeOk ++ writeOk ++ [ok, wrote 1])) :
    (s.phase = .ready ∨ s.phase = .configured) ∧ cfgAccepted cfgA = true ∧ s.writeGoesThrough 0 ∧
    s.writeGoesThrough 2 ∧ ∃ f, s.WriteFails 4 0xF5 (configOf s.params.configLayout cfgA) f := by
  subst hs
  exact ⟨.inr rfl, by decide, ⟨rfl, rfl, by decide⟩, ⟨rfl, rfl, by decide⟩, _, .short rfl rfl (by decide)⟩

theorem witness_FacadeCommandsFailWithTheirCause_reset :
    (uninit [ok, wrote 0]).phase ≠ .closed ∧ ∃ f, (uninit [ok, wrote 0]).WriteFails 0 0xE0 0xB6 f :=
  ⟨by decide, _, .short rfl rfl (by decide)⟩

theorem witness_FacadeCommandsFailWithTheirCause_read (s : State) (hs : s = ready [ok, wrote 0]) :
    (s.phase = .ready ∨ s.phase = .configured) ∧ s.calValid = true ∧ ∃ f, s.ReadFails 0 0xF7 8 f := by
  subst hs
  exact ⟨.inl rfl, rfl, _, .shortAddress rfl rfl rfl⟩

theorem witness_SoftResetCompletes_plain :
    (configured writeOk).phase ≠ .closed ∧ (configured writeOk).writeGoesThrough 0 ∧
    (configured writeOk).params.resetReappliesConfig = false := ⟨by decide, ⟨rfl, rfl, by decide⟩, rfl⟩

theorem witness_SoftResetCompletes_reapplied (s : State)
    (hs : s = { configured writeOk with params := { resetReappliesConfig := true } }) :
    s.phase ≠ .closed ∧ s.writeGoesThrough 0 ∧ s.params.resetReappliesConfig = true ∧ s.calValid = true ∧
    s.lastCfg = some cfgA := by
  subst hs
  exact ⟨by decide, ⟨rfl, rfl, by decide⟩, rfl, rfl, rfl⟩

theorem witness_ReadMeasCompletes :
    ((ready (readOk dataA)).phase = .ready ∨ (ready (readOk dataA)).phase = .configured) ∧
    (ready (readOk dataA)).calValid = true ∧ (ready (readOk dataA)).readGives 0 8 dataA :=
  ⟨.inl rfl, rfl, ⟨rfl, rfl, by decide, rfl, rfl, rfl⟩⟩

theorem witness_PhaseChangesOnlyByFacadeTransitions :
    ∃ t, exec .softReset (configured writeOk) = .next t ∧ t.phase ≠ (configured writeOk).phase := ⟨_, rfl, by decide⟩

theorem witness_ModeChangesOnlyByFacadeTransitions :
    ∃ t, exec .close (configured []) = .next t ∧ t.mode ≠ (configured []).mode := ⟨_, rfl, by decide⟩

theorem witness_CalibrationIsWrittenOnlyBySuccessfulInit : ∃ t, exec .init (uninit bringUp) = .next t := ⟨_, rfl⟩

theorem witness_LastConfigurationIsWrittenOnlyBySuccess :
    ∃ t, exec (.configure cfgA) (ready (writeOk ++ writeOk ++ writeOk)) = .next t ∧
      t.lastCfg ≠ (ready (writeOk ++ writeOk ++ writeOk)).lastCfg := ⟨_, rfl, by decide⟩

theorem witness_AddressAndParametersNeverChange : ∃ t, step { closed with hostIn := [0x44] } = .next t := ⟨_, rfl⟩

theorem witness_DatapathCommandsWriteNoState :
    ∃ t, isDatapath (.validateCfg cfgA) = true ∧ exec (.validateCfg cfgA) closed = .next t ∧
      ∀ r, Instr.validateCfg cfgA ≠ .nearestStandby r := ⟨_, rfl, rfl, by simp⟩

theorem witness_DatapathOutcomeDependsOnOperandsAlone :
    ∃ s' t', isDatapath (.durMax cfgA) = true ∧ closed.params = (configured [fails]).params ∧
      (∀ r, Instr.durMax cfgA = .nearestStandby r → closed.ties = (configured [fails]).ties ∧
        closed.tiesDrawn = (configured [fails]).tiesDrawn) ∧
      exec (.durMax cfgA) closed = .next s' ∧ exec (.durMax cfgA) (configured [fails]) = .next t' :=
  ⟨_, _, rfl, rfl, by simp, rfl, rfl⟩

theorem configured_inv (ds : List Config.Draw) : (configured ds).Inv where
  modeNone h := absurd rfl h
  modeOfCfg _ := ⟨cfgA, rfl, .inl rfl⟩
  calLoaded _ := rfl
  calAbsent h := by cases h
  cfgNeedsCal h := by cases h
  cfgValid c h := by cases h; decide
  selOwn := .inl rfl
  refusalMarked _ h := by cases h

theorem witness_RecordInvariantIsKeptByEveryStep :
    ∃ t, { configured writeOk with hostIn := [0x42] }.Inv ∧ step { configured writeOk with hostIn := [0x42] } = .next t :=
  ⟨_, { configured_inv writeOk with }, rfl⟩

theorem witness_FloatOperationsRoundToNearestEven :
    F64.isFinite 0x7FEFFFFFFFFFFFFF = true ∧ F64.isFinite 0x8000000000000001 = true ∧
    F64.isZero 0x8000000000000001 = false := by decide

theorem witness_IntegerConversionIsExact : (-(2 ^ 53 - 1) : Int).natAbs < 2 ^ 53 := by decide

theorem witness_FloatComparisonIsTheOrderOfValues :
    F64.isFinite 0x8000000000000000 = true ∧ F64.isFinite 0x0000000000000000 = true ∧
    F64.isNaN 0x7FF8000000000000 = true := by decide

theorem witness_CompTCompletes : (1048575#32).toNat < 2 ^ 20 := by decide

theorem witness_CompPCompletes_value :
    (415148#32).toNat < 2 ^ 20 ∧ (compP 415148 128422 (decodeCal {} cal).tp).2 = false := by decide +kernel

theorem witness_CompPCompletes_sentinel :
    (0#32).toNat < 2 ^ 20 ∧ (compP 0 128422 (decodeCal {} calNoP1).tp).2 = true := by decide +kernel

theorem witness_ZeroP1GivesThePressureSentinel : (decodeCal {} calNoP1).tp.p1 = 0 := by decide

theorem witness_CompensateCompletes : (1048575#32).toNat < 2 ^ 20 ∧ (0#32).toNat < 2 ^ 20 := by decide

theorem witness_EncodersComplete (c : Cfg)
    (hc : c = { osrsH := 7, osrsP := 7, osrsT := 7, mode := 3, filter := 7, tSb := 7 }) :
    c.osrsH.toNat ≤ 7 ∧ c.osrsP.toNat ≤ 7 ∧ c.osrsT.toNat ≤ 7 ∧ (c.mode = 0 ∨ c.mode = 1 ∨ c.mode = 3) ∧
    c.filter.toNat ≤ 7 ∧ c.tSb.toNat ≤ 7 := by
  subst hc
  decide

theorem witness_DurationEstimatorsComplete :
    cfgA.osrsH.toNat ≤ 7 ∧ cfgA.osrsP.toNat ≤ 7 ∧ cfgA.osrsT.toNat ≤ 7 ∧
    (cfgA.mode = 0 ∨ cfgA.mode = 1 ∨ cfgA.mode = 3) ∧ cfgA.filter.toNat ≤ 7 ∧ cfgA.tSb.toNat ≤ 7 := by decide

theorem witness_NearestStandbyCompletes : 1000000 ≤ (1000000#64).toInt ∧ (999999#64).toInt < 1000000 := by decide

theorem witness_EveryTiedStandbyCodeCanBeDrawn :
    (375000#64).toInt < 1000000 ∧ (4 : Byte) ∈ standbyCandidates false ∧
    ∀ c ∈ standbyCandidates false, |(375000#64).toInt - (sbUs 4 : Int)| ≤ |(375000#64).toInt - (sbUs c : Int)| := by
  decide

theorem witness_PseudoCommandsAreTheirExpansions :
    ∃ t, (configured []).lastCfg = some cfgA ∧ (ready []).lastCfg = none ∧
      exec .softReset (configured writeOk) = .next t ∧ t.result = some (.success .none) := ⟨_, rfl, rfl, rfl, rfl⟩

end Sys2Proof.Tests
end

section
/-! The proofs about the port and about binary64 (00_scope.md): a step runs what its port decodes to, the arithmetic
rounds the exact result once, the conversion of an integer is exact, and the comparison is the order of the values. -/

namespace Sys2Proof.Machine

/-! ### Fetching what decodes -/

theorem fetch_eq_fetchHost {s : State} (h : s.frameIn = []) : fetch s = fetchHost s := by
  simp [fetch, h, decode, decodeFrame]

theorem fetchHost_of_decode {s : State} {i : Instr} {rest : List Byte} (h : decode .host s.hostIn = .ok (i, rest)) :
    fetchHost s = .run i { s with hostIn := rest } := by
  simp [fetchHost, h]

theorem fetch_of_decode_bus {s : State} {i : Instr} {rest : List Byte} (h : decode .bus s.frameIn = .ok (i, rest)) :
    fetch s = .run i { s with frameIn := rest } := by
  simp [fetch, h]

theorem step_of_fetch_run {s u : State} {i : Instr} (h : fetch s = .run i u) : step s = exec i u := by
  simp [step, h]

/-- Settles O6: each port's bytes are what `fetch` finds to run. -/
theorem stepRunsTheDecodedInstruction : Obligations.StepRunsTheDecodedInstruction := by
  intro s i rest
  constructor
  · intro hbus hdec
    exact step_of_fetch_run ((fetch_eq_fetchHost hbus).trans (fetchHost_of_decode hdec))
  · intro hdec
    exact step_of_fetch_run (fetch_of_decode_bus hdec)

end Sys2Proof.Machine

namespace Sys2Proof.F64

open Sys2Proof.Machine

/-! ### The operations on finite operands -/

theorem unitDen_pos : 0 < unitDen := by
  rw [unitDen]
  positivity

theorem cast_unitDen : (unitDen : ℚ) = 2 ^ 1074 := by
  rw [unitDen, Nat.cast_pow, Nat.cast_ofNat]

theorem ratOf_eq_sgn_units (x : F64) : ratOf x = sgn (sign x) * units x / 2 ^ 1074 := by
  rw [ratOf, cast_toUnits]

theorem ratOf_neg (x : F64) : ratOf (neg x) = -ratOf x := by
  rw [ratOf, ratOf, toUnits_neg, Int.cast_neg, neg_div]

theorem ratOf_eq_zero_of_isZero {x : F64} (h : isZero x = true) : ratOf x = 0 := by
  rw [ratOf_eq_sgn_units, units_eq_zero_of_isZero h]
  simp

theorem units_ne_zero {x : F64} (h : isZero x = false) : units x ≠ 0 := fun h0 => by
  simp [isZero_of_units_eq_zero h0] at h

theorem sgn_div_sgn (a b : Bool) : sgn a / sgn b = sgn a * sgn b := by
  cases b <;> simp [sgn, div_neg]

/-- An integer is the factor of its sign times its magnitude. -/
theorem cast_eq_sgn_natAbs (n : Int) : (n : ℚ) = sgn (decide (n < 0)) * n.natAbs := by
  by_cases h : n < 0
  · rw [Nat.cast_natAbs, abs_of_neg h]
    simp [sgn, h]
  · rw [Nat.cast_natAbs, abs_of_nonneg (not_lt.1 h)]
    simp [sgn, h]

section
variable {x y : F64} (hx : isFinite x = true) (hy : isFinite y = true)
include hx hy

theorem add_of_isFinite : add x y =
    if toUnits x + toUnits y = 0 then zero (sign x && sign y)
    else roundUnits (decide (toUnits x + toUnits y < 0)) (toUnits x + toUnits y).natAbs 1 := by
  simp [add, notNaN_notInf_of_isFinite hx, notNaN_notInf_of_isFinite hy]

theorem sub_of_isFinite : sub x y = add x (neg y) := by
  simp [sub, notNaN_notInf_of_isFinite hx, notNaN_notInf_of_isFinite hy]

theorem mul_of_isFinite : mul x y =
    if isZero x || isZero y then zero (sign x != sign y)
    else roundUnits (sign x != sign y) (units x * units y) unitDen := by
  simp [mul, notNaN_notInf_of_isFinite hx, notNaN_notInf_of_isFinite hy]

theorem div_of_isFinite (h : isZero y = false) : div x y =
    if isZero x then zero (sign x != sign y)
    else roundUnits (sign x != sign y) (units x * unitDen) (units y) := by
  simp [div, notNaN_notInf_of_isFinite hx, notNaN_notInf_of_isFinite hy, h]

theorem roundsTo_add : RoundsTo (ratOf x + ratOf y) (add x y) := by
  have hsum : ratOf x + ratOf y = ((toUnits x + toUnits y : Int) : ℚ) / 2 ^ 1074 := by
    rw [ratOf, ratOf, Int.cast_add, add_div]
  rw [add_of_isFinite hx hy, hsum]
  generalize toUnits x + toUnits y = s
  split
  next h0 =>
    rw [h0, Int.cast_zero, zero_div]
    exact roundsTo_zero _
  next h0 =>
    refine roundsTo_roundUnits _ _ 1 Nat.one_pos _ ?_ (Int.natAbs_ne_zero.2 h0)
    rw [Nat.cast_one, div_one, ← cast_eq_sgn_natAbs]

theorem roundsTo_sub : RoundsTo (ratOf x - ratOf y) (sub x y) := by
  rw [sub_of_isFinite hx hy, sub_eq_add_neg, ← ratOf_neg]
  exact roundsTo_add hx (isFinite_neg hy)

theorem roundsTo_mul : RoundsTo (ratOf x * ratOf y) (mul x y) := by
  rw [mul_of_isFinite hx hy]
  split
  next h0 =>
    have hzero : ratOf x * ratOf y = 0 := by
      rcases Bool.or_eq_true_iff.1 h0 with h0 | h0
      · rw [ratOf_eq_zero_of_isZero h0, zero_mul]
      · rw [ratOf_eq_zero_of_isZero h0, mul_zero]
    rw [hzero]
    exact roundsTo_zero _
  next h0 =>
    obtain ⟨hx0, hy0⟩ : isZero x = false ∧ isZero y = false := by simpa using h0
    refine roundsTo_roundUnits _ _ unitDen unitDen_pos _ ?_ (mul_ne_zero (units_ne_zero hx0) (units_ne_zero hy0))
    rw [ratOf_eq_sgn_units, ratOf_eq_sgn_units, sgn_bne, cast_unitDen, Nat.cast_mul]
    generalize (2 : ℚ) ^ 1074 = D
    ring

theorem roundsTo_div (h : isZero y = false) : RoundsTo (ratOf x / ratOf y) (div x y) := by
  rw [div_of_isFinite hx hy h]
  split
  next h0 =>
    rw [ratOf_eq_zero_of_isZero h0, zero_div]
    exact roundsTo_zero _
  next h0 =>
    have hx0 := units_ne_zero (Bool.eq_false_iff.2 h0)
    have hypos := Nat.pos_of_ne_zero (units_ne_zero h)
    refine roundsTo_roundUnits _ _ (units y) hypos _ ?_ (mul_ne_zero hx0 unitDen_pos.ne')
    have hD : (2 : ℚ) ^ 1074 ≠ 0 := pow_ne_zero 1074 two_ne_zero
    rw [ratOf_eq_sgn_units, ratOf_eq_sgn_units, sgn_bne, div_div_div_cancel_right₀ hD, mul_div_mul_comm, sgn_div_sgn,
      Nat.cast_mul, cast_unitDen]
    generalize (2 : ℚ) ^ 1074 = D at hD ⊢
    field_simp

end

/-- Settles O44: each operation is one `roundUnits` of the exact count of units, or an exact zero. -/
theorem floatOperationsRoundToNearestEven : Obligations.FloatOperationsRoundToNearestEven := fun _ _ hx hy =>
  ⟨roundsTo_add hx hy, roundsTo_sub hx hy, roundsTo_mul hx hy, roundsTo_div hx hy⟩

/-! ### Integers -/

theorem roundsTo_ofInt (n : Int) : RoundsTo n (ofInt n) := by
  rw [ofInt]
  split
  next h0 =>
    rw [h0, Int.cast_zero]
    exact roundsTo_zero _
  next h0 =>
    refine roundsTo_roundUnits _ _ 1 Nat.one_pos _ ?_ (mul_ne_zero (Int.natAbs_ne_zero.2 h0) unitDen_pos.ne')
    rw [Nat.cast_one, div_one, Nat.cast_mul, ← mul_assoc, ← cast_eq_sgn_natAbs, cast_unitDen,
      mul_div_cancel_right₀ _ (by positivity)]

/-- A natural below 2^53 is a magnitude: shift its leading bit up to bit 52 and lower the scale by as much. -/
theorem exists_unitsOf_eq_mul_two_pow {n : Nat} (h : n < 2 ^ 53) : ∃ b < infBits, unitsOf b = n * unitDen := by
  rcases Nat.eq_zero_or_pos n with rfl | hn
  · exact ⟨0, by decide, by simp⟩
  have hlog : n.log2 < 53 := (Nat.log2_lt hn.ne').2 h
  have hshift : n * 2 ^ (52 - n.log2) < 2 ^ 53 := by
    calc n * 2 ^ (52 - n.log2) < 2 ^ (n.log2 + 1) * 2 ^ (52 - n.log2) :=
          Nat.mul_lt_mul_of_pos_right Nat.lt_log2_self (Nat.two_pow_pos _)
      _ = 2 ^ 53 := by rw [← pow_add]; congr 1; omega
  have hnorm : 2 ^ 52 ≤ n * 2 ^ (52 - n.log2) := by
    calc 2 ^ 52 = 2 ^ n.log2 * 2 ^ (52 - n.log2) := by rw [← pow_add]; congr 1; omega
      _ ≤ n * 2 ^ (52 - n.log2) := Nat.mul_le_mul_right _ (Nat.log2_self_le hn.ne')
  refine ⟨(1022 + n.log2) * 2 ^ 52 + n * 2 ^ (52 - n.log2), ?_, ?_⟩
  · rw [infBits]
    omega
  · rw [unitsOf_scaled _ _ hshift.le (.inr hnorm), mul_assoc, ← pow_add,
      show 52 - n.log2 + (1022 + n.log2) = 1074 by omega, unitDen]

theorem exists_ratOf_eq_int {n : Int} (h : n.natAbs < 2 ^ 53) : ∃ z, isFinite z = true ∧ ratOf z = n := by
  obtain ⟨b, hb, hu⟩ := exists_unitsOf_eq_mul_two_pow h
  refine ⟨ofBits (decide (n < 0)) b, isFinite_ofBits hb, ?_⟩
  rw [ratOf_ofBits _ _ (hb.trans infBits_lt), hu, Nat.cast_mul, ← mul_assoc, ← cast_eq_sgn_natAbs, cast_unitDen,
    mul_div_cancel_right₀ _ (by positivity)]

theorem abs_int_lt_overflowBound {n : Int} (h : n.natAbs < 2 ^ 53) : |(n : ℚ)| < overflowBound := by
  have hn : |(n : ℚ)| < 2 ^ 53 := by
    rw [← Int.cast_abs, ← Nat.cast_natAbs]
    exact_mod_cast h
  calc |(n : ℚ)| < 2 ^ 53 := hn
    _ ≤ (2 ^ 54 - 1) * 1 := by norm_num
    _ ≤ overflowBound := mul_le_mul_of_nonneg_left (one_le_pow₀ (by norm_num)) (by norm_num)

/-- Settles O45: the value is one of binary64, and rounding does not pass it from either side. -/
theorem integerConversionIsExact : Obligations.IntegerConversionIsExact := by
  intro n h
  have hr := roundsTo_ofInt n
  have hq := abs_int_lt_overflowBound h
  obtain ⟨z, hz, hzn⟩ := exists_ratOf_eq_int h
  refine ⟨(hr.1 hq).1, le_antisymm ?_ ?_⟩
  · exact (ratOf_le_of_roundsTo hr hq hz hzn.ge).trans_eq hzn
  · exact hzn.symm.trans_le (le_ratOf_of_roundsTo hr hq hz hzn.le)

/-! ### Comparison -/

theorem eq_inf_of_magBits_eq {x : F64} (h : magBits x = infBits) : x = inf (sign x) :=
  ext_bits (sign_ofBits _ _ infBits_lt).symm (h.trans (magBits_ofBits _ _ infBits_lt).symm)

theorem finite_or_inf_or_nan (x : F64) :
    isFinite x = true ∨ x = inf true ∨ x = inf false ∨ isNaN x = true := by
  rcases lt_trichotomy (magBits x) infBits with h | h | h
  · exact .inl ((isFinite_iff x).2 h)
  · have hx := eq_inf_of_magBits_eq h
    cases hs : sign x <;> rw [hs] at hx
    · exact .inr (.inr (.inl hx))
    · exact .inr (.inl hx)
  · exact .inr (.inr (.inr (decide_eq_true h)))

theorem lt_of_not_isNaN {x y : F64} (hx : isNaN x = false) (hy : isNaN y = false) : lt x y = decide (key x < key y) := by
  simp [lt, hx, hy]

theorem eq_of_not_isNaN {x y : F64} (hx : isNaN x = false) (hy : isNaN y = false) : eq x y = decide (key x = key y) := by
  rw [eq, hx, hy]
  rfl

theorem compare_isNaN {x y : F64} (h : isNaN x = true ∨ isNaN y = true) : lt x y = false ∧ eq x y = false := by
  rcases h with h | h <;> simp [lt, eq, h]

theorem ratOf_lt_iff (x y : F64) : ratOf x < ratOf y ↔ key x < key y := by
  rw [ratOf, ratOf, div_lt_div_iff_of_pos_right (by positivity), Int.cast_lt, key_lt_iff]

theorem ratOf_eq_iff (x y : F64) : ratOf x = ratOf y ↔ key x = key y := by
  have h1 := ratOf_lt_iff x y
  have h2 := ratOf_lt_iff y x
  rw [eq_iff_le_not_lt, eq_iff_le_not_lt, ← not_lt, ← not_lt, h1, h2]

theorem key_inf (b : Bool) : key (inf b) = if b then -(infBits : Int) else infBits := by
  rw [key, inf, sign_ofBits _ _ infBits_lt, magBits_ofBits _ _ infBits_lt]

theorem isNaN_inf (b : Bool) : isNaN (inf b) = false := by
  cases b <;> decide

theorem abs_key_lt_of_isFinite {x : F64} (h : isFinite x = true) : |key x| < infBits := by
  have hm := (isFinite_iff x).1 h
  rw [key]
  cases sign x <;> simpa using hm

/-- Each infinity is beyond every finite value on its own side. -/
theorem compare_inf_finite {x : F64} (b : Bool) (h : isFinite x = true) :
    lt (inf b) x = b ∧ lt x (inf b) = (!b) ∧ eq (inf b) x = false ∧ eq x (inf b) = false := by
  have hx := (notNaN_notInf_of_isFinite h).1
  obtain ⟨hlo, hhi⟩ := abs_lt.1 (abs_key_lt_of_isFinite h)
  rw [lt_of_not_isNaN (isNaN_inf b) hx, lt_of_not_isNaN hx (isNaN_inf b), eq_of_not_isNaN (isNaN_inf b) hx,
    eq_of_not_isNaN hx (isNaN_inf b), key_inf]
  cases b <;> simp <;> omega

theorem compare_inf_inf (a b : Bool) : lt (inf a) (inf b) = (a && !b) ∧ eq (inf a) (inf b) = (a == b) := by
  cases a <;> cases b <;> decide

theorem compare_finite {x y : F64} (hx : isFinite x = true) (hy : isFinite y = true) :
    (lt x y = true ↔ ratOf x < ratOf y) ∧ (eq x y = true ↔ ratOf x = ratOf y) := by
  have nx := (notNaN_notInf_of_isFinite hx).1
  have ny := (notNaN_notInf_of_isFinite hy).1
  rw [lt_of_not_isNaN nx ny, eq_of_not_isNaN nx ny, decide_eq_true_iff, decide_eq_true_iff, ratOf_lt_iff, ratOf_eq_iff]
  exact ⟨.rfl, .rfl⟩

/-- Settles O46: off the NaNs the comparison is that of the signed magnitude bits, whose order is that of the values. -/
theorem floatComparisonIsTheOrderOfValues : Obligations.FloatComparisonIsTheOrderOfValues :=
  ⟨finite_or_inf_or_nan, fun _ _ hx hy => compare_finite hx hy, fun _ b h => compare_inf_finite b h, compare_inf_inf,
    fun _ _ h => compare_isNaN h⟩

end Sys2Proof.F64
end

section
/-! The proofs about the record S (10_state.md): what each command leaves of it, and the invariant that every step keeps. -/

namespace Sys2Proof.Machine

/-! ### What transport calls leave of the record -/

section
variable {s t : State} {fs : List (List Byte)} (h : BusRun s t fs)
include h

theorem BusRun.devAddr : t.devAddr = s.devAddr := by
  rw [h.frame]

theorem BusRun.phase : t.phase = s.phase := by
  rw [h.frame]

theorem BusRun.calValid : t.calValid = s.calValid := by
  rw [h.frame]

theorem BusRun.cal : t.cal = s.cal := by
  rw [h.frame]

theorem BusRun.lastCfg : t.lastCfg = s.lastCfg := by
  rw [h.frame]

theorem BusRun.params : t.params = s.params := by
  rw [h.frame]

end

/-! ### Who writes which field -/

/-- Settles O31: by the effects of a command, of which four can write the phase. -/
theorem phaseChangesOnlyByFacadeTransitions : Obligations.PhaseChangesOnlyByFacadeTransitions := by
  intro i s t h hne
  obtain ⟨o, u, hcmd, rfl⟩ := exec_next_cases h
  rw [reply_phase] at hne
  simp only [reply_phase, reply_result]
  cases cmd_effect hcmd with
  | refused | computed | tied => exact absurd rfl hne
  | failed _ _ _ hb | accessed _ _ _ hb => exact absurd hb.phase hne
  | initialised hi _ u k hb =>
    by_cases hp : s.phase = .uninit
    · exact .inl ⟨hi, hp, if_pos hp, rfl⟩
    · exact absurd (if_neg hp) hne
  | configured c hi _ hp u hb =>
    refine .inr (.inl ⟨⟨c, hi⟩, ?_, rfl, rfl⟩)
    exact hp.resolve_right fun hc => hne hc.symm
  | reset hi hp u hb =>
    refine .inr (.inr (.inl ⟨hi, hp, .inl ?_⟩))
    rw [State.afterSoftReset_phase, hb.calValid]
  | resetThenFailed hi hp _ _ u hb _ _ _ ht =>
    refine .inr (.inr (.inl ⟨hi, hp, .inl ?_⟩))
    rw [ht.phase, State.afterSoftReset_phase, hb.calValid]
  | resetThenConfigured hi hp hr hc => exact .inr (.inr (.inl ⟨hi, hp, .inr ⟨rfl, hr, hc⟩⟩))
  | measured _ _ _ u _ hb => exact absurd hb.phase hne
  | closed hi => exact .inr (.inr (.inr ⟨hi, rfl, rfl⟩))

/-- Settles O33: by the effects of a command, of which only a successful INIT's touches the snapshot. -/
theorem calibrationIsWrittenOnlyBySuccessfulInit : Obligations.CalibrationIsWrittenOnlyBySuccessfulInit := by
  intro i s t h
  obtain ⟨o, u, hcmd, rfl⟩ := exec_next_cases h
  simp only [reply_cal, reply_calValid, reply_result]
  cases cmd_effect hcmd with
  | refused | computed | tied | closed => exact .inl ⟨rfl, rfl⟩
  | failed _ _ _ hb | accessed _ _ _ hb | configured _ _ _ _ _ hb | reset _ _ _ hb | measured _ _ _ _ _ hb =>
    exact .inl ⟨hb.cal, hb.calValid⟩
  | initialised hi => exact .inr ⟨hi, rfl, rfl⟩
  | resetThenFailed _ _ _ _ _ hb _ _ _ ht | resetThenConfigured _ _ _ _ _ hb _ _ _ _ _ ht =>
    exact .inl ⟨ht.cal.trans hb.cal, ht.calValid.trans hb.calValid⟩

/-- Settles O34: by the effects of a command; a reset that re-applies the last configuration writes back the same one. -/
theorem lastConfigurationIsWrittenOnlyBySuccess : Obligations.LastConfigurationIsWrittenOnlyBySuccess := by
  intro i s t h hne
  obtain ⟨o, u, hcmd, rfl⟩ := exec_next_cases h
  rw [reply_lastCfg] at hne
  simp only [reply_lastCfg, reply_phase, reply_result]
  cases cmd_effect hcmd with
  | refused | computed | tied | closed => exact absurd rfl hne
  | failed _ _ _ hb | accessed _ _ _ hb | initialised _ _ _ _ hb | reset _ _ _ hb | measured _ _ _ _ _ hb =>
    exact absurd hb.lastCfg hne
  | configured c hi hv => exact ⟨c, hi, rfl, hv, rfl, rfl⟩
  | resetThenFailed _ _ _ _ _ hb _ _ _ ht => exact absurd (ht.lastCfg.trans hb.lastCfg) hne
  | resetThenConfigured _ _ _ _ _ _ c hl => exact absurd hl.symm hne

/-- No command writes the device address or the parameters. -/
theorem CmdEffect.address_and_params {i : Instr} {s t : State} {o : CmdOutcome} (h : CmdEffect i s o t) :
    t.devAddr = s.devAddr ∧ t.params = s.params := by
  cases h with
  | refused | computed | tied | closed => exact ⟨rfl, rfl⟩
  | failed _ _ _ hb | accessed _ _ _ hb | initialised _ _ _ _ hb | configured _ _ _ _ _ hb | reset _ _ _ hb
  | measured _ _ _ _ _ hb => exact ⟨hb.devAddr, hb.params⟩
  | resetThenFailed _ _ _ _ _ hb _ _ _ ht | resetThenConfigured _ _ _ _ _ hb _ _ _ _ _ ht =>
    exact ⟨ht.devAddr.trans hb.devAddr, ht.params.trans hb.params⟩

/-- Settles O35: neither fetching, nor a refusal, nor any command writes them. -/
theorem addressAndParametersNeverChange : Obligations.AddressAndParametersNeverChange := by
  intro s t h
  rcases step_next_cases h with rfl | ⟨i, u, hu, hexec⟩ | ⟨r, u, hu, rfl⟩
  · exact ⟨rfl, rfl⟩
  · obtain ⟨o, v, hcmd, rfl⟩ := exec_next_cases hexec
    have huv := (cmd_effect hcmd).address_and_params
    rw [hu] at huv
    exact huv
  · rw [hu]
    exact ⟨rfl, rfl⟩

/-- Settles O14: `readMeasCmd` refuses at its third check, before any transport call. -/
theorem unwrittenCalibrationIsNotRead : Obligations.UnwrittenCalibrationIsNotRead := by
  intro s hp hc
  have hclosed : s.phase ≠ .closed := by rcases hp with hp | hp <;> simp [hp]
  have huninit : s.phase ≠ .uninit := by rcases hp with hp | hp <;> simp [hp]
  have hcmd : cmdOf .readMeas s = refuse .unwrittenCalibration s := by
    simp [cmdOf, readMeasCmd, hclosed, huninit, hc]
  rw [exec_eq_reply, hcmd, reply_refuse]

/-- Settles O40: each field of `State.reset` as it is written there. -/
theorem resetLeavesTheConstructedBlock : Obligations.ResetLeavesTheConstructedBlock :=
  ⟨rfl, rfl, rfl, rfl, rfl, rfl, rfl, rfl⟩

/-! ### The invariant of the record -/

/-- Settles O38: at reset nothing is loaded, configured, selected or refused. -/
theorem recordInvariantHoldsAtReset : Obligations.RecordInvariantHoldsAtReset where
  modeNone _ := rfl
  modeOfCfg h := nomatch h
  calLoaded h := by rcases h with h | h <;> cases h
  calAbsent _ := rfl
  cfgNeedsCal _ := rfl
  cfgValid _ h := nomatch h
  selOwn := .inl rfl
  refusalMarked _ h := nomatch h

section
variable {s : State} (hs : s.Inv)
include hs

/-- The invariant says nothing about the ports. -/
theorem State.Inv.withPorts (host frame : List Byte) : { s with hostIn := host, frameIn := frame }.Inv :=
  { hs with }

theorem State.Inv.afterTie : s.afterTie.Inv :=
  { hs with }

theorem State.Inv.reply (o : CmdOutcome) : (reply (o, s)).Inv :=
  { hs with
    refusalMarked := fun r h => by
      obtain rfl : o = .refused r := by simpa using h
      simp }

/-- Transport calls keep the invariant: only `T.sel` is in it, and they leave that unknown or the own address. -/
theorem State.Inv.busRun {t : State} {fs : List (List Byte)} (h : BusRun s t fs) : t.Inv := by
  have hsel := h.tSel_own hs.selOwn
  obtain ⟨_, _, _, rfl, -⟩ := h
  exact { hs with selOwn := hsel }

theorem State.Inv.initialised (k : Cal) :
    { s with cal := k, calValid := true, phase := if s.phase = Phase.uninit then .ready else s.phase }.Inv :=
  { hs with
    modeNone := fun h => hs.modeNone fun hp => h (by simp [hp])
    modeOfCfg := fun h => hs.modeOfCfg (by
      by_cases hp : s.phase = .uninit
      · simp [hp] at h
      · simpa [hp] using h)
    calLoaded := fun _ => rfl
    calAbsent := fun h => by
      by_cases hp : s.phase = .uninit <;> simp [hp] at h
    cfgNeedsCal := fun h => nomatch h }

theorem State.Inv.configuredAs {c : Cfg} (hv : cfgAccepted c = true) (hcal : s.calValid = true) :
    (s.configuredAs c).Inv :=
  { hs with
    modeNone := fun h => absurd rfl h
    modeOfCfg := fun _ => ⟨c, rfl, .inl rfl⟩
    calLoaded := fun _ => hcal
    calAbsent := fun h => nomatch h
    cfgNeedsCal := fun h => absurd (hcal.symm.trans h) (by decide)
    cfgValid := fun d h => by
      cases h
      exact hv }

theorem State.Inv.afterSoftReset : s.afterSoftReset.Inv :=
  { hs with
    modeNone := fun _ => rfl
    modeOfCfg := fun h => by
      cases hcal : s.calValid <;> simp [hcal] at h
    calLoaded := fun h => by
      cases hcal : s.calValid <;> simp [hcal] at h ⊢
    calAbsent := fun h => by
      cases hcal : s.calValid <;> simp [hcal] at h ⊢ }

/-- A successful read moves a pending forced mode to SLEEP and nothing else (R207). -/
theorem State.Inv.afterRead : s.afterRead.Inv :=
  { hs with
    modeNone := fun h => by
      simp [hs.modeNone h]
    modeOfCfg := fun h => by
      obtain ⟨c, hl, hm⟩ := hs.modeOfCfg h
      refine ⟨c, hl, ?_⟩
      rw [State.afterRead_mode]
      split
      next hf => exact .inr ⟨rfl, hm.elim (fun e => e.symm.trans hf) (·.2)⟩
      next => exact hm }

theorem State.Inv.closed : { s with phase := .closed, mode := .none }.Inv :=
  { hs with
    modeNone := fun _ => rfl
    modeOfCfg := fun h => nomatch h
    calLoaded := fun h => by rcases h with h | h <;> cases h
    calAbsent := fun h => nomatch h }

end

/-- Every effect of a command keeps the invariant. -/
theorem CmdEffect.inv {i : Instr} {s t : State} {o : CmdOutcome} (h : CmdEffect i s o t) (hs : s.Inv) : t.Inv := by
  cases h with
  | refused | computed => exact hs
  | failed _ _ _ hb | accessed _ _ _ hb => exact hs.busRun hb
  | tied => exact hs.afterTie
  | initialised _ _ u k hb =>
    rw [← hb.phase]
    exact (hs.busRun hb).initialised k
  | configured c _ hv hp u hb => exact (hs.busRun hb).configuredAs hv (hb.calValid.trans (hs.calLoaded hp))
  | reset _ _ u hb => exact (hs.busRun hb).afterSoftReset
  | resetThenFailed _ _ _ _ u hb _ _ _ ht => exact (hs.busRun hb).afterSoftReset.busRun ht
  | resetThenConfigured _ _ _ hc u hb c _ hv _ _ ht =>
    exact ((hs.busRun hb).afterSoftReset.busRun ht).configuredAs hv ((ht.calValid.trans hb.calValid).trans hc)
  | measured _ _ _ u _ hb => exact (hs.busRun hb).afterRead
  | closed => exact hs.closed

/-- Settles O39: a step waits, runs a command, whose effects keep the invariant, or refuses what is no command. -/
theorem recordInvariantIsKeptByEveryStep : Obligations.RecordInvariantIsKeptByEveryStep := by
  intro s t hs h
  rcases step_next_cases h with rfl | ⟨i, u, hu, hexec⟩ | ⟨r, u, hu, rfl⟩
  · exact hs
  · obtain ⟨o, v, hcmd, rfl⟩ := exec_next_cases hexec
    have hinv : u.Inv := hu ▸ hs.withPorts _ _
    exact ((cmd_effect hcmd).inv hinv).reply o
  · have hinv : u.Inv := hu ▸ hs.withPorts _ _
    rw [← reply_refuse]
    exact hinv.reply _

end Sys2Proof.Machine
end

section
/-! The proofs about the range of a compensated measurement (R179, R183): every step of a stage is bounded by a power of
two, so the stages give finite values, and the clamp leaves a finite value in its range or makes it an infinity. -/

namespace Sys2Proof.F64

open Sys2Proof.Machine

theorem isFinite_zero (b : Bool) : isFinite (zero b) = true := isFinite_ofBits (by decide)

/-! ### Powers of two as bounds -/

/-- The exponents of the normal powers of two. -/
abbrev InExpRange (e : ℤ) : Prop := -1022 ≤ e ∧ e ≤ 1023

/-- A finite value whose magnitude is at most `2 ^ e`. -/
def Within (e : ℤ) (x : F64) : Prop := isFinite x = true ∧ |ratOf x| ≤ 2 ^ e

/-- A finite value whose magnitude is at least `2 ^ e`. -/
def AtLeast (e : ℤ) (x : F64) : Prop := isFinite x = true ∧ 2 ^ e ≤ |ratOf x|

theorem exists_ratOf_eq_two_zpow {e : ℤ} (he : InExpRange e) : ∃ z, isFinite z = true ∧ ratOf z = 2 ^ e := by
  obtain ⟨k, hk⟩ : ∃ k : ℕ, e = k - 1022 := ⟨(e + 1022).toNat, by omega⟩
  have hb : k * 2 ^ 52 + 2 ^ 52 < infBits := by
    rw [infBits]
    omega
  refine ⟨ofBits false (k * 2 ^ 52 + 2 ^ 52), isFinite_ofBits hb, ?_⟩
  have hu : (unitsOf (k * 2 ^ 52 + 2 ^ 52) : ℚ) = 2 ^ ((52 + k : ℕ) : ℤ) := by
    rw [unitsOf_scaled k (2 ^ 52) (by decide) (.inr le_rfl), ← pow_add, zpow_natCast]
    exact Nat.cast_pow _ _
  rw [ratOf_ofBits _ _ (hb.trans infBits_lt), hu, ← zpow_natCast, sgn, if_neg Bool.false_ne_true, one_mul,
    ← zpow_sub₀ two_ne_zero, hk]
  congr 1
  omega

theorem two_zpow_lt_overflowBound {e : ℤ} (he : InExpRange e) : (2 : ℚ) ^ e < overflowBound := by
  calc (2 : ℚ) ^ e ≤ 2 ^ ((1023 : ℕ) : ℤ) := zpow_le_zpow_right₀ one_le_two he.2
    _ = 2 ^ 53 * 2 ^ 970 := by rw [zpow_natCast, ← pow_add]
    _ < overflowBound := mul_lt_mul_of_pos_right (by norm_num) (by positivity)

theorem Within.abs_lt_overflowBound {e : ℤ} {x : F64} (h : Within e x) (he : InExpRange e) :
    |ratOf x| < overflowBound :=
  h.2.trans_lt (two_zpow_lt_overflowBound he)

/-- Rounding does not pass a power of two from below. -/
theorem within_of_roundsTo {q : ℚ} {r : F64} {e : ℤ} (h : RoundsTo q r) (hq : |q| ≤ 2 ^ e) (he : InExpRange e) :
    Within e r := by
  have hlt := hq.trans_lt (two_zpow_lt_overflowBound he)
  obtain ⟨z, hz, hze⟩ := exists_ratOf_eq_two_zpow he
  obtain ⟨hlo, hhi⟩ := abs_le.1 hq
  refine ⟨(h.1 hlt).1, abs_le.2 ⟨?_, ?_⟩⟩
  · have hneg : ratOf (neg z) = -2 ^ e := by rw [ratOf_neg, hze]
    exact hneg.symm.trans_le (le_ratOf_of_roundsTo h hlt (isFinite_neg hz) (hneg.trans_le hlo))
  · exact (ratOf_le_of_roundsTo h hlt hz (hhi.trans_eq hze.symm)).trans_eq hze

/-- Rounding does not pass a power of two from above. -/
theorem atLeast_of_roundsTo {q : ℚ} {r : F64} {e : ℤ} (h : RoundsTo q r) (hlt : |q| < overflowBound) (hq : 2 ^ e ≤ |q|)
    (he : InExpRange e) : AtLeast e r := by
  obtain ⟨z, hz, hze⟩ := exists_ratOf_eq_two_zpow he
  refine ⟨(h.1 hlt).1, ?_⟩
  rcases le_abs.1 hq with hq | hq
  · exact le_abs.2 (.inl (hze.symm.trans_le (le_ratOf_of_roundsTo h hlt hz (hze.trans_le hq))))
  · have hneg : ratOf (neg z) = -2 ^ e := by rw [ratOf_neg, hze]
    have hle := ratOf_le_of_roundsTo h hlt (isFinite_neg hz) ((le_neg_of_le_neg hq).trans_eq hneg.symm)
    exact le_abs.2 (.inr (le_neg_of_le_neg (hle.trans_eq hneg)))

/-! ### How the operations move the bounds -/

theorem Within.mono {a b : ℤ} {x : F64} (h : Within a x) (hab : a ≤ b) : Within b x :=
  ⟨h.1, h.2.trans (zpow_le_zpow_right₀ one_le_two hab)⟩

theorem AtLeast.ratOf_ne_zero {a : ℤ} {x : F64} (h : AtLeast a x) : ratOf x ≠ 0 :=
  abs_pos.1 ((zpow_pos two_pos a).trans_le h.2)

theorem AtLeast.isZero {a : ℤ} {x : F64} (h : AtLeast a x) : isZero x = false :=
  Bool.eq_false_iff.2 fun h0 => h.ratOf_ne_zero (ratOf_eq_zero_of_isZero h0)

section
variable {a b : ℤ} {x y : F64}

theorem add_two_zpow_le : (2 : ℚ) ^ a + 2 ^ b ≤ 2 ^ (max a b + 1) := by
  rw [zpow_add_one₀ two_ne_zero, mul_two]
  exact add_le_add (zpow_le_zpow_right₀ one_le_two (le_max_left a b))
    (zpow_le_zpow_right₀ one_le_two (le_max_right a b))

theorem Within.add (hx : Within a x) (hy : Within b y) (he : InExpRange (max a b + 1) := by decide) :
    Within (max a b + 1) (add x y) :=
  within_of_roundsTo (roundsTo_add hx.1 hy.1)
    ((abs_add_le _ _).trans ((add_le_add hx.2 hy.2).trans add_two_zpow_le)) he

theorem Within.sub (hx : Within a x) (hy : Within b y) (he : InExpRange (max a b + 1) := by decide) :
    Within (max a b + 1) (sub x y) :=
  within_of_roundsTo (roundsTo_sub hx.1 hy.1)
    ((abs_sub _ _).trans ((add_le_add hx.2 hy.2).trans add_two_zpow_le)) he

theorem Within.mul (hx : Within a x) (hy : Within b y) (he : InExpRange (a + b) := by decide) :
    Within (a + b) (mul x y) := by
  refine within_of_roundsTo (roundsTo_mul hx.1 hy.1) ?_ he
  rw [abs_mul, zpow_add₀ two_ne_zero]
  exact mul_le_mul hx.2 hy.2 (abs_nonneg _) (by positivity)

theorem Within.div (hx : Within a x) (hy : AtLeast b y) (he : InExpRange (a - b) := by decide) :
    Within (a - b) (div x y) := by
  refine within_of_roundsTo (roundsTo_div hx.1 hy.1 hy.isZero) ?_ he
  rw [abs_div, zpow_sub₀ two_ne_zero]
  exact div_le_div₀ (by positivity) hx.2 (by positivity) hy.2

theorem AtLeast.mul (hx : AtLeast a x) (hy : AtLeast b y) {c d : ℤ} (hxc : Within c x) (hyd : Within d y)
    (he : InExpRange (a + b) := by decide) (hcd : InExpRange (c + d) := by decide) : AtLeast (a + b) (mul x y) := by
  refine atLeast_of_roundsTo (roundsTo_mul hx.1 hy.1) ?_ ?_ he
  · refine lt_of_le_of_lt ?_ (two_zpow_lt_overflowBound hcd)
    rw [abs_mul, zpow_add₀ two_ne_zero]
    exact mul_le_mul hxc.2 hyd.2 (abs_nonneg _) (by positivity)
  · rw [abs_mul, zpow_add₀ two_ne_zero]
    exact mul_le_mul hx.2 hy.2 (by positivity) (abs_nonneg _)

end

/-! ### Integers -/

theorem within_ofInt {n : ℤ} {w : ℕ} (h : n.natAbs ≤ 2 ^ w) (hw : w ≤ 1023) : Within w (ofInt n) := by
  refine within_of_roundsTo (roundsTo_ofInt n) ?_ ⟨by omega, by omega⟩
  rw [← Int.cast_abs, ← Nat.cast_natAbs, zpow_natCast]
  exact_mod_cast h

theorem atLeast_ofInt {n : ℤ} (h0 : n ≠ 0) (h : n.natAbs < 2 ^ 53) : AtLeast 0 (ofInt n) := by
  refine atLeast_of_roundsTo (roundsTo_ofInt n) (abs_int_lt_overflowBound h) ?_ (by decide)
  rw [zpow_zero, ← Int.cast_abs]
  exact_mod_cast Int.one_le_abs h0

/-- The constants of the stages. -/
theorem within_const (n : ℤ) (h : n.natAbs ≤ 2 ^ 32 := by decide) : Within 32 (ofInt n) :=
  within_ofInt h (by decide)

/-- The constants the stages divide by. -/
theorem atLeast_const (n : ℤ) (h0 : n ≠ 0 := by decide) (h : n.natAbs < 2 ^ 53 := by decide) : AtLeast 0 (ofInt n) :=
  atLeast_ofInt h0 h

theorem within_f64u {w : ℕ} (x : BitVec w) (hw : w ≤ 1023 := by decide) : Within w (f64u x) :=
  within_ofInt (by simpa using x.isLt.le) hw

theorem within_f64s {w : ℕ} (x : BitVec w) (hw : w ≤ 1023 := by decide) : Within w (f64s x) := by
  refine within_ofInt ?_ hw
  have hx := x.isLt
  rw [BitVec.toInt_eq_toNat_cond]
  split <;> omega

/-! ### A divisor that is not zero is not too small -/

theorem ratOf_eq_zero_of_roundsTo {r : F64} (h : RoundsTo 0 r) : ratOf r = 0 := by
  have hlt : |(0 : ℚ)| < overflowBound := by
    rw [abs_zero]
    exact overflowBound_pos
  have hle := (h.1 hlt).2.1 (zero false) (isFinite_zero false)
  rw [ratOf_zero, sub_zero, sub_zero, abs_zero] at hle
  exact abs_nonpos_iff.1 hle

/-- In units of `2 ^ -1074`, the exact sum of 1 and a binary64 value is 0 or not below `2 ^ -53`: a value of magnitude 1/2
or more is a multiple of `2 ^ -53`, and any other stays 1/2 away from -1. -/
theorem two_pow_le_abs_add_toUnits {y : F64} (h : 2 ^ 1074 + toUnits y ≠ 0) : (2 : ℤ) ^ 1021 ≤ |2 ^ 1074 + toUnits y| := by
  obtain ⟨k, m, -, hm, -, hu⟩ := unitsOf_eq_scaled (magBits y)
  rw [← natAbs_toUnits] at hu
  rcases Nat.lt_or_ge k 1021 with hk | hk
  · have hsmall : |toUnits y| ≤ 2 ^ 1073 := by
      rw [← Int.natCast_natAbs, hu, Nat.cast_mul, Nat.cast_pow, Nat.cast_ofNat]
      calc (m : ℤ) * 2 ^ k ≤ 2 ^ 53 * 2 ^ 1020 :=
            mul_le_mul (by exact_mod_cast hm.le) (pow_le_pow_right₀ one_le_two (Nat.le_of_lt_succ hk)) (by positivity)
              (by positivity)
        _ = 2 ^ 1073 := (pow_add 2 53 1020).symm
    have hhalf : (2 : ℤ) ^ 1074 = 2 ^ 1073 * 2 := pow_succ 2 1073
    calc (2 : ℤ) ^ 1021 ≤ 2 ^ 1073 := pow_le_pow_right₀ one_le_two (by decide)
      _ ≤ 2 ^ 1074 + toUnits y := by
        rw [hhalf, mul_two, add_assoc]
        exact le_add_of_nonneg_right (neg_le_iff_add_nonneg'.1 (neg_le_of_abs_le hsmall))
      _ ≤ _ := le_abs_self _
  · have hdvd : (2 : ℤ) ^ 1021 ∣ toUnits y := by
      rw [← Int.dvd_natAbs, hu, Nat.cast_mul, Nat.cast_pow, Nat.cast_ofNat]
      exact (pow_dvd_pow 2 hk).mul_left _
    have hsum := (pow_dvd_pow (2 : ℤ) (by decide : 1021 ≤ 1074)).add hdvd
    exact Int.le_of_dvd (abs_pos.2 h) ((dvd_abs _ _).2 hsum)

theorem two_zpow_le_abs_one_add {y : F64} (h : 1 + ratOf y ≠ 0) : (2 : ℚ) ^ (-53 : ℤ) ≤ |1 + ratOf y| := by
  have hD : (0 : ℚ) < 2 ^ 1074 := pow_pos two_pos 1074
  have hunits : 1 + ratOf y = ((2 ^ 1074 + toUnits y : ℤ) : ℚ) / 2 ^ 1074 := by
    rw [ratOf, Int.cast_add, Int.cast_pow, Int.cast_ofNat, add_div, div_self hD.ne']
  have hne : (2 : ℤ) ^ 1074 + toUnits y ≠ 0 := fun h0 => h (by rw [hunits, h0, Int.cast_zero, zero_div])
  rw [hunits, abs_div, abs_of_pos hD, le_div_iff₀ hD, ← zpow_natCast, ← zpow_add₀ two_ne_zero, ← Int.cast_abs]
  have hle := two_pow_le_abs_add_toUnits hne
  calc (2 : ℚ) ^ (-53 + (1074 : ℕ) : ℤ) = ((2 ^ 1021 : ℤ) : ℚ) := by
        rw [Int.cast_pow, Int.cast_ofNat, ← zpow_natCast]
        norm_num only
    _ ≤ _ := Int.cast_le.2 hle

/-- A product that does not round to 0 has no factor 0. -/
theorem ratOf_ne_zero_of_mul {x y : F64} (hx : isFinite x = true) (hy : isFinite y = true) (h : ratOf (mul x y) ≠ 0) :
    ratOf x ≠ 0 ∧ ratOf y ≠ 0 := by
  have hprod : ratOf x * ratOf y ≠ 0 := fun h0 => h (ratOf_eq_zero_of_roundsTo (h0 ▸ roundsTo_mul hx hy))
  exact mul_ne_zero_iff.1 hprod

theorem atLeast_f64u {w : ℕ} {x : BitVec w} (h : ratOf (f64u x) ≠ 0) (hw : w ≤ 52 := by decide) :
    AtLeast 0 (f64u x) := by
  have hlt : x.toNat < 2 ^ 53 := x.isLt.trans (Nat.pow_lt_pow_right one_lt_two (Nat.lt_succ_of_le hw))
  refine atLeast_ofInt (fun h0 => h ?_) hlt
  rw [f64u, h0]
  exact ratOf_zero false

theorem atLeast_one_add {y : F64} {e : ℤ} (hy : Within e y) (h : ratOf (add (ofInt 1) y) ≠ 0)
    (he : InExpRange (max 32 e + 1) := by decide) : AtLeast (-53) (add (ofInt 1) y) := by
  have hone : isFinite (ofInt 1) = true ∧ ratOf (ofInt 1) = 1 := by
    simpa using integerConversionIsExact 1 (by decide)
  have hr := roundsTo_add hone.1 hy.1
  rw [hone.2] at hr
  have hq : |1 + ratOf y| < overflowBound := by
    refine lt_of_le_of_lt ?_ (two_zpow_lt_overflowBound he)
    refine (abs_add_le _ _).trans ((add_le_add ?_ hy.2).trans add_two_zpow_le)
    norm_num
  have hne : 1 + ratOf y ≠ 0 := fun h0 => h (ratOf_eq_zero_of_roundsTo (h0 ▸ hr))
  exact atLeast_of_roundsTo hr hq (two_zpow_le_abs_one_add hne) (by decide)

/-- The pressure sentinel holds of a finite value exactly where the value is 0 (R176). -/
theorem isSentinel_eq_true_iff_ratOf {x : F64} (hx : isFinite x = true) : isSentinel x = true ↔ ratOf x = 0 := by
  rw [isSentinel, (compare_finite hx (isFinite_zero false)).2, ratOf_zero]

/-! ### The stages -/

theorem isFinite_compT (traw : BitVec 20) (c : CalTP) : isFinite (compT traw c).1 = true := by
  have hv1 := (((within_f64u traw).div (atLeast_const 16384)).sub ((within_f64u c.t1).div (atLeast_const 1024))).mul
    (within_f64s c.t2)
  have ha := ((within_f64u traw).div (atLeast_const 131072)).sub ((within_f64u c.t1).div (atLeast_const 8192))
  have hv2 := (ha.mul ha).mul (within_f64s c.t3)
  exact ((hv1.add hv2).div (atLeast_const 5120)).1

/-- Steps 1 to 6: the final `v2` is bounded, and so is the divisor `v1`, from below too unless it is a zero. -/
theorem pressTerms_bounds (tfine : BitVec 32) (c : CalTP) :
    Within 84 (pressTerms tfine c).1 ∧ isFinite (pressTerms tfine c).2 = true ∧
      (ratOf (pressTerms tfine c).2 ≠ 0 → AtLeast (-53) (pressTerms tfine c).2) := by
  have ha := ((within_f64s tfine).div (atLeast_const 2)).sub (within_const 64000)
  have hsquare := ((ha.mul ha).mul (within_f64s c.p6)).div (atLeast_const 32768)
  have hlinear := hsquare.add ((ha.mul (within_f64s c.p5)).mul (within_const 2))
  have hv2 := (hlinear.div (atLeast_const 4)).add ((within_f64s c.p4).mul (within_const 65536))
  have hcubic := ((((within_f64s c.p3).mul ha).mul ha).div (atLeast_const 524288)).add ((within_f64s c.p2).mul ha)
  have hoffset := (hcubic.div (atLeast_const 524288)).div (atLeast_const 32768)
  have hfactor := (within_const 1).add hoffset
  have hp1 := within_f64u c.p1
  dsimp only [pressTerms]
  refine ⟨hv2.mono (by decide), (hfactor.mul hp1).1, fun hne => ?_⟩
  obtain ⟨hne1, hne2⟩ := ratOf_ne_zero_of_mul hfactor.1 hp1.1 hne
  exact (atLeast_one_add hoffset hne1).mul (atLeast_f64u hne2) hfactor hp1

theorem isFinite_pressFinish (praw : BitVec 20) {v2 v1 : F64} (c : CalTP) (hv2 : Within 84 v2) (hv1 : AtLeast (-53) v1) :
    isFinite (pressFinish praw v2 v1 c) = true := by
  have hcode := ((within_const 1048576).sub (within_f64u praw)).sub (hv2.div (atLeast_const 4096))
  have hp := (hcode.mul (within_const 6250)).div hv1
  have hsquare := (((within_f64s c.p9).mul hp).mul hp).div (atLeast_const 2147483648)
  have hlinear := (hp.mul (within_f64s c.p8)).div (atLeast_const 32768)
  have hsum := ((hsquare.add hlinear).add (within_f64s c.p7)).div (atLeast_const 16)
  exact (hp.add hsum).1

/-- The pressure is finite, for the division is by a value that is not a zero; where the sentinel holds it is 0 (R176). -/
theorem compP_finite_or_sentinel (praw : BitVec 20) (tfine : BitVec 32) (c : CalTP) :
    isFinite (compP praw tfine c).1 = true ∧ ((compP praw tfine c).2 = true → (compP praw tfine c).1 = zero false) := by
  obtain ⟨hv2, hfin, hv1⟩ := pressTerms_bounds tfine c
  unfold compP
  cases hsent : isSentinel (pressTerms tfine c).2
  · have hne : ratOf (pressTerms tfine c).2 ≠ 0 := fun h0 => by
      simp [(isSentinel_eq_true_iff_ratOf hfin).2 h0] at hsent
    simpa [hsent] using isFinite_pressFinish praw c hv2 (hv1 hne)
  · simpa [hsent] using isFinite_zero false

theorem isFinite_compH (hraw : BitVec 16) (tfine : BitVec 32) (c : CalH) : isFinite (compH hraw tfine c) = true := by
  have hx := (within_f64s tfine).sub (within_const 76800)
  have hc4 := ((within_f64s c.h4).mul (within_const 64)).add (((within_f64s c.h5).div (atLeast_const 16384)).mul hx)
  have hg3 := (within_const 1).add (((within_f64u c.h3).div (atLeast_const 67108864)).mul hx)
  have hg6 := (within_const 1).add ((((within_f64s c.h6).div (atLeast_const 67108864)).mul hx).mul hg3)
  have hh := ((within_f64u hraw).sub hc4).mul (((within_f64s c.h2).div (atLeast_const 65536)).mul hg6)
  exact (hh.mul ((within_const 1).sub (((within_f64u c.h1).mul hh).div (atLeast_const 524288)))).1

/-! ### The clamp -/

/-- A finite value comes out of the clamp inside the closed range, or as an infinity (R179). -/
theorem lim_inRange_or_inf {x : F64} (hx : isFinite x = true) {lo hi : ℤ} (hlo : lo.natAbs < 2 ^ 53 := by decide)
    (hhi : hi.natAbs < 2 ^ 53 := by decide) :
    (isFinite (lim x (ofInt lo) (ofInt hi)) = true ∧ lo ≤ ratOf (lim x (ofInt lo) (ofInt hi)) ∧
      ratOf (lim x (ofInt lo) (ofInt hi)) ≤ hi) ∨
    lim x (ofInt lo) (ofInt hi) = inf true ∨ lim x (ofInt lo) (ofInt hi) = inf false := by
  obtain ⟨hlof, hlov⟩ := integerConversionIsExact lo hlo
  obtain ⟨hhif, hhiv⟩ := integerConversionIsExact hi hhi
  have hbelow := (compare_finite hx hlof).1
  have habove := (compare_finite hhif hx).1
  rw [hlov] at hbelow
  rw [hhiv] at habove
  unfold lim
  split
  next => exact .inr (.inl rfl)
  next hnot =>
    split
    next => exact .inr (.inr rfl)
    next hnot' => exact .inl ⟨hx, not_lt.1 fun h => hnot (hbelow.2 h), not_lt.1 fun h => hnot' (habove.2 h)⟩

/-- Settles O54: the stages give finite values, which the clamp leaves in range or makes infinite; an exempted pressure is
the sentinel. -/
theorem compensatedFieldsAreInRangeOrInfinite : Obligations.CompensatedFieldsAreInRangeOrInfinite := by
  intro params r c
  obtain ⟨hp, hsent⟩ := compP_finite_or_sentinel r.praw (compT r.traw c.tp).2 c.tp
  have hrange := lim_inRange_or_inf hp (lo := 30000) (hi := 110000)
  refine ⟨?_, ?_, ?_⟩
  · exact_mod_cast lim_inRange_or_inf (isFinite_compT r.traw c.tp) (lo := -40) (hi := 85)
  · unfold compensate clampMeas
    dsimp only
    split
    next hz =>
      obtain ⟨hz, hparam⟩ := Bool.and_eq_true_iff.1 hz
      exact .inr (.inr (.inr ⟨hsent hz, by simpa using hparam⟩))
    next => exact_mod_cast hrange.imp_right (Or.imp_right Or.inl)
  · exact_mod_cast lim_inRange_or_inf (isFinite_compH r.hraw (compT r.traw c.tp).2 c.hu) (lo := 0) (hi := 100)

end Sys2Proof.F64
end

section
/-! The proofs about the words of the two ports (30_encoding.md, R60 to R66): decoding gives back what was encoded and
takes no other byte, and a word of the opcode table is the bytes of one instruction. -/

namespace Sys2Proof

/-! ### An encoded instruction decodes to itself -/

/-- An opcode followed by operand bytes that build `i` decodes to `i`. -/
theorem decodeHost_of_operands {op : Byte} {n : Nat} {os rest : List Byte} {build : List Byte → Instr} {i : Instr}
    (hop : ∀ bs, decodeHost (op :: bs) = withOperands n bs build) (hlen : os.length = n) (hi : build os = i) :
    decodeHost (op :: os ++ rest) = .ok (i, rest) := by
  rw [List.cons_append, hop, withOperands_append n os rest build hlen, hi]

/-- The same for an instruction whose operands are one configuration. -/
theorem decodeHost_of_cfg {op : Byte} {cmd : Cfg → Instr} {rest : List Byte} (c : Cfg)
    (hop : ∀ bs, decodeHost (op :: bs) = withOperands 6 bs fun o => cmd (cfgOf o)) :
    decodeHost (op :: cfgBytes c ++ rest) = .ok (cmd c, rest) :=
  decodeHost_of_operands hop rfl rfl

/-- A `cal` operand behind `k` other operand bytes gives back its record. -/
theorem calOperandAt_append_calBytes {as : List Byte} {k : Nat} {c : CalOperand} (has : as.length = k)
    (hc : c.wellFormed = true) : calOperandAt (as ++ calBytes c) k = c := by
  rw [calOperandAt_append_right as _ k k has le_rfl, Nat.sub_self, calOperandAt_calBytes c hc]

/-- A field behind `k` other operand bytes gives back its register. -/
theorem leField_append_leBytes {as bs : List Byte} {k w n : Nat} {x : BitVec w} (has : as.length = k)
    (hw : 2 ^ w = 256 ^ n) : leField w (as ++ (leBytes n x.toNat ++ bs)) k n = x := by
  rw [leField_append_right w as _ k n k has le_rfl, Nat.sub_self, leField_leBytes w n x bs hw]

theorem decodeHost_encode_decodeH {c rest : List Byte} {h1 : Byte} (hc : c.length = 8) :
    decodeHost (encode (.decodeH c h1) ++ rest) = .ok (.decodeH c h1, rest) := by
  refine decodeHost_of_operands decodeHost_decodeH (by simp [hc]) ?_
  rw [slice_append_left c [h1] 8 hc, byteAt_append_right c [h1] 8 8 hc le_rfl]
  rfl

theorem decodeHost_encode_compT {traw : BitVec 32} {cal : CalOperand} {rest : List Byte}
    (h : cal.wellFormed = true) :
    decodeHost (encode (.compT traw cal) ++ rest) = .ok (.compT traw cal, rest) := by
  refine decodeHost_of_operands decodeHost_compT (by simp [length_calBytes cal h]) ?_
  rw [leField_leBytes 32 4 traw _ (by norm_num), calOperandAt_append_calBytes (length_leBytes 4 _) h]

theorem decodeHost_encode_compP {praw tfine : BitVec 32} {cal : CalOperand} {rest : List Byte}
    (h : cal.wellFormed = true) :
    decodeHost (encode (.compP praw tfine cal) ++ rest) = .ok (.compP praw tfine cal, rest) := by
  refine decodeHost_of_operands decodeHost_compP (by simp [length_calBytes cal h]) ?_
  rw [calOperandAt_append_calBytes (by simp) h, List.append_assoc, leField_leBytes 32 4 praw _ (by norm_num),
    leField_append_leBytes (length_leBytes 4 _) (by norm_num)]

theorem decodeHost_encode_compH {hraw : BitVec 16} {tfine : BitVec 32} {cal : CalOperand} {rest : List Byte}
    (h : cal.wellFormed = true) :
    decodeHost (encode (.compH hraw tfine cal) ++ rest) = .ok (.compH hraw tfine cal, rest) := by
  refine decodeHost_of_operands decodeHost_compH (by simp [length_calBytes cal h]) ?_
  rw [calOperandAt_append_calBytes (by simp) h, List.append_assoc, leField_leBytes 16 2 hraw _ (by norm_num),
    leField_append_leBytes (length_leBytes 2 _) (by norm_num)]

theorem decodeHost_encode_clamp {t p h : F64} {flag : Byte} {rest : List Byte} :
    decodeHost (encode (.clamp t p h flag) ++ rest) = .ok (.clamp t p h flag, rest) := by
  refine decodeHost_of_operands decodeHost_clamp (by simp) ?_
  rw [byteAt_append_right _ [flag] 24 24 (by simp) le_rfl, List.append_assoc,
    leField_append_leBytes (k := 16) (by simp) (by norm_num), List.append_assoc,
    leField_append_leBytes (length_leBytes 8 _) (by norm_num), leField_leBytes 64 8 t _ (by norm_num)]
  rfl

theorem decodeHost_encode_compensate {praw traw : BitVec 32} {hraw : BitVec 16} {cal : CalOperand}
    {rest : List Byte} (h : cal.wellFormed = true) :
    decodeHost (encode (.compensate praw traw hraw cal) ++ rest) = .ok (.compensate praw traw hraw cal, rest) := by
  refine decodeHost_of_operands decodeHost_compensate (by simp [length_calBytes cal h]) ?_
  rw [calOperandAt_append_calBytes (by simp) h, List.append_assoc, leField_append_leBytes (k := 8) (by simp) (by norm_num),
    List.append_assoc, leField_append_leBytes (length_leBytes 4 _) (by norm_num),
    leField_leBytes 32 4 praw _ (by norm_num)]

theorem decodeHost_encode_nearestStandby {req : BitVec 64} {rest : List Byte} :
    decodeHost (encode (.nearestStandby req) ++ rest) = .ok (.nearestStandby req, rest) := by
  refine decodeHost_of_operands decodeHost_nearestStandby (length_leBytes 8 _) ?_
  rw [← List.append_nil (leBytes 8 req.toNat), leField_leBytes 64 8 req _ (by norm_num)]

/-- Settles O1: by the instruction; each opcode's operand bytes build it again. -/
theorem decodeOfEncodeIsTheInstruction : Obligations.DecodeOfEncodeIsTheInstruction := by
  intro i rest hwf
  cases i with
  | writeReg reg val => exact decodeHost_of_operands (os := [reg, val]) decodeHost_writeReg rfl rfl
  | readRegs reg count => exact decodeHost_of_operands (os := [reg, count]) decodeHost_readRegs rfl rfl
  | decodeTp b => exact decodeHost_of_operands decodeHost_decodeTp (beq_iff_eq.mp hwf) rfl
  | decodeH c h1 => exact decodeHost_encode_decodeH (beq_iff_eq.mp hwf)
  | unpackRaw d => exact decodeHost_of_operands decodeHost_unpackRaw (beq_iff_eq.mp hwf) rfl
  | compT traw cal => exact decodeHost_encode_compT hwf
  | compP praw tfine cal => exact decodeHost_encode_compP hwf
  | compH hraw tfine cal => exact decodeHost_encode_compH hwf
  | clamp t p h flag => exact decodeHost_encode_clamp
  | compensate praw traw hraw cal => exact decodeHost_encode_compensate hwf
  | validateCfg c => exact decodeHost_of_cfg c decodeHost_validateCfg
  | encCtrlHum c => exact decodeHost_of_cfg c decodeHost_encCtrlHum
  | encCtrlMeas c => exact decodeHost_of_cfg c decodeHost_encCtrlMeas
  | encConfig c => exact decodeHost_of_cfg c decodeHost_encConfig
  | durTypical c => exact decodeHost_of_cfg c decodeHost_durTypical
  | durMax c => exact decodeHost_of_cfg c decodeHost_durMax
  | durCycle c => exact decodeHost_of_cfg c decodeHost_durCycle
  | nearestStandby req => exact decodeHost_encode_nearestStandby
  | init => exact decodeHost_of_operands (os := []) decodeHost_init rfl rfl
  | configure c => exact decodeHost_of_cfg c decodeHost_configure
  | softReset => exact decodeHost_of_operands (os := []) decodeHost_softReset rfl rfl
  | readMeas => exact decodeHost_of_operands (os := []) decodeHost_readMeas rfl rfl
  | close => exact decodeHost_of_operands (os := []) decodeHost_close rfl rfl
  | rdId | rdCal1 | rdCal2 | rdCalH1 | rdData | wrReset => rfl
  | wrCtrlHum val => exact (decodeFrame_wrCtrlHum _).trans (withOperands_append 1 [val] rest _ rfl)
  | wrCtrlMeas val => exact (decodeFrame_wrCtrlMeas _).trans (withOperands_append 1 [val] rest _ rfl)
  | wrConfig val => exact (decodeFrame_wrConfig _).trans (withOperands_append 1 [val] rest _ rfl)

/-! ### A decoded instruction is the bytes it was read from -/

/-- Whatever `n` bytes `build` is given, it makes a well-formed instruction of port `p`, encoded as `op` and those bytes. -/
def BuildsFromOperands (p : Port) (op : Byte) (n : Nat) (build : List Byte → Instr) : Prop :=
  ∀ os, os.length = n →
    (build os).WellFormed = true ∧ portOf (build os) = p ∧ encode (build os) = op :: os

theorem BuildsFromOperands.of_ok {p : Port} {op : Byte} {n : Nat} {build : List Byte → Instr} {bs rest : List Byte}
    {i : Instr} (hb : BuildsFromOperands p op n build) (h : withOperands n bs build = .ok (i, rest)) :
    i.WellFormed = true ∧ portOf i = p ∧ encode i ++ rest = op :: bs := by
  obtain ⟨os, hlen, rfl, rfl⟩ := withOperands_ok h
  obtain ⟨hwf, hp, he⟩ := hb os hlen
  exact ⟨hwf, hp, by rw [he, List.cons_append]⟩

theorem buildsFromOperands_none {op : Byte} {i : Instr} (hwf : i.WellFormed = true) (hp : portOf i = .host)
    (he : encode i = [op]) : BuildsFromOperands .host op 0 fun _ => i :=
  fun _ h => ⟨hwf, hp, by rw [he, List.length_eq_zero_iff.mp h]⟩

theorem buildsFromOperands_byte {op : Byte} {cmd : Byte → Instr} (hwf : ∀ b, (cmd b).WellFormed = true)
    (hp : ∀ b, portOf (cmd b) = .bus) (he : ∀ b, encode (cmd b) = [op, b]) :
    BuildsFromOperands .bus op 1 fun o => cmd (byteAt o 0)
  | [b], _ => ⟨hwf b, hp b, he b⟩

theorem buildsFromOperands_twoBytes {op : Byte} {cmd : Byte → Byte → Instr} (hwf : ∀ a b, (cmd a b).WellFormed = true)
    (hp : ∀ a b, portOf (cmd a b) = .host) (he : ∀ a b, encode (cmd a b) = [op, a, b]) :
    BuildsFromOperands .host op 2 fun o => cmd (byteAt o 0) (byteAt o 1)
  | [a, b], _ => ⟨hwf a b, hp a b, he a b⟩

theorem buildsFromOperands_cfg {op : Byte} {cmd : Cfg → Instr} (hwf : ∀ c, (cmd c).WellFormed = true)
    (hp : ∀ c, portOf (cmd c) = .host) (he : ∀ c, encode (cmd c) = op :: cfgBytes c) :
    BuildsFromOperands .host op 6 fun o => cmd (cfgOf o) :=
  fun o h => ⟨hwf _, hp _, by rw [he, cfgBytes_cfgOf o h]⟩

theorem buildsFromOperands_decodeTp : BuildsFromOperands .host 0x10 24 fun o => .decodeTp o :=
  fun _ h => ⟨beq_iff_eq.mpr h, rfl, rfl⟩

theorem buildsFromOperands_decodeH : BuildsFromOperands .host 0x11 9 fun o => .decodeH (slice o 0 8) (byteAt o 8) := by
  intro o h
  refine ⟨beq_iff_eq.mpr (length_slice o 0 8 (by omega)), rfl, ?_⟩
  rw [encode, singleton_byteAt o 8 (by omega), slice_append_slice o 0 8 1, slice_whole o 9 h]

theorem buildsFromOperands_unpackRaw : BuildsFromOperands .host 0x20 8 fun o => .unpackRaw o :=
  fun _ h => ⟨beq_iff_eq.mpr h, rfl, rfl⟩

theorem buildsFromOperands_compT :
    BuildsFromOperands .host 0x21 37 fun o => .compT (leField 32 o 0 4) (calOperandAt o 4) := by
  intro o h
  refine ⟨wellFormed_calOperandAt o 4 (by omega), rfl, ?_⟩
  rw [encode, leBytes_leField 32 4 o 0 (by norm_num) (by omega), calBytes_calOperandAt o 4 (by omega),
    slice_append_slice o 0 4 33, slice_whole o 37 h]

theorem buildsFromOperands_compP : BuildsFromOperands .host 0x22 41 fun o =>
    .compP (leField 32 o 0 4) (leField 32 o 4 4) (calOperandAt o 8) := by
  intro o h
  refine ⟨wellFormed_calOperandAt o 8 (by omega), rfl, ?_⟩
  rw [encode, leBytes_leField 32 4 o 0 (by norm_num) (by omega), leBytes_leField 32 4 o 4 (by norm_num) (by omega),
    calBytes_calOperandAt o 8 (by omega), slice_append_slice o 0 4 4, slice_append_slice o 0 8 33, slice_whole o 41 h]

theorem buildsFromOperands_compH : BuildsFromOperands .host 0x23 39 fun o =>
    .compH (leField 16 o 0 2) (leField 32 o 2 4) (calOperandAt o 6) := by
  intro o h
  refine ⟨wellFormed_calOperandAt o 6 (by omega), rfl, ?_⟩
  rw [encode, leBytes_leField 16 2 o 0 (by norm_num) (by omega), leBytes_leField 32 4 o 2 (by norm_num) (by omega),
    calBytes_calOperandAt o 6 (by omega), slice_append_slice o 0 2 4, slice_append_slice o 0 6 33, slice_whole o 39 h]

theorem buildsFromOperands_clamp : BuildsFromOperands .host 0x24 25 fun o =>
    .clamp (leField 64 o 0 8) (leField 64 o 8 8) (leField 64 o 16 8) (byteAt o 24) := by
  intro o h
  refine ⟨rfl, rfl, ?_⟩
  rw [encode, leBytes_leField 64 8 o 0 (by norm_num) (by omega), leBytes_leField 64 8 o 8 (by norm_num) (by omega),
    leBytes_leField 64 8 o 16 (by norm_num) (by omega), singleton_byteAt o 24 (by omega), slice_append_slice o 0 8 8,
    slice_append_slice o 0 16 8, slice_append_slice o 0 24 1, slice_whole o 25 h]

theorem buildsFromOperands_compensate : BuildsFromOperands .host 0x25 43 fun o =>
    .compensate (leField 32 o 0 4) (leField 32 o 4 4) (leField 16 o 8 2) (calOperandAt o 10) := by
  intro o h
  refine ⟨wellFormed_calOperandAt o 10 (by omega), rfl, ?_⟩
  rw [encode, leBytes_leField 32 4 o 0 (by norm_num) (by omega), leBytes_leField 32 4 o 4 (by norm_num) (by omega),
    leBytes_leField 16 2 o 8 (by norm_num) (by omega), calBytes_calOperandAt o 10 (by omega),
    slice_append_slice o 0 4 4, slice_append_slice o 0 8 2, slice_append_slice o 0 10 33, slice_whole o 43 h]

theorem buildsFromOperands_nearestStandby :
    BuildsFromOperands .host 0x37 8 fun o => .nearestStandby (leField 64 o 0 8) := by
  intro o h
  refine ⟨rfl, rfl, ?_⟩
  rw [encode, leBytes_leField 64 8 o 0 (by norm_num) (by omega), slice_whole o 8 h]

/-- Every opcode of the map builds its command from the operand bytes it takes (R62). -/
theorem decodeHost_builds (op : Byte) (bs : List Byte) :
    decodeHost (op :: bs) = .error .undefinedOpcode ∨
    ∃ n build, decodeHost (op :: bs) = withOperands n bs build ∧ BuildsFromOperands .host op n build := by
  simp only [decodeHost]
  split
  case h_24 => exact .inl rfl
  all_goals
    rename_i hop
    obtain ⟨-, rfl⟩ := BitVec.toNat_eq_nat.mp hop
    refine .inr ⟨_, _, rfl, ?_⟩
  case h_1 | h_2 => exact buildsFromOperands_twoBytes (fun _ _ => rfl) (fun _ _ => rfl) (fun _ _ => rfl)
  case h_3 => exact buildsFromOperands_decodeTp
  case h_4 => exact buildsFromOperands_decodeH
  case h_5 => exact buildsFromOperands_unpackRaw
  case h_6 => exact buildsFromOperands_compT
  case h_7 => exact buildsFromOperands_compP
  case h_8 => exact buildsFromOperands_compH
  case h_9 => exact buildsFromOperands_clamp
  case h_10 => exact buildsFromOperands_compensate
  case h_18 => exact buildsFromOperands_nearestStandby
  case h_19 | h_21 | h_22 | h_23 => exact buildsFromOperands_none rfl rfl rfl
  all_goals exact buildsFromOperands_cfg (fun _ => rfl) (fun _ => rfl) (fun _ => rfl)

/-- The frames of the nine transactions: five reads of one byte, three writes of any byte, and the reset's one word (R66). -/
theorem encode_of_decodeFrame {reg : Byte} {bs rest : List Byte} {i : Instr}
    (h : decodeFrame (reg :: bs) = .ok (i, rest)) :
    i.WellFormed = true ∧ portOf i = .bus ∧ encode i ++ rest = reg :: bs := by
  simp only [decodeFrame] at h
  split at h
  case h_10 => cases h
  all_goals
    rename_i hreg
    obtain ⟨-, rfl⟩ := BitVec.toNat_eq_nat.mp hreg
  case h_6 | h_7 | h_8 => exact (buildsFromOperands_byte (fun _ => rfl) (fun _ => rfl) (fun _ => rfl)).of_ok h
  case h_9 =>
    split at h
    next hval =>
      obtain ⟨os, hlen, rfl, rfl⟩ := withOperands_ok h
      obtain ⟨b, rfl⟩ := List.length_eq_one_iff.mp hlen
      obtain rfl : b = 0xB6 := hval
      exact ⟨rfl, rfl, rfl⟩
    next => cases h
  all_goals
    cases h
    exact ⟨rfl, rfl, rfl⟩

/-- Settles O2: by the port and its opcode; what is built from operand bytes is encoded by them. -/
theorem encodeOfDecodeIsTheBytesRead : Obligations.EncodeOfDecodeIsTheBytesRead := by
  intro p bs rest i h
  match p, bs, h with
  | .host, op :: bs, h =>
    rw [decode] at h
    rcases decodeHost_builds op bs with herr | ⟨n, build, hdec, hbuild⟩
    · rw [herr] at h
      cases h
    · rw [hdec] at h
      exact hbuild.of_ok h
  | .bus, reg :: bs, h => exact encode_of_decodeFrame h

/-! ### Opcodes and lengths -/

theorem withOperands_ne_undefinedOpcode (n : Nat) (bs : List Byte) (build : List Byte → Instr) :
    withOperands n bs build ≠ .error .undefinedOpcode := by
  unfold withOperands
  split <;> simp

theorem decodeHost_undefinedOpcode_iff (op : Byte) (bs : List Byte) :
    decodeHost (op :: bs) = .error .undefinedOpcode ↔ commandLength op.toNat = none := by
  rcases decodeHost_cases op bs with ⟨hdec, hlen⟩ | ⟨n, build, hdec, hlen⟩
  · simp [hdec, hlen]
  · simp [hdec, hlen, withOperands_ne_undefinedOpcode]

/-- The gaps of the opcode map (R63). -/
theorem commandLength_eq_none_iff (n : Nat) :
    commandLength n = none ↔
      (n = 0x00 ∨ (0x03 ≤ n ∧ n ≤ 0x0F) ∨ (0x12 ≤ n ∧ n ≤ 0x1F) ∨ (0x26 ≤ n ∧ n ≤ 0x2F) ∨ (0x38 ≤ n ∧ n ≤ 0x3F) ∨
        0x45 ≤ n) := by
  unfold commandLength
  split
  case h_24 =>
    simp only [imp_false, true_iff] at *
    omega
  all_goals simp

/-- Settles O3: a byte spells no command where the map gives it no length. -/
theorem opcodesOutsideTheMapSpellNoCommand : Obligations.OpcodesOutsideTheMapSpellNoCommand :=
  fun op bs => (decodeHost_undefinedOpcode_iff op bs).trans (commandLength_eq_none_iff op.toNat)

/-- Settles O4: the operands a command takes are one byte fewer than its length. -/
theorem commandLengthIsFixedByTheOpcode : Obligations.CommandLengthIsFixedByTheOpcode := by
  intro op bs len hlen
  rcases decodeHost_cases op bs with ⟨-, hnone⟩ | ⟨n, build, hdec, hsome⟩
  · rw [hnone] at hlen
    cases hlen
  obtain rfl : n + 1 = len := Option.some.inj (hsome.symm.trans hlen)
  rw [hdec, withOperands, List.drop_succ_cons]
  constructor
  · intro hshort
    rw [if_pos (by omega)]
  · intro henough
    rw [if_neg (by omega)]
    exact ⟨_, rfl⟩

/-- Settles O5: each word by evaluating the decoder on it. -/
theorem writtenOutWordsDecode : Obligations.WrittenOutWordsDecode := by
  refine ⟨?_, ?_, ?_, ?_, ?_, ?_, ?_⟩ <;> decide

/-! ### Words of the opcode table -/

/-- Bytes that decode still do with more behind them. -/
theorem decode_append {p : Port} {bs rest : List Byte} {i : Instr} (h : decode p bs = .ok (i, rest))
    (more : List Byte) : decode p (bs ++ more) = .ok (i, rest ++ more) := by
  obtain ⟨hwf, rfl, rfl⟩ := encodeOfDecodeIsTheBytesRead p bs rest i h
  rw [List.append_assoc]
  exact decodeOfEncodeIsTheInstruction i (rest ++ more) hwf

theorem withOperands_exact {n : Nat} {bs rest : List Byte} {build : List Byte → Instr} {i : Instr}
    (h : withOperands n bs build = .ok (i, rest)) (hlen : bs.length = n) : rest = [] := by
  obtain ⟨os, hos, -, rfl⟩ := withOperands_ok h
  rw [List.length_append] at hlen
  exact List.length_eq_zero_iff.mp (by omega)

theorem decodeFrame_softResetRegister (bs : List Byte) : decodeFrame (0xE0 :: bs) =
    if byteAt bs 0 = 0xB6 then withOperands 1 bs fun _ => .wrReset else .error .notAFrame := rfl

theorem decodeFrame_write_exact {reg val : Byte} {rest : List Byte} {i : Instr}
    (hreg : reg = 0xF2 ∨ reg = 0xF4 ∨ reg = 0xF5 ∨ reg = 0xE0) (h : decodeFrame [reg, val] = .ok (i, rest)) :
    rest = [] := by
  rcases hreg with rfl | rfl | rfl | rfl
  · exact withOperands_exact (n := 1) (decodeFrame_wrCtrlHum _ ▸ h) rfl
  · exact withOperands_exact (n := 1) (decodeFrame_wrCtrlMeas _ ▸ h) rfl
  · exact withOperands_exact (n := 1) (decodeFrame_wrConfig _ ▸ h) rfl
  · rw [decodeFrame_softResetRegister] at h
    split at h
    next => exact withOperands_exact h rfl
    next => cases h

theorem encode_ne_nil (i : Instr) : encode i ≠ [] := by
  cases i <;> exact List.cons_ne_nil _ _

/-- A frame of one byte leaves nothing: every encoding holds a byte. -/
theorem decode_singleton_exact {p : Port} {b : Byte} {rest : List Byte} {i : Instr}
    (h : decode p [b] = .ok (i, rest)) : rest = [] := by
  obtain ⟨-, -, he⟩ := encodeOfDecodeIsTheBytesRead p [b] rest i h
  obtain ⟨op, os, hi⟩ := List.exists_cons_of_ne_nil (encode_ne_nil i)
  rw [hi] at he
  exact (List.append_eq_nil_iff.mp (List.cons.inj he).2).2

/-- A number cut to the length its low byte's opcode fixes has no byte too many. -/
theorem decodeHost_leBytes_exact {d w : Nat} {rest : List Byte} {i : Instr}
    (h : decodeHost (leBytes ((commandLength (w % 256)).getD d) w) = .ok (i, rest)) : rest = [] := by
  cases hlen : (commandLength (w % 256)).getD d with
  | zero =>
    rw [hlen] at h
    cases h
  | succ k =>
    rw [hlen, leBytes] at h
    rcases decodeHost_cases (BitVec.ofNat 8 w) (leBytes k (w / 256)) with ⟨herr, -⟩ | ⟨n, build, hdec, hsome⟩
    · rw [herr] at h
      cases h
    · have hn : n + 1 = k + 1 := by
        rw [BitVec.toNat_ofNat] at hsome
        rw [← hlen, hsome, Option.getD_some]
      rw [hdec] at h
      exact withOperands_exact h (by rw [length_leBytes]; omega)

/-- A table row's word that is read as an instruction is that instruction's bytes and no more. -/
theorem decode_of_decodeTableWord {nbits w : Nat} {i : Instr} (h : decodeTableWord nbits w = some i) :
    decode (tableBytes nbits w).1 (tableBytes nbits w).2 = .ok (i, []) := by
  unfold decodeTableWord at h
  split at h
  next j rest hdec =>
    cases h
    suffices rest = [] by rw [hdec, this]
    unfold tableBytes at hdec
    dsimp only at hdec
    split at hdec
    next hwrite =>
      refine decodeFrame_write_exact ?_ hdec
      rcases hwrite.2 with hreg | hreg | hreg | hreg <;> simp [hreg]
    next =>
      split at hdec
      next => exact decode_singleton_exact hdec
      next => exact decodeHost_leBytes_exact hdec
  next => cases h

end Sys2Proof
end

section
/-! The proofs about what the words of the ports do (30_encoding.md): a word placed at the fetch is what the next step
runs, what is no command is refused, a register access puts its frames on the bus, a step appends framed transactions of
the own address (R64, R65, R71), a façade command those of R66, and the pseudo-commands run their expansions (R74). -/

namespace Sys2Proof.Machine

/-- Bytes placed at the fetch are what it reads, and the ports are then as they were. -/
theorem fetch_withFetchBytes {s : State} {pb : Port × List Byte} {i : Instr} (h : decode pb.1 pb.2 = .ok (i, [])) :
    fetch (s.withFetchBytes pb) = .run i (if pb.1 = .host then { s with frameIn := [] } else s) := by
  obtain ⟨p, bs⟩ := pb
  cases p with
  | host => exact (fetch_eq_fetchHost rfl).trans (fetchHost_of_decode (decode_append h s.hostIn))
  | bus => exact fetch_of_decode_bus (decode_append h s.frameIn)

/-- Settles O8: the word's bytes are those of the one instruction, so nothing of them stays on the port. -/
theorem placedTableWordIsTheNextInstruction : Obligations.PlacedTableWordIsTheNextInstruction := by
  intro s nbits w i h
  have hdec := decode_of_decodeTableWord h
  obtain ⟨-, hport, -⟩ := encodeOfDecodeIsTheBytesRead _ _ _ _ hdec
  rw [hport]
  exact step_of_fetch_run (fetch_withFetchBytes hdec)

/-! ### What is no command -/

theorem step_of_fetch_refuse {s u : State} {r : RefuseReason} (h : fetch s = .refuse r u) :
    step s = .next (u.refusedWith r) := by
  rw [step, h, ← reply_refuse]

/-- Settles O7: with the bus port empty, by the host port's decode result. -/
theorem stepRefusesWhatIsNoCommand : Obligations.StepRefusesWhatIsNoCommand := by
  intro s hbus
  have hfetch := fetch_eq_fetchHost hbus
  refine ⟨fun hdec => step_of_fetch_refuse ?_, fun hdec => step_of_fetch_refuse ?_, fun hnone => ?_⟩
  · rw [hfetch, fetchHost, hdec, List.drop_one]
  · rw [hfetch, fetchHost, hdec]
  · have hidle : fetch s = .idle := by rw [hfetch, fetchHost, hnone, decode, decodeHost]
    rw [step, hidle]

/-! ### Register accesses that go through -/

/-- Settles O17: the instruction is one register write, which goes through. -/
theorem registerWriteCompletes : Obligations.RegisterWriteCompletes := by
  intro i s reg val hi hopen hdraws
  rw [exec_eq_reply, cmdOf_of_writeOf hi, writeCmd, memWrite_goesThrough reg val s hopen hdraws, reply_succeed]

/-- Settles O18: the instruction is one register read, which gives its bytes. -/
theorem registerReadCompletes : Obligations.RegisterReadCompletes := by
  intro i s reg n bs hi hopen hdraws
  rw [exec_eq_reply, cmdOf_of_readOf hi s hopen, readCmd, memRead_gives reg n bs s hopen hdraws, reply_succeed]

/-! ### What a step appends to the trace -/

/-- From `s` to `t` the own address stays, and the trace grows by events that may stand anywhere on the bus. -/
def AppendsFramed (s t : State) : Prop :=
  t.devAddr = s.devAddr ∧ ∃ es, t.trace = s.trace ++ es ∧ ∀ p, framed s.devAddr p es = true

theorem AppendsFramed.of_same {s t : State} (ha : t.devAddr = s.devAddr) (ht : t.trace = s.trace) :
    AppendsFramed s t :=
  ⟨ha, [], by rw [ht, List.append_nil], fun p => by cases p <;> rfl⟩

theorem BusRun.appendsFramed {s t : State} {fs : List (List Byte)} (h : BusRun s t fs) : AppendsFramed s t := by
  obtain ⟨es, ht, hes, -⟩ := h.trace_append
  exact ⟨h.devAddr, es, ht, hes⟩

theorem AppendsFramed.trans {s t u : State} (h : AppendsFramed s t) (k : AppendsFramed t u) : AppendsFramed s u := by
  obtain ⟨ha, es, ht, hes⟩ := h
  obtain ⟨hb, fs, hu, hfs⟩ := k
  rw [ha] at hb hfs
  exact ⟨hb, es ++ fs, by rw [hu, ht, List.append_assoc], fun p => framed_append _ _ _ _ (hes p) hfs⟩

/-- Whatever a command does to the state, its transport calls are the only events. -/
theorem CmdEffect.appendsFramed {i : Instr} {s t : State} {o : CmdOutcome} (h : CmdEffect i s o t) :
    AppendsFramed s t := by
  cases h with
  | refused | computed | tied | closed => exact .of_same rfl rfl
  | failed _ _ _ hb | accessed _ _ _ hb => exact hb.appendsFramed
  | initialised _ _ _ _ hb | configured _ _ _ _ _ hb | reset _ _ _ hb | measured _ _ _ _ _ hb =>
    exact hb.appendsFramed.trans (.of_same rfl rfl)
  | resetThenFailed _ _ _ _ u hb _ _ _ ht =>
    exact (hb.appendsFramed.trans (.of_same (t := u.afterSoftReset) rfl rfl)).trans ht.appendsFramed
  | resetThenConfigured _ _ _ _ u hb _ _ _ _ _ ht =>
    exact ((hb.appendsFramed.trans (.of_same (t := u.afterSoftReset) rfl rfl)).trans ht.appendsFramed).trans
      (.of_same rfl rfl)

theorem step_appendsFramed {s t : State} (h : step s = .next t) : AppendsFramed s t := by
  rcases step_next_cases h with rfl | ⟨i, u, hu, hexec⟩ | ⟨r, u, hu, rfl⟩
  · exact .of_same rfl rfl
  · obtain ⟨o, v, hcmd, rfl⟩ := exec_next_cases hexec
    have hfetch : AppendsFramed s u := .of_same (by rw [hu]) (by rw [hu])
    exact (hfetch.trans (cmd_effect hcmd).appendsFramed).trans (.of_same rfl rfl)
  · exact .of_same (by rw [State.refusedWith_devAddr, hu]) (by rw [State.refusedWith_trace, hu])

/-- Settles O21: by what a step can do; between steps the bus is free. -/
theorem stepAppendsOnlyFramedTransactions : Obligations.StepAppendsOnlyFramedTransactions := by
  intro s t h
  obtain ⟨-, es, ht, hes⟩ := step_appendsFramed h
  exact ⟨es, ht, hes .free⟩

/-! ### The write frames of a façade command -/

/-- From `s` to `t` the trace grows by events whose write frames are the first of `frames`, as far as it got, and all
of them when `o` is a success. -/
def EmitsFrames (s t : State) (o : CmdOutcome) (frames : List (List Byte)) : Prop :=
  ∃ es, t.trace = s.trace ++ es ∧ framesOf es <+: frames ∧ ((∃ p, o = .success p) → framesOf es = frames)

theorem EmitsFrames.of_error {s t : State} {fs frames : List (List Byte)} (e : CmdError) (hb : BusRun s t fs)
    (hf : fs <+: frames) : EmitsFrames s t (.error e) frames := by
  obtain ⟨es, ht, -, rfl⟩ := hb.trace_append
  exact ⟨es, ht, hf, fun h => nomatch h⟩

theorem EmitsFrames.of_refused (s : State) (r : RefuseReason) (frames : List (List Byte)) :
    EmitsFrames s s (.refused r) frames :=
  ⟨[], (List.append_nil _).symm, List.nil_prefix, fun h => nomatch h⟩

theorem EmitsFrames.of_success {s t u : State} {frames : List (List Byte)} (p : Payload) (hb : BusRun s u frames)
    (ht : t.trace = u.trace) : EmitsFrames s t (.success p) frames := by
  obtain ⟨es, hu, -, rfl⟩ := hb.trace_append
  exact ⟨es, ht.trans hu, List.prefix_rfl, fun _ => rfl⟩

theorem initCmd_emitsFrames {s t : State} {o : CmdOutcome} (h : initCmd s = (o, t)) :
    EmitsFrames s t o [[0xD0], [0x88], [0xE1], [0xA1]] := by
  rcases initCmd_cases h with ⟨e, fs, rfl, hb, hf⟩ | ⟨rfl, -, u, k, hb, rfl⟩
  · exact .of_error e hb hf
  · exact .of_success _ hb rfl

theorem configureCmd_emitsFrames {c : Cfg} {s t : State} {o : CmdOutcome} (h : configureCmd c s = (o, t)) :
    EmitsFrames s t o (configureFrames s.params.configLayout c) := by
  rcases configureCmd_cases h with ⟨e, fs, rfl, hb, hf⟩ | ⟨rfl, rfl, -⟩ | ⟨rfl, -, -, u, hb, rfl⟩
  · exact .of_error e hb hf
  · exact .of_refused _ _ _
  · exact .of_success _ hb rfl

theorem softResetCmd_emitsFrames {s t : State} {o : CmdOutcome} (hr : s.params.resetReappliesConfig = false)
    (h : softResetCmd s = (o, t)) : EmitsFrames s t o [[0xE0, 0xB6]] := by
  rcases softResetCmd_cases h with ⟨c, fs, rfl, hb, hf⟩ | ⟨-, u, hb, hre⟩
  · exact .of_error _ hb hf
  rcases reapplyAfterReset_cases hre with ⟨rfl, rfl, -⟩ | ⟨c, -, hparam, -, -⟩
  · exact .of_success _ hb rfl
  · rw [State.afterSoftReset_params, hb.params, hr] at hparam
    cases hparam

theorem readMeasCmd_emitsFrames {s t : State} {o : CmdOutcome} (h : readMeasCmd s = (o, t)) :
    EmitsFrames s t o [[0xF7]] := by
  rcases readMeasCmd_cases h with ⟨c, fs, rfl, hb, hf⟩ | ⟨r, rfl, rfl⟩ | ⟨-, -, u, m, hb, rfl, rfl⟩
  · exact .of_error _ hb hf
  · exact .of_refused _ _ _
  · exact .of_success _ hb rfl

/-- The façade commands, each with the frames of R66. -/
theorem facade_emitsFrames {i : Instr} {s t : State} {o : CmdOutcome}
    (hi : i = .init ∨ (∃ c, i = .configure c) ∨ i = .softReset ∨ i = .readMeas ∨ i = .close)
    (hr : s.params.resetReappliesConfig = false) (h : cmdOf i s = (o, t)) :
    EmitsFrames s t o (facadeFrames s.params.configLayout i) := by
  rcases hi with rfl | ⟨c, rfl⟩ | rfl | rfl | rfl
  · exact initCmd_emitsFrames h
  · exact configureCmd_emitsFrames h
  · exact softResetCmd_emitsFrames hr h
  · exact readMeasCmd_emitsFrames h
  · cases h
    exact .of_success _ (BusRun.refl s) rfl

/-- Settles O22: returning the outcome adds nothing to the trace. -/
theorem facadeEmitsOnlyItsTransactions : Obligations.FacadeEmitsOnlyItsTransactions := by
  intro i s t hi hr hexec
  obtain ⟨o, u, hcmd, rfl⟩ := exec_next_cases hexec
  obtain ⟨es, ht, hfirst, hall⟩ := facade_emitsFrames hi hr hcmd
  refine ⟨es, ht, hfirst, fun ⟨p, hp⟩ => hall ⟨p, ?_⟩⟩
  rw [reply_result] at hp
  exact Option.some.inj hp

/-! ### The pseudo-commands -/

/-- A successful SOFT_RESET has no payload (R205). -/
theorem softResetCmd_success {s t : State} {p : Payload} (h : softResetCmd s = (.success p, t)) : p = .none := by
  rcases softResetCmd_cases h with ⟨c, fs, ho, -, -⟩ | ⟨-, u, -, hre⟩
  · cases ho
  rcases reapplyAfterReset_cases hre with ⟨ho, -, -⟩ | ⟨c, -, -, -, hcfg⟩
  · cases ho
    rfl
  rcases configureCmd_cases hcfg with ⟨e, fs, ho, -, -⟩ | ⟨ho, -, -⟩ | ⟨ho, -⟩ <;> cases ho
  rfl

theorem runReapply_of_some {s : State} {c : Cfg} (h : s.lastCfg = some c) : runReapply s = reply (configureCmd c s) := by
  rw [runReapply, h]

theorem runReapply_of_none {s : State} (h : s.lastCfg = none) : runReapply s = s.refusedWith .noLastConfig := by
  rw [runReapply, h, ← reply_refuse]

/-- Settles O60: REAPPLY by the last configuration, RESET_AND_REAPPLY by the outcome of its SOFT_RESET. -/
theorem pseudoCommandsAreTheirExpansions : Obligations.PseudoCommandsAreTheirExpansions := by
  intro s t
  refine ⟨fun c hc => ?_, fun hnone => runReapply_of_none hnone, fun hexec => ?_⟩
  · rw [runPseudo, runReapply_of_some hc, exec_eq_reply, cmdOf]
  · obtain ⟨o, u, hcmd, rfl⟩ := exec_next_cases hexec
    have hcmd : softResetCmd s = (o, u) := hcmd
    cases o with
    | success p =>
      obtain rfl := softResetCmd_success hcmd
      simp [runPseudo, runResetAndReapply, hcmd]
    | error | refused => simp [runPseudo, runResetAndReapply, hcmd]

end Sys2Proof.Machine
end

section
/-! The proofs about bus access (40_bus_access.md): the closed handle and the operand domains are checked before the bus,
and the first failing transport call ends a register access, and the façade command around it, with its cause. -/

namespace Sys2Proof.Machine

/-! ### From a command's outcome to its next state -/

theorem exec_of_raise {i : Instr} {s t : State} {e : CmdError} (h : cmdOf i s = raise e t) :
    exec i s = .next (t.failed e) := by
  rw [exec_eq_reply, h, reply_raise]

theorem exec_of_refuse {i : Instr} {s t : State} {r : RefuseReason} (h : cmdOf i s = refuse r t) :
    exec i s = .next (t.refusedWith r) := by
  rw [exec_eq_reply, h, reply_refuse]

theorem not_closed_of_ready_or_configured {s : State} (h : s.phase = .ready ∨ s.phase = .configured) :
    s.phase ≠ .closed := by
  rcases h with h | h <;> simp [h]

theorem not_uninit_of_ready_or_configured {s : State} (h : s.phase = .ready ∨ s.phase = .configured) :
    s.phase ≠ .uninit := by
  rcases h with h | h <;> simp [h]

/-! ### The closed handle -/

theorem writeCmd_closed (reg val : Byte) {s : State} (h : s.phase = .closed) :
    writeCmd reg val s = raise (.busError .closed) s := by
  rw [writeCmd, memWrite_closed reg val s h]

theorem readCmd_closed (reg : Byte) (n : Nat) {s : State} (h : s.phase = .closed) :
    readCmd reg n s = raise (.busError .closed) s := by
  rw [readCmd, memRead_closed reg n s h]

/-- INIT and SOFT_RESET meet the closed handle in their first register access, READ_REGS, CONFIGURE and READ_MEAS in a
check of their own before every other (R209, R238). -/
theorem cmdOf_closed {i : Instr} {s : State} (hclosed : s.phase = .closed) (htouch : touchesBus i = true) :
    cmdOf i s = raise (.busError .closed) s := by
  cases i with
  | writeReg reg val => exact writeCmd_closed reg val hclosed
  | wrCtrlHum val | wrCtrlMeas val | wrConfig val => exact writeCmd_closed _ val hclosed
  | wrReset => exact writeCmd_closed _ _ hclosed
  | rdId | rdCal1 | rdCal2 | rdCalH1 | rdData => exact readCmd_closed _ _ hclosed
  | init => rw [cmdOf, initCmd, memRead_closed _ _ s hclosed]
  | softReset => rw [cmdOf, softResetCmd, memWrite_closed _ _ s hclosed]
  | readRegs => rw [cmdOf, readRegsCmd, if_pos hclosed]
  | configure => rw [cmdOf, configureCmd, if_pos hclosed]
  | readMeas => rw [cmdOf, readMeasCmd, if_pos hclosed]
  | _ => cases htouch

/-- Settles O12: in CLOSED the command of a bus-touching instruction raises at the state as it was. -/
theorem closedBlockRaisesBusErrorClosed : Obligations.ClosedBlockRaisesBusErrorClosed :=
  fun _ _ hclosed htouch => exec_of_raise (cmdOf_closed hclosed htouch)

/-! ### Operand domains -/

theorem burstInDomain_eq_false {reg count : Byte} (h : count.toNat = 0 ∨ 256 < reg.toNat + count.toNat) :
    burstInDomain reg count = false := by
  simp only [burstInDomain, Bool.and_eq_false_iff, decide_eq_false_iff_not]
  omega

theorem rawInDomain_eq_false {raw : BitVec 32} (h : 2 ^ 20 ≤ raw.toNat) : rawInDomain raw = false :=
  decide_eq_false (Nat.not_lt.mpr h)

theorem readRegsCmd_badBurst {reg count : Byte} {s : State} (hopen : s.phase ≠ .closed)
    (h : burstInDomain reg count = false) : readRegsCmd reg count s = refuse .badBurst s := by
  simp [readRegsCmd, hopen, h]

theorem compTCmd_badRaw {traw : BitVec 32} (cal : CalOperand) (s : State) (h : rawInDomain traw = false) :
    compTCmd traw cal s = refuse .badRaw s := by
  simp [compTCmd, h]

theorem compPCmd_badRaw {praw : BitVec 32} (tfine : BitVec 32) (cal : CalOperand) (s : State)
    (h : rawInDomain praw = false) : compPCmd praw tfine cal s = refuse .badRaw s := by
  simp [compPCmd, h]

theorem compensateCmd_badRaw {praw traw : BitVec 32} (hraw : BitVec 16) (cal : CalOperand) (s : State)
    (h : (rawInDomain praw && rawInDomain traw) = false) :
    compensateCmd praw traw hraw cal s = refuse .badRaw s := by
  simp [compensateCmd, h]

/-- Settles O15: each command's domain check stands before everything else it does, but for the closed handle. -/
theorem operandOutsideItsDomainIsRefused : Obligations.OperandOutsideItsDomainIsRefused := by
  intro s reg count praw traw tfine hraw cal
  refine ⟨fun hopen hburst => exec_of_refuse ?_, fun ht => exec_of_refuse ?_, fun hp => exec_of_refuse ?_,
    fun hpt => exec_of_refuse ?_⟩
  · exact readRegsCmd_badBurst hopen (burstInDomain_eq_false hburst)
  · exact compTCmd_badRaw cal s (rawInDomain_eq_false ht)
  · exact compPCmd_badRaw tfine cal s (rawInDomain_eq_false hp)
  · exact compensateCmd_badRaw hraw cal s (Bool.and_eq_false_iff.mpr (hpt.imp rawInDomain_eq_false rawInDomain_eq_false))

/-! ### The first failing call of a register access -/

theorem writeCmd_fails {reg val : Byte} {s : State} {f : BusFailure} (hopen : s.phase ≠ .closed)
    (h : s.WriteFails 0 reg val f) :
    writeCmd reg val s = raise (.busError f.cause) (s.afterBus f.calls f.events f.sel) := by
  rw [writeCmd, memWrite_fails hopen h]

theorem readCmd_fails {reg : Byte} {n : Nat} {s : State} {f : BusFailure} (hopen : s.phase ≠ .closed)
    (h : s.ReadFails 0 reg n f) :
    readCmd reg n s = raise (.busError f.cause) (s.afterBus f.calls f.events f.sel) := by
  rw [readCmd, memRead_fails hopen h]

theorem exec_of_writeFails {i : Instr} {s : State} {reg val : Byte} {f : BusFailure}
    (hi : writeOf i = some (reg, val)) (hopen : s.phase ≠ .closed) (h : s.WriteFails 0 reg val f) :
    exec i s = .next ((s.afterBus f.calls f.events f.sel).failed (.busError f.cause)) :=
  exec_of_raise ((cmdOf_of_writeOf hi s).trans (writeCmd_fails hopen h))

theorem exec_of_readFails {i : Instr} {s : State} {reg : Byte} {n : Nat} {f : BusFailure}
    (hi : readOf i = some (reg, n)) (hopen : s.phase ≠ .closed) (h : s.ReadFails 0 reg n f) :
    exec i s = .next ((s.afterBus f.calls f.events f.sel).failed (.busError f.cause)) :=
  exec_of_raise ((cmdOf_of_readOf hi s hopen).trans (readCmd_fails hopen h))

/-- Settles O19: the clauses are the ways of `WriteFails`. -/
theorem registerWriteFailsWithItsCause : Obligations.RegisterWriteFailsWithItsCause := by
  intro i s reg val hi hopen
  refine ⟨fun hsel => ?_, fun hsel hframe => ?_, fun hsel hframe hshort => ?_⟩
  · exact exec_of_writeFails hi hopen (.select hsel)
  · exact exec_of_writeFails hi hopen (.frame hsel hframe)
  · exact exec_of_writeFails hi hopen (.short hsel hframe hshort)

/-- Settles O20: the clauses are the ways of `ReadFails`. -/
theorem registerReadFailsWithItsCause : Obligations.RegisterReadFailsWithItsCause := by
  intro i s reg n hi hopen
  refine ⟨fun hsel => ?_, fun hsel haddr => ?_, fun hsel haddr hempty => ?_,
    fun hsel haddr hwrote => ⟨fun hread => ?_, fun hread hshort => ?_⟩⟩
  · exact exec_of_readFails hi hopen (.select hsel)
  · exact exec_of_readFails hi hopen (.address hsel haddr)
  · exact exec_of_readFails hi hopen (.shortAddress hsel haddr hempty)
  · exact exec_of_readFails hi hopen (.read hsel haddr hwrote hread)
  · exact exec_of_readFails hi hopen (.shortRead hsel haddr hwrote hread hshort)

/-! ### The first failing call of a façade command -/

/-- A write that goes through on the answers after the first `m`. -/
theorem memWrite_afterBus_goesThrough {reg val : Byte} {s : State} {m : Nat} (es : List Event) (sel : Option DevAddr)
    (hopen : s.phase ≠ .closed) (h : s.writeGoesThrough m) :
    memWrite reg val (s.afterBus m es sel) =
      (none, s.afterBus (m + 2) (es ++ writeEvents s.devAddr reg val) (some s.devAddr)) := by
  have hopen' : (s.afterBus m es sel).phase ≠ .closed := hopen
  rw [memWrite_goesThrough reg val _ hopen' (writeGoesThrough_afterBus h), State.afterBus_afterBus,
    State.afterBus_devAddr]

/-- A write that fails on the answers after the first `m`. -/
theorem memWrite_afterBus_fails {reg val : Byte} {s : State} {m : Nat} {f : BusFailure} (es : List Event)
    (sel : Option DevAddr) (hopen : s.phase ≠ .closed) (h : s.WriteFails m reg val f) :
    memWrite reg val (s.afterBus m es sel) = (some f.cause, s.afterBus (m + f.calls) (es ++ f.events) f.sel) := by
  have hopen' : (s.afterBus m es sel).phase ≠ .closed := hopen
  rw [memWrite_fails hopen' (writeFails_afterBus h), State.afterBus_afterBus]

section
variable {hum meas conf : Byte} {s : State} {f : BusFailure} (hopen : s.phase ≠ .closed)
include hopen

theorem configureWrites_first_fails (h : s.WriteFails 0 Reg.ctrlHum hum f) :
    configureWrites hum meas conf s = (some f.cause, s.afterBus f.calls f.events f.sel) := by
  rw [configureWrites, memWrite_fails hopen h]

theorem configureWrites_second_fails (h0 : s.writeGoesThrough 0) (h : s.WriteFails 2 Reg.ctrlMeas meas f) :
    configureWrites hum meas conf s =
      (some f.cause, s.afterBus (2 + f.calls) (writeEvents s.devAddr Reg.ctrlHum hum ++ f.events) f.sel) := by
  simp only [configureWrites, memWrite_goesThrough _ _ s hopen h0, memWrite_afterBus_fails _ _ hopen h]

theorem configureWrites_third_fails (h0 : s.writeGoesThrough 0) (h2 : s.writeGoesThrough 2)
    (h : s.WriteFails 4 Reg.config conf f) :
    configureWrites hum meas conf s =
      (some f.cause, s.afterBus (4 + f.calls)
        (writeEvents s.devAddr Reg.ctrlHum hum ++ writeEvents s.devAddr Reg.ctrlMeas meas ++ f.events) f.sel) := by
  simp only [configureWrites, memWrite_goesThrough _ _ s hopen h0, memWrite_afterBus_goesThrough _ _ hopen h2,
    memWrite_afterBus_fails _ _ hopen h]

end

/-- An accepted configuration in READY or CONFIGURED comes to its writes, and ends with what ended them. -/
theorem exec_configure_of_writes_fail {c : Cfg} {s t : State} {cause : BusCause}
    (hp : s.phase = .ready ∨ s.phase = .configured) (hc : cfgAccepted c = true)
    (h : configureWrites (ctrlHumOf c) (ctrlMeasOf c) (configOf s.params.configLayout c) s = (some cause, t)) :
    exec (.configure c) s = .next (t.failed (.busError cause)) := by
  have hvalid : validate c = none := Option.isNone_iff_eq_none.mp hc
  refine exec_of_raise ?_
  rw [cmdOf, configureCmd, if_neg (not_closed_of_ready_or_configured hp),
    if_neg (not_uninit_of_ready_or_configured hp), hvalid]
  dsimp only
  rw [h]

theorem exec_softReset_of_writeFails {s : State} {f : BusFailure} (hopen : s.phase ≠ .closed)
    (h : s.WriteFails 0 Reg.softReset resetCmd f) :
    exec .softReset s = .next ((s.afterBus f.calls f.events f.sel).failed (.busError f.cause)) := by
  refine exec_of_raise ?_
  rw [cmdOf, softResetCmd, memWrite_fails hopen h]

theorem exec_readMeas_of_readFails {s : State} {f : BusFailure} (hp : s.phase = .ready ∨ s.phase = .configured)
    (hcal : s.calValid = true) (h : s.ReadFails 0 Reg.data 8 f) :
    exec .readMeas s = .next ((s.afterBus f.calls f.events f.sel).failed (.busError f.cause)) := by
  have hopen := not_closed_of_ready_or_configured hp
  refine exec_of_raise ?_
  rw [cmdOf, readMeasCmd, if_neg hopen, if_neg (not_uninit_of_ready_or_configured hp), if_neg (by simp [hcal]),
    memRead_fails hopen h]

/-- Settles O27: by the register access that fails, after the writes of a CONFIGURE that went through. -/
theorem facadeCommandsFailWithTheirCause : Obligations.FacadeCommandsFailWithTheirCause := by
  intro s c f
  refine ⟨fun hp hc => ?_, exec_softReset_of_writeFails, exec_readMeas_of_readFails⟩
  have hopen := not_closed_of_ready_or_configured hp
  refine ⟨fun hfirst => ?_, fun h0 hsecond => ?_, fun h0 h2 hthird => ?_⟩
  · exact exec_configure_of_writes_fail hp hc (configureWrites_first_fails hopen hfirst)
  · exact exec_configure_of_writes_fail hp hc (configureWrites_second_fails hopen h0 hsecond)
  · exact exec_configure_of_writes_fail hp hc (configureWrites_third_fails hopen h0 h2 hthird)

end Sys2Proof.Machine
end

section
/-! The proofs about the calibration (41_calibration.md): DECODE_TP and DECODE_H assemble their fields from the words and
bytes of the blocks (R121 to R129), and INIT runs its four register reads in order and ends at the first that fails (R131,
R201, R235). -/

namespace Sys2Proof.Machine

theorem exec_of_succeed {i : Instr} {s t : State} {p : Payload} (h : cmdOf i s = succeed p t) :
    exec i s = .next (t.succeeded p) := by
  rw [exec_eq_reply, h, reply_succeed]

/-! ### Byte assembly -/

theorem toNat_le16 (bs : List Byte) (i : Nat) :
    (le16 bs i).toNat = (byteAt bs i).toNat + 256 * (byteAt bs (i + 1)).toNat := by
  have hlow := (byteAt bs i).isLt
  rw [le16, BitVec.toNat_append, ← Nat.shiftLeft_add_eq_or_of_lt hlow, Nat.shiftLeft_eq]
  omega

theorem toInt_byte (x : Byte) :
    x.toInt = if x.toNat < 128 then (x.toNat : Int) else (x.toNat : Int) - 256 := by
  rw [BitVec.toInt_eq_toNat_cond]
  split <;> split <;> omega

theorem toInt_le16 (bs : List Byte) (i : Nat) :
    (le16 bs i).toInt =
      if (byteAt bs i).toNat + 256 * (byteAt bs (i + 1)).toNat < 32768
      then (((byteAt bs i).toNat + 256 * (byteAt bs (i + 1)).toNat : Nat) : Int)
      else (((byteAt bs i).toNat + 256 * (byteAt bs (i + 1)).toNat : Nat) : Int) - 65536 := by
  rw [BitVec.toInt_eq_toNat_cond, toNat_le16]
  split <;> split <;> omega

/-- Settles O41: each field is the little-endian word at its place, T1 and P1 read as unsigned. -/
theorem decodeTpCompletes : Obligations.DecodeTpCompletes := by
  intro s b
  refine ⟨decodeTpFields b, exec_of_succeed rfl, ?_⟩
  exact ⟨toNat_le16 b 0, toInt_le16 b 2, toInt_le16 b 4, toNat_le16 b 6, toInt_le16 b 8, toInt_le16 b 10,
    toInt_le16 b 12, toInt_le16 b 14, toInt_le16 b 16, toInt_le16 b 18, toInt_le16 b 20, toInt_le16 b 22⟩

/-! ### H4 and H5 -/

theorem toNat_lowNibble (x : Byte) : (x &&& 0x0F).toNat = x.toNat % 16 := by
  rw [BitVec.toNat_and]
  exact Nat.and_two_pow_sub_one_eq_mod x.toNat 4

theorem toNat_highNibble (x : Byte) : ((x &&& 0xF0) >>> 4).toNat = x.toNat / 16 := by
  have hshift : (x &&& 0xF0) >>> 4 = x >>> 4 &&& 0x0F := BitVec.ushiftRight_and_distrib x 0xF0 4
  rw [hshift, toNat_lowNibble, BitVec.toNat_ushiftRight, Nat.shiftRight_eq_div_pow]
  omega

/-- The unsigned reading of the high byte (R126, R127). -/
theorem toInt_assembleH45_false (high : Byte) {nibble : Byte} (h : nibble.toNat < 16) :
    (assembleH45 false high nibble).toInt = 16 * (high.toNat : Int) + nibble.toNat := by
  have hhigh := high.isLt
  have hnat : (assembleH45 false high nibble).toNat = 16 * high.toNat + nibble.toNat := by
    have hshift : (high.setWidth 16 <<< 4).toNat = high.toNat <<< 4 := by
      simp only [BitVec.toNat_shiftLeft, BitVec.toNat_setWidth, Nat.shiftLeft_eq]
      omega
    have hnibble : (nibble.setWidth 16).toNat = nibble.toNat := BitVec.toNat_setWidth_of_le (by decide)
    rw [assembleH45, if_neg Bool.false_ne_true, BitVec.toNat_or, hshift, hnibble,
      ← Nat.shiftLeft_add_eq_or_of_lt (i := 4) h, Nat.shiftLeft_eq]
    omega
  rw [BitVec.toInt_eq_toNat_of_lt (by omega), hnat]
  omega

/-- The two's complement reading of the high byte (R126, R127). -/
theorem toInt_assembleH45_true (high : Byte) {nibble : Byte} (h : nibble.toNat < 16) :
    (assembleH45 true high nibble).toInt = 16 * high.toInt + nibble.toNat := by
  have hlow := BitVec.le_toInt high
  have hup := BitVec.toInt_lt (x := high)
  have hsign : (high.signExtend 16).toInt = high.toInt := BitVec.toInt_signExtend_of_le (by decide)
  have hnibble : (nibble.setWidth 16).toInt = nibble.toNat := by
    rw [BitVec.toInt_setWidth]
    exact Int.bmod_eq_of_le (by omega) (by omega)
  have hsixteen : (16#16).toInt = 16 := rfl
  rw [assembleH45, if_pos rfl, BitVec.toInt_add, BitVec.toInt_mul, hsign, hnibble, hsixteen, Int.bmod_add_bmod,
    Int.mul_comm]
  exact Int.bmod_eq_of_le (by omega) (by omega)

theorem decodeHFields_congr (signExtend : Bool) {c d : List Byte} (h1 : Byte)
    (h : ∀ k < 7, byteAt d k = byteAt c k) : decodeHFields signExtend d h1 = decodeHFields signExtend c h1 := by
  simp only [decodeHFields, decodeH4, decodeH5, le16, h, Nat.reduceAdd, Nat.reduceLT]

/-- Settles O42: H4 and H5 by the reading of their high byte; the fields read the bytes before the eighth alone. -/
theorem decodeHCompletes : Obligations.DecodeHCompletes := by
  intro s d h1
  have hlow : (byteAt d 4 &&& 0x0F).toNat < 16 := by rw [toNat_lowNibble]; omega
  have hhigh : ((byteAt d 4 &&& 0xF0) >>> 4).toNat < 16 := by rw [toNat_highNibble]; omega
  refine ⟨decodeHFields s.params.h45SignExtend d h1, exec_of_succeed rfl, ⟨rfl, toInt_le16 d 0, rfl,
    fun hunsigned => ?_, fun hsigned => ?_, toInt_byte _⟩, fun d' hd => ?_⟩
  · rw [hunsigned]
    exact ⟨(toInt_assembleH45_false _ hlow).trans (by rw [toNat_lowNibble]; rfl),
      (toInt_assembleH45_false _ hhigh).trans (by rw [toNat_highNibble]; rfl)⟩
  · rw [hsigned]
    exact ⟨(toInt_assembleH45_true _ hlow).trans (by rw [toNat_lowNibble, toInt_byte]; rfl),
      (toInt_assembleH45_true _ hhigh).trans (by rw [toNat_highNibble, toInt_byte]; rfl)⟩
  · rw [← decodeHFields_congr _ h1 hd]
    exact exec_of_succeed rfl

/-! ### The calibration fetch -/

/-- A read that gives its bytes on the answers after the first `m`. -/
theorem memRead_afterBus_gives {reg : Byte} {n : Nat} {bs : List Byte} {s : State} {m : Nat} (es : List Event)
    (sel : Option DevAddr) (hopen : s.phase ≠ .closed) (h : s.readGives m n bs) :
    memRead reg n (s.afterBus m es sel) =
      (.ok bs, s.afterBus (m + 3) (es ++ readEvents s.devAddr reg n bs) (some s.devAddr)) := by
  have hopen' : (s.afterBus m es sel).phase ≠ .closed := hopen
  rw [memRead_gives reg n bs _ hopen' (readGives_afterBus h), State.afterBus_afterBus, State.afterBus_devAddr]

/-- A read that fails on the answers after the first `m`. -/
theorem memRead_afterBus_fails {reg : Byte} {n : Nat} {s : State} {m : Nat} {f : BusFailure} (es : List Event)
    (sel : Option DevAddr) (hopen : s.phase ≠ .closed) (h : s.ReadFails m reg n f) :
    memRead reg n (s.afterBus m es sel) = (.error f.cause, s.afterBus (m + f.calls) (es ++ f.events) f.sel) := by
  have hopen' : (s.afterBus m es sel).phase ≠ .closed := hopen
  rw [memRead_fails hopen' (readFails_afterBus h), State.afterBus_afterBus]

section
variable {s : State} {m : Nat} {b c d : List Byte} {f : BusFailure} (es : List Event) (sel : Option DevAddr)
  (hopen : s.phase ≠ .closed)
include hopen

theorem loadCal_block1_fails (h : s.ReadFails m Reg.calBlock1 24 f) :
    loadCal (s.afterBus m es sel) = (some f.cause, s.afterBus (m + f.calls) (es ++ f.events) f.sel) := by
  rw [loadCal, memRead_afterBus_fails es sel hopen h]

theorem loadCal_block2_fails (hb : s.readGives m 24 b) (h : s.ReadFails (m + 3) Reg.calBlock2 8 f) :
    loadCal (s.afterBus m es sel) = (some f.cause, s.afterBus (m + 3 + f.calls)
      (es ++ readEvents s.devAddr Reg.calBlock1 24 b ++ f.events) f.sel) := by
  simp only [loadCal, memRead_afterBus_gives _ _ hopen hb, memRead_afterBus_fails _ _ hopen h]

theorem loadCal_h1_fails (hb : s.readGives m 24 b) (hc : s.readGives (m + 3) 8 c)
    (h : s.ReadFails (m + 6) Reg.calH1 1 f) :
    loadCal (s.afterBus m es sel) = (some f.cause, s.afterBus (m + 6 + f.calls)
      (es ++ readEvents s.devAddr Reg.calBlock1 24 b ++ readEvents s.devAddr Reg.calBlock2 8 c ++ f.events) f.sel) := by
  simp only [loadCal, memRead_afterBus_gives _ _ hopen hb, memRead_afterBus_gives _ _ hopen hc,
    memRead_afterBus_fails _ _ hopen h]

theorem loadCal_gives (hb : s.readGives m 24 b) (hc : s.readGives (m + 3) 8 c) (hd : s.readGives (m + 6) 1 d) :
    loadCal (s.afterBus m es sel) = (none, { (s.afterBus (m + 9) (es ++ readEvents s.devAddr Reg.calBlock1 24 b ++
        readEvents s.devAddr Reg.calBlock2 8 c ++ readEvents s.devAddr Reg.calH1 1 d) (some s.devAddr)) with
      cal := { tp := decodeTpFields b, hu := decodeHFields s.params.h45SignExtend c (byteAt d 0) }
      calValid := true }) := by
  simp only [loadCal, memRead_afterBus_gives _ _ hopen hb, memRead_afterBus_gives _ _ hopen hc,
    memRead_afterBus_gives _ _ hopen hd, State.afterBus_params]

end

/-! ### INIT -/

/-- `s` after the identity read that gave 0x60 (R201, R202): where the calibration fetch of INIT begins. -/
def State.identified (s : State) : State :=
  s.afterBus 3 (readEvents s.devAddr Reg.identity 1 [idExpected]) (some s.devAddr)

@[simp] theorem byteAt_identity : byteAt [idExpected] 0 = idExpected := rfl

theorem exec_init_of_identity_fails {s : State} {f : BusFailure} (hopen : s.phase ≠ .closed)
    (h : s.ReadFails 0 Reg.identity 1 f) :
    exec .init s = .next ((s.afterBus f.calls f.events f.sel).failed (.busError f.cause)) := by
  refine exec_of_raise ?_
  rw [cmdOf, initCmd, memRead_fails hopen h]

section
variable {s t : State} (hopen : s.phase ≠ .closed) (hid : s.readGives 0 1 [idExpected])
include hopen hid

theorem memRead_identity : memRead Reg.identity 1 s = (.ok [idExpected], s.identified) :=
  memRead_gives _ _ _ s hopen hid

/-- With the identity 0x60 read, INIT is its calibration fetch, whose failure it wraps (R235). -/
theorem exec_init_of_loadCal_fails {cause : BusCause} (h : loadCal s.identified = (some cause, t)) :
    exec .init s = .next (t.failed (.calibrationReadError cause)) := by
  refine exec_of_raise ?_
  simp [cmdOf, initCmd, memRead_identity hopen hid, h]

theorem exec_init_of_loadCal (h : loadCal s.identified = (none, t)) :
    exec .init s =
      .next ({ t with phase := if t.phase = Phase.uninit then .ready else t.phase }.succeeded .none) := by
  refine exec_of_succeed ?_
  simp [cmdOf, initCmd, memRead_identity hopen hid, h]

end

/-- Settles O23: the identity read and then the calibration fetch, each read on the answers after the earlier ones. -/
theorem initCompletes : Obligations.InitCompletes :=
  fun _ _ _ _ hopen hid hb hc hh => exec_init_of_loadCal hopen hid (loadCal_gives _ _ hopen hb hc hh)

/-- Settles O25: by the read that fails; those of the calibration fetch fail inside `loadCal`. -/
theorem initWrapsCalibrationReadFailures : Obligations.InitWrapsCalibrationReadFailures := by
  intro s b c f hopen
  refine ⟨exec_init_of_identity_fails hopen, fun hid => ⟨fun hblock1 => ?_, fun hb => ⟨fun hblock2 => ?_,
    fun hc hh1 => ?_⟩⟩⟩
  · exact exec_init_of_loadCal_fails hopen hid (loadCal_block1_fails _ _ hopen hblock1)
  · exact exec_init_of_loadCal_fails hopen hid (loadCal_block2_fails _ _ hopen hb hblock2)
  · exact exec_init_of_loadCal_fails hopen hid (loadCal_h1_fails _ _ hopen hb hc hh1)

end Sys2Proof.Machine
end

section
/-! The proofs about configuration (42_configuration.md): an invalid configuration is the error of its first failing
field (R145, R153, R236), the encoders and estimators of a valid one (R146 to R151), and the nearest standby code
(R152). -/

namespace Sys2Proof.Machine

/-! ### Invalid configurations -/

theorem fits3_eq_true_iff {code : Byte} : fits3 code = true ↔ code.toNat ≤ 7 :=
  decide_eq_true_iff

theorem fits3_eq_false_iff {code : Byte} : fits3 code = false ↔ 7 < code.toNat := by
  rw [fits3, decide_eq_false_iff_not, not_le]

theorem modeDefined_eq_true_iff {code : Byte} : modeDefined code = true ↔ code = 0 ∨ code = 1 ∨ code = 3 := by
  simp [modeDefined, or_assoc]

theorem modeDefined_eq_false {code : Byte} (h0 : code ≠ 0) (h1 : code ≠ 1) (h3 : code ≠ 3) :
    modeDefined code = false := by
  rw [← Bool.not_eq_true, modeDefined_eq_true_iff]
  exact not_or.mpr ⟨h0, not_or.mpr ⟨h1, h3⟩⟩

/-- Every datapath command that takes a configuration is `withValidCfg` (R153). -/
theorem exec_datapath_of_invalid {c : Cfg} {e : CmdError} (s : State) (h : validate c = some e) :
    ∀ i ∈ [Instr.validateCfg c, .encCtrlHum c, .encCtrlMeas c, .encConfig c, .durTypical c, .durMax c, .durCycle c],
      exec i s = .next (s.failed e) := by
  simp only [List.forall_mem_cons]
  refine ⟨?_, ?_, ?_, ?_, ?_, ?_, ?_, List.forall_mem_nil _⟩ <;>
    exact exec_of_raise (by rw [cmdOf, withValidCfg_of_invalid s _ h])

theorem exec_configure_of_invalid {c : Cfg} {e : CmdError} {s : State}
    (hp : s.phase = .ready ∨ s.phase = .configured) (h : validate c = some e) :
    exec (.configure c) s = .next (s.failed e) := by
  refine exec_of_raise ?_
  rw [cmdOf, configureCmd, if_neg (not_closed_of_ready_or_configured hp),
    if_neg (not_uninit_of_ready_or_configured hp), h]

/-- Settles O16: `validate` passes the fields before the failing one and reports that one. -/
theorem invalidConfigurationIsRejectedBeforeAnyWrite : Obligations.InvalidConfigurationIsRejectedBeforeAnyWrite := by
  intro s c f code hfirst
  have hv : validate c = some (.configurationError f code) := by
    cases f <;> simp only [← fits3_eq_true_iff, ← fits3_eq_false_iff, ← modeDefined_eq_true_iff] at hfirst
    case mode =>
      obtain ⟨rfl, h0, h1, h3, hh, hp, ht⟩ := hfirst
      simp [validate, modeDefined_eq_false h0 h1 h3, hh, hp, ht]
    all_goals
      obtain ⟨rfl, hfirst⟩ := hfirst
      simp [validate, hfirst]
  exact ⟨exec_datapath_of_invalid s hv, fun hp => exec_configure_of_invalid hp hv⟩

/-! ### Register values -/

/-- A field placed above the `k` bits of `lo`, as a sum. -/
theorem shiftLeft_or_eq_ofNat {hi lo : Byte} {k : Nat} (h : lo.toNat < 2 ^ k) :
    hi <<< k ||| lo = BitVec.ofNat 8 (2 ^ k * hi.toNat + lo.toNat) := by
  refine BitVec.eq_of_toNat_eq ?_
  rw [BitVec.toNat_or, BitVec.toNat_shiftLeft, BitVec.toNat_ofNat, mul_comm, ← Nat.shiftLeft_eq,
    Nat.shiftLeft_add_eq_or_of_lt h, Nat.or_mod_two_pow, Nat.mod_eq_of_lt lo.isLt]

theorem toNat_shiftLeft_of_lt {x : Byte} {k : Nat} (h : 2 ^ k * x.toNat < 2 ^ 8) :
    (x <<< k).toNat = 2 ^ k * x.toNat := by
  rw [BitVec.toNat_shiftLeft, Nat.shiftLeft_eq, mul_comm, Nat.mod_eq_of_lt h]

theorem ctrlMeasOf_eq_ofNat {c : Cfg} (hp : c.osrsP.toNat ≤ 7) (hm : c.mode.toNat < 4) :
    ctrlMeasOf c = BitVec.ofNat 8 (32 * c.osrsT.toNat + 4 * c.osrsP.toNat + c.mode.toNat) := by
  have hlow : (c.osrsP <<< 2 ||| c.mode).toNat = 4 * c.osrsP.toNat + c.mode.toNat := by
    rw [shiftLeft_or_eq_ofNat hm, BitVec.toNat_ofNat]
    omega
  rw [ctrlMeasOf, BitVec.or_assoc, shiftLeft_or_eq_ofNat (k := 5) (by omega), hlow, add_assoc]
  rfl

theorem configOf_doc_eq_ofNat {c : Cfg} (hf : c.filter.toNat ≤ 7) :
    configOf .doc c = BitVec.ofNat 8 (16 * c.tSb.toNat + 2 * c.filter.toNat) := by
  have hlow : (c.filter <<< 1).toNat = 2 * c.filter.toNat := toNat_shiftLeft_of_lt (by omega)
  rw [configOf, shiftLeft_or_eq_ofNat (by omega), hlow]
  rfl

theorem configOf_vendor_eq_ofNat {c : Cfg} (hf : c.filter.toNat ≤ 7) :
    configOf .vendor c = BitVec.ofNat 8 (32 * c.tSb.toNat + 4 * c.filter.toNat) := by
  have hlow : (c.filter <<< 2).toNat = 4 * c.filter.toNat := toNat_shiftLeft_of_lt (by omega)
  rw [configOf, shiftLeft_or_eq_ofNat (by omega), hlow]
  rfl

/-- Settles O56: the command passes validation, and its register value's fields do not overlap. -/
theorem encodersComplete : Obligations.EncodersComplete := by
  intro s c hh hp ht hm hf hs
  have hv := validate_of_valid hh hp ht hm hf hs
  have hmode : c.mode.toNat < 4 := by rcases hm with h | h | h <;> rw [h] <;> decide
  refine ⟨exec_of_succeed (by rw [cmdOf, withValidCfg_of_valid s _ hv]), ?_, ?_, ?_⟩
  · rw [BitVec.ofNat_toNat, BitVec.setWidth_eq]
    exact exec_of_succeed (by rw [cmdOf, withValidCfg_of_valid s _ hv, ctrlHumOf])
  · exact exec_of_succeed (by rw [cmdOf, withValidCfg_of_valid s _ hv, ctrlMeasOf_eq_ofNat hp hmode])
  · cases hl : s.params.configLayout with
    | doc => exact exec_of_succeed (by rw [cmdOf, withValidCfg_of_valid s _ hv, hl, configOf_doc_eq_ofNat hf])
    | vendor => exact exec_of_succeed (by rw [cmdOf, withValidCfg_of_valid s _ hv, hl, configOf_vendor_eq_ofNat hf])

/-! ### Durations -/

theorem mult_eq_getD {code : Byte} (h : code.toNat ≤ 7) :
    mult code = [0, 1, 2, 4, 8, 16, 16, 16].getD code.toNat 0 := by
  rw [mult]
  generalize code.toNat = n at h ⊢
  interval_cases n <;> rfl

theorem sbUs_eq_getD {code : Byte} (h : code.toNat ≤ 7) :
    sbUs code = [500, 62500, 125000, 250000, 500000, 1000000, 10000, 20000].getD code.toNat 0 := by
  rw [sbUs]
  generalize code.toNat = n at h ⊢
  interval_cases n <;> rfl

theorem mult_le (code : Byte) : mult code ≤ 16 := by
  unfold mult
  split <;> decide

theorem sbUs_le (code : Byte) : sbUs code ≤ 1000000 := by
  unfold sbUs
  split <;> decide

/-- A skipped channel's multiplier is 0, so only its setup time needs the case. -/
theorem channelUs_eq (step setup : Nat) (code : Byte) :
    channelUs step setup code = step * mult code + if code = 0 then 0 else setup := by
  rw [channelUs]
  split
  next h => rw [h]; rfl
  next => rfl

theorem channelUs_le (step setup : Nat) (code : Byte) : channelUs step setup code ≤ step * 16 + setup := by
  have hmult : step * mult code ≤ step * 16 := Nat.mul_le_mul_left step (mult_le code)
  rw [channelUs_eq]
  split <;> omega

theorem standbyUs_le (c : Cfg) : standbyUs c ≤ 1000000 := by
  have hsb := sbUs_le c.tSb
  rw [standbyUs]
  split <;> omega

theorem typicalUs_lt (c : Cfg) : typicalUs c < 2 ^ 64 := by
  have ht := channelUs_le 2000 0 c.osrsT
  have hp := channelUs_le 2000 500 c.osrsP
  have hh := channelUs_le 2000 500 c.osrsH
  have hs := standbyUs_le c
  rw [typicalUs]
  omega

theorem cycleUs_lt (c : Cfg) : cycleUs c < 2 ^ 64 := by
  have ht := channelUs_le 2300 0 c.osrsT
  have hp := channelUs_le 2300 575 c.osrsP
  have hh := channelUs_le 2300 575 c.osrsH
  have hs := standbyUs_le c
  rw [cycleUs, maximumUs]
  omega

theorem maximumUs_lt (c : Cfg) : maximumUs c < 2 ^ 64 :=
  (Nat.le_add_right _ _).trans_lt (cycleUs_lt c)

/-- Settles O57: the sums fit their 64 bits, and each channel's share is its multiplier's part and its setup time. -/
theorem durationEstimatorsComplete : Obligations.DurationEstimatorsComplete := by
  intro s c hh hp ht hm hf hs multiplier standby on sb m
  have hv := validate_of_valid hh hp ht hm hf hs
  have hmult : m = mult c.osrsT + mult c.osrsP + mult c.osrsH := by
    rw [mult_eq_getD hh, mult_eq_getD hp, mult_eq_getD ht]
  have hsb : sb = standbyUs c := by
    rw [standbyUs, sbUs_eq_getD hs]
  have hchannel : ∀ step setup code, channelUs step setup code = step * mult code + on code setup := channelUs_eq
  have hon : on c.osrsT 0 = 0 := ite_self 0
  refine ⟨BitVec.ofNat 64 (typicalUs c), BitVec.ofNat 64 (maximumUs c), BitVec.ofNat 64 (cycleUs c),
    exec_of_succeed (by rw [cmdOf, withValidCfg_of_valid s _ hv]),
    exec_of_succeed (by rw [cmdOf, withValidCfg_of_valid s _ hv]),
    exec_of_succeed (by rw [cmdOf, withValidCfg_of_valid s _ hv]), ?_, ?_, ?_⟩
  · rw [BitVec.toNat_ofNat, Nat.mod_eq_of_lt (typicalUs_lt c), typicalUs, hchannel, hchannel, hchannel, hon, hmult,
      hsb]
    ring
  · rw [BitVec.toNat_ofNat, Nat.mod_eq_of_lt (maximumUs_lt c), maximumUs, hchannel, hchannel, hchannel, hon, hmult]
    ring
  · rw [BitVec.toNat_ofNat, BitVec.toNat_ofNat, Nat.mod_eq_of_lt (cycleUs_lt c), Nat.mod_eq_of_lt (maximumUs_lt c),
      cycleUs, hsb]

/-! ### Nearest standby -/

theorem mem_standbyCandidates {code : Byte} {includes1000 : Bool} :
    code ∈ standbyCandidates includes1000 ↔
      code ∈ [(0 : Byte), 6, 7, 1, 2, 3, 4] ∨ (code = 5 ∧ includes1000 = true) := by
  cases includes1000 <;> simp [standbyCandidates, or_assoc]

theorem zero_mem_standbyCandidates (includes1000 : Bool) : 0 ∈ standbyCandidates includes1000 :=
  List.mem_append_left _ List.mem_cons_self

theorem standbyDistance_le_iff {req : Int} {a b : Byte} :
    standbyDistance req a ≤ standbyDistance req b ↔ |req - (sbUs a : Int)| ≤ |req - (sbUs b : Int)| := by
  rw [Int.abs_eq_natAbs, Int.abs_eq_natAbs, Int.ofNat_le, standbyDistance, standbyDistance]

/-- The fold starts at code 0's distance, so it is the minimum over any candidates that code 0 is one of. -/
theorem leastDistance_spec (req : Int) {codes : List Byte} (h : 0 ∈ codes) :
    (∃ c ∈ codes, standbyDistance req c = leastDistance req codes) ∧
      ∀ c ∈ codes, leastDistance req codes ≤ standbyDistance req c := by
  have hmin : ((0 :: codes).map (standbyDistance req)).min? = some (leastDistance req codes) := by
    rw [List.map_cons, List.min?_cons', List.foldl_map, leastDistance]
  obtain ⟨hmem, hle⟩ := List.min?_eq_some_iff.mp hmin
  obtain ⟨c, hc, hceq⟩ := List.mem_map.mp hmem
  refine ⟨⟨c, ?_, hceq⟩, fun d hd => hle _ (List.mem_map_of_mem (List.mem_cons_of_mem 0 hd))⟩
  rcases List.mem_cons.mp hc with rfl | hc
  · exact h
  · exact hc

theorem nearestStandbys_of_ge {req : Int} (includes1000 : Bool) (h : 1000000 ≤ req) :
    nearestStandbys includes1000 req = [5] :=
  if_pos h

theorem mem_nearestStandbys {req : Int} {includes1000 : Bool} {code : Byte} (h : req < 1000000) :
    code ∈ nearestStandbys includes1000 req ↔
      code ∈ standbyCandidates includes1000 ∧
        ∀ c ∈ standbyCandidates includes1000, |req - (sbUs code : Int)| ≤ |req - (sbUs c : Int)| := by
  obtain ⟨⟨m, hm, hmeq⟩, hle⟩ := leastDistance_spec req (zero_mem_standbyCandidates includes1000)
  simp only [nearestStandbys, if_neg (not_le.mpr h), List.mem_filter, beq_iff_eq, ← standbyDistance_le_iff]
  refine and_congr_right fun hcode => ⟨fun heq c hc => heq ▸ hle c hc, fun hall => ?_⟩
  exact le_antisymm (hmeq ▸ hall m hm) (hle code hcode)

theorem nearestStandbys_ne_nil (includes1000 : Bool) (req : Int) : nearestStandbys includes1000 req ≠ [] := by
  rcases le_or_gt 1000000 req with h | h
  · rw [nearestStandbys_of_ge _ h]
    exact List.cons_ne_nil 5 []
  · obtain ⟨⟨m, hm, hmeq⟩, hle⟩ := leastDistance_spec req (zero_mem_standbyCandidates includes1000)
    exact List.ne_nil_of_mem ((mem_nearestStandbys h).mpr
      ⟨hm, fun c hc => standbyDistance_le_iff.mp (hmeq ▸ hle c hc)⟩)

/-- One answer is the tie of one code: the choice modulo 1 is its place, and no choice is used up. -/
theorem nearestStandbyCmd_eq {req : Int} {s : State} {codes : List Byte}
    (h : nearestStandbys s.params.standbyScanIncludes1000 req = codes) :
    nearestStandbyCmd req s = succeed (.standby (byteAt codes (s.nextTie % codes.length)))
      (if codes.length = 1 then s else s.afterTie) := by
  subst h
  unfold nearestStandbyCmd
  split
  case h_1 c hc => simp [hc, byteAt, Nat.mod_one]
  case h_2 hne =>
    rw [if_neg]
    intro hlen
    obtain ⟨c, hc⟩ := List.length_eq_one_iff.mp hlen
    exact hne c hc

theorem byteAt_of_lt {bs : List Byte} {k : Nat} (h : k < bs.length) : byteAt bs k = bs[k] :=
  List.getD_eq_getElem bs 0 h

/-- Settles O58: whatever the tie choice, the answer is one of the nearest codes, and the tie fields alone may move. -/
theorem nearestStandbyCompletes : Obligations.NearestStandbyCompletes := by
  intro s req
  generalize hcodes : nearestStandbys s.params.standbyScanIncludes1000 req.toInt = codes
  have hlt : s.nextTie % codes.length < codes.length :=
    Nat.mod_lt _ (List.length_pos_of_ne_nil (hcodes ▸ nearestStandbys_ne_nil _ _))
  have hmem : byteAt codes (s.nextTie % codes.length) ∈
      nearestStandbys s.params.standbyScanIncludes1000 req.toInt := by
    rw [byteAt_of_lt hlt, hcodes]
    exact List.getElem_mem hlt
  have hexec := exec_of_succeed (i := .nearestStandby req) (nearestStandbyCmd_eq hcodes)
  refine ⟨byteAt codes (s.nextTie % codes.length), if codes.length = 1 then s.ties else s.ties.tail,
    if codes.length = 1 then s.tiesDrawn else s.tiesDrawn + 1, hexec.trans ?_, fun hge => ?_, fun hless => ?_⟩
  · split <;> rfl
  · rw [nearestStandbys_of_ge _ hge] at hmem
    exact List.mem_singleton.mp hmem
  · simpa only [mem_nearestStandbys hless, mem_standbyCandidates] using hmem

/-- Settles O59: the choice that draws a nearest code is its place among them. -/
theorem everyTiedStandbyCodeCanBeDrawn : Obligations.EveryTiedStandbyCodeCanBeDrawn := by
  intro s req code hless hcand hnearest
  have hmem := (mem_nearestStandbys hless).mpr ⟨hcand, hnearest⟩
  obtain ⟨k, hk, hcode⟩ := List.mem_iff_getElem.mp hmem
  refine ⟨k, _, exec_of_succeed (nearestStandbyCmd_eq (s := { s with ties := k :: s.ties }) rfl), ?_⟩
  have htie : State.nextTie { s with ties := k :: s.ties } = k := rfl
  rw [htie, Nat.mod_eq_of_lt hk, byteAt_of_lt hk, hcode]
  rfl

end Sys2Proof.Machine
end

section
/-! The proofs about the compensation (43_compensation.md): the sums of the stages stay inside the bounds of R174 and R183,
truncation is that of the value, and each command returns what its rule computes. -/

namespace Sys2Proof.F64

open Sys2Proof.Machine

/-! ### Truncation -/

theorem abs_ratOf (x : F64) : |ratOf x| = (units x : ℚ) / unitDen := by
  have hsgn : |sgn (sign x)| = 1 := by cases sign x <;> simp [sgn]
  rw [ratOf_eq_sgn_units, cast_unitDen, mul_div_assoc, abs_mul, hsgn, one_mul, abs_of_nonneg (by positivity)]

theorem ratOf_eq_sgn_abs (x : F64) : ratOf x = sgn (sign x) * |ratOf x| := by
  rw [abs_ratOf, cast_unitDen, ratOf_eq_sgn_units, mul_div_assoc]

theorem floor_abs_ratOf (x : F64) : ⌊|ratOf x|⌋ = ((units x / unitDen : ℕ) : ℤ) := by
  rw [abs_ratOf, Rat.floor_natCast_div_natCast, Int.natCast_ediv]

theorem truncInt_eq_floor_abs (x : F64) : truncInt x = if sign x then -⌊|ratOf x|⌋ else ⌊|ratOf x|⌋ := by
  rw [floor_abs_ratOf]
  rfl

/-- Truncation is toward zero: down from the values that are not negative, up from the negative ones (R9). -/
theorem truncInt_eq (x : F64) : truncInt x = if 0 ≤ ratOf x then ⌊ratOf x⌋ else ⌈ratOf x⌉ := by
  have habs := abs_nonneg (ratOf x)
  have hval := ratOf_eq_sgn_abs x
  rw [truncInt_eq_floor_abs]
  generalize |ratOf x| = q at habs hval
  rw [hval]
  cases sign x
  case false => simp [sgn, habs]
  case true =>
    rcases habs.eq_or_lt with rfl | hpos
    · simp
    · simp [sgn, Int.ceil_neg, hpos.not_ge]

theorem abs_truncInt_le {x : F64} {n : ℤ} (h : |ratOf x| ≤ n) : |truncInt x| ≤ n := by
  have habs : |truncInt x| = ⌊|ratOf x|⌋ := by
    rw [truncInt_eq_floor_abs, apply_ite abs, abs_neg, ite_self, abs_of_nonneg (Int.floor_nonneg.2 (abs_nonneg _))]
  rw [habs]
  exact_mod_cast (Int.floor_le |ratOf x|).trans h

/-- Inside s32 the free value of `truncS32` is not reached. -/
theorem toInt_truncS32 {x : F64} (hx : isFinite x = true) (h : |truncInt x| < 2 ^ 31) :
    (truncS32 x).toInt = truncInt x := by
  obtain ⟨hlo, hhi⟩ := abs_lt.1 h
  have hin : (isFinite x && (-(2 ^ 31) ≤ truncInt x && truncInt x < 2 ^ 31)) = true := by
    rw [hx, decide_eq_true hlo.le, decide_eq_true hhi]
    rfl
  rw [truncS32, if_pos hin, BitVec.toInt_ofInt]
  exact Int.bmod_eq_of_le (by omega) (by omega)

/-! ### Values from zero to a power of two -/

/-- A finite value from 0 to `2 ^ e`: the difference of two such is no larger than they are. -/
def NonnegWithin (e : ℤ) (x : F64) : Prop := Within e x ∧ 0 ≤ ratOf x

theorem nonnegWithin_of_roundsTo {q : ℚ} {r : F64} {e : ℤ} (h : RoundsTo q r) (h0 : 0 ≤ q) (hq : q ≤ 2 ^ e)
    (he : InExpRange e) : NonnegWithin e r := by
  have habs : |q| ≤ 2 ^ e := by rwa [abs_of_nonneg h0]
  refine ⟨within_of_roundsTo h habs he, ?_⟩
  rw [← ratOf_zero false] at h0 ⊢
  exact le_ratOf_of_roundsTo h (habs.trans_lt (two_zpow_lt_overflowBound he)) (isFinite_zero false) h0

theorem nonnegWithin_f64u {w : ℕ} (x : BitVec w) (hw : w ≤ 1023 := by decide) : NonnegWithin w (f64u x) := by
  refine nonnegWithin_of_roundsTo (roundsTo_ofInt _) (by positivity) ?_ ⟨by omega, by omega⟩
  rw [zpow_natCast]
  exact_mod_cast x.isLt.le

/-- Two's complement in `w + 1` bits has a magnitude of at most `2 ^ w`. -/
theorem within_f64s_succ {w : ℕ} (x : BitVec (w + 1)) (hw : w ≤ 1023 := by decide) : Within w (f64s x) := by
  refine within_ofInt ?_ hw
  have habs : |x.toInt| ≤ 2 ^ w := abs_le.2 ⟨BitVec.le_toInt x, (BitVec.toInt_lt (x := x)).le⟩
  rw [← Int.natCast_natAbs] at habs
  exact_mod_cast habs

section
variable {a b : ℤ} {x y : F64}

theorem NonnegWithin.div_two_pow (hx : NonnegWithin a x) (n : ℤ) (k : ℕ) (hn : n = 2 ^ k := by decide)
    (hk : n.natAbs < 2 ^ 53 := by decide) (he : InExpRange (a - k) := by decide) :
    NonnegWithin (a - k) (div x (ofInt n)) := by
  obtain ⟨⟨hfin, hle⟩, h0⟩ := hx
  obtain ⟨hnfin, hnval⟩ := integerConversionIsExact n hk
  have hpow : ratOf (ofInt n) = 2 ^ (k : ℤ) := by
    rw [hnval, hn, zpow_natCast]
    norm_cast
  have hnz : isZero (ofInt n) = false := AtLeast.isZero (a := k) ⟨hnfin, hpow ▸ le_abs_self _⟩
  have hr := roundsTo_div hfin hnfin hnz
  rw [hpow] at hr
  refine nonnegWithin_of_roundsTo hr (div_nonneg h0 (by positivity)) ?_ he
  rw [zpow_sub₀ two_ne_zero]
  exact div_le_div_of_nonneg_right ((le_abs_self _).trans hle) (by positivity)

theorem NonnegWithin.sub (hx : NonnegWithin a x) (hy : NonnegWithin b y) (he : InExpRange (max a b) := by decide) :
    Within (max a b) (sub x y) := by
  obtain ⟨⟨hxfin, hxle⟩, hx0⟩ := hx
  obtain ⟨⟨hyfin, hyle⟩, hy0⟩ := hy
  have hxle := ((le_abs_self _).trans hxle).trans (zpow_le_zpow_right₀ one_le_two (le_max_left a b))
  have hyle := ((le_abs_self _).trans hyle).trans (zpow_le_zpow_right₀ one_le_two (le_max_right a b))
  exact within_of_roundsTo (roundsTo_sub hxfin hyfin) (abs_sub_le_of_nonneg_of_le hx0 hxle hy0 hyle) he

end

/-! ### The temperature stage -/

/-- The bound of R174: both products are at most `2 ^ 21`, for the terms of each difference are not negative. -/
theorem within_tempSum (traw : BitVec 20) (c : CalTP) : Within 22 (tempSum traw c) := by
  have hdiff := ((nonnegWithin_f64u traw).div_two_pow 16384 14).sub ((nonnegWithin_f64u c.t1).div_two_pow 1024 10)
  have ha := ((nonnegWithin_f64u traw).div_two_pow 131072 17).sub ((nonnegWithin_f64u c.t1).div_two_pow 8192 13)
  have hv1 := hdiff.mul (within_f64s_succ c.t2)
  have hv2 := (ha.mul ha).mul (within_f64s_succ c.t3)
  exact (hv1.add hv2).mono (by decide)

/-- Settles O48: the sum is inside the bound of R174, so its truncation is inside s32. -/
theorem tfineIsTheBoundedTruncatedSum : Obligations.TfineIsTheBoundedTruncatedSum := by
  intro traw c
  obtain ⟨hfin, hbound⟩ := within_tempSum traw c
  have htrunc : |truncInt (tempSum traw c)| ≤ 4194304 := abs_truncInt_le (hbound.trans_eq (by norm_num))
  have htfine : (compT traw c).2.toInt = truncInt (tempSum traw c) :=
    toInt_truncS32 hfin (htrunc.trans_lt (by decide))
  rw [htfine]
  exact ⟨hfin, hbound, truncInt_eq _, htrunc⟩

/-! ### The pressure sentinel -/

theorem isNaN_nan (x y : F64) : isNaN (nan x y) = true := by
  have hle : magBits 0x7FF8000000000000 ≤ magBits (nan x y) := by
    rw [magBits, magBits, nan, BitVec.toNat_or, Nat.or_mod_two_pow]
    exact Nat.right_le_or
  exact decide_eq_true (lt_of_lt_of_le (by decide) hle)

theorem isFinite_nan (x y : F64) : isFinite (nan x y) = false :=
  Bool.eq_false_iff.2 fun h => by simpa [isNaN_nan] using (notNaN_notInf_of_isFinite h).1

/-- A product by a zero is a zero or a NaN. -/
theorem ratOf_mul_of_isZero {x y : F64} (hy : isZero y = true) (h : isFinite (mul x y) = true) : ratOf (mul x y) = 0 := by
  have hfin : isFinite y = true := by
    rw [isFinite_iff, beq_iff_eq.1 hy]
    decide
  obtain ⟨hnan, hinf⟩ := notNaN_notInf_of_isFinite hfin
  revert h
  simp only [mul, hy, hnan, hinf, Bool.or_false, Bool.or_true, if_true]
  split
  · simp [isFinite_nan]
  split
  · simp [isFinite_nan]
  · exact fun _ => ratOf_zero _

end Sys2Proof.F64

namespace Sys2Proof.Machine

theorem compP_of_isSentinel (praw : BitVec 20) {tfine : BitVec 32} {c : CalTP}
    (h : isSentinel (pressTerms tfine c).2 = true) : compP praw tfine c = (0x0000000000000000, true) := by
  have hzero : F64.zero false = 0x0000000000000000 := by decide
  simp only [compP, h, if_true, hzero]

theorem compP_of_not_isSentinel (praw : BitVec 20) {tfine : BitVec 32} {c : CalTP}
    (h : isSentinel (pressTerms tfine c).2 = false) :
    compP praw tfine c = (pressFinish praw (pressTerms tfine c).1 (pressTerms tfine c).2 c, false) := by
  simp only [compP, h, Bool.false_eq_true, if_false]

/-- Settles O50: step 6 multiplies a finite factor by P1. -/
theorem zeroP1GivesThePressureSentinel : Obligations.ZeroP1GivesThePressureSentinel := by
  intro praw tfine c hp1
  have hfin := (F64.pressTerms_bounds tfine c).2.1
  have hzero : F64.isZero (f64u c.p1) = true := by
    rw [hp1]
    decide
  have hv1 : ratOf (pressTerms tfine c).2 = 0 := by
    dsimp only [pressTerms] at hfin ⊢
    exact F64.ratOf_mul_of_isZero hzero hfin
  exact compP_of_isSentinel praw ((F64.isSentinel_eq_true_iff_ratOf hfin).2 hv1)

/-- Settles O52: every step of a stage is bounded by a power of two. -/
theorem stagesGiveFiniteValues : Obligations.StagesGiveFiniteValues := fun r c =>
  ⟨F64.isFinite_compT r.traw c.tp, (F64.compP_finite_or_sentinel r.praw _ c.tp).1, F64.isFinite_compH r.hraw _ c.hu⟩

/-! ### Raw codes -/

theorem toNat_raw20 (msb lsb xlsb : Byte) :
    (raw20 msb lsb xlsb).toNat = (65536 * msb.toNat + 256 * lsb.toNat + xlsb.toNat) / 16 := by
  have hmsb := msb.isLt
  have hlsb := lsb.isLt
  have hxlsb := xlsb.isLt
  have hhigh : (msb.setWidth 20 <<< 12).toNat = msb.toNat <<< 12 := by
    rw [BitVec.toNat_shiftLeft, BitVec.toNat_setWidth_of_le (by decide), Nat.shiftLeft_eq]
    omega
  have hmid : (lsb.setWidth 20 <<< 4).toNat = lsb.toNat <<< 4 := by
    rw [BitVec.toNat_shiftLeft, BitVec.toNat_setWidth_of_le (by decide), Nat.shiftLeft_eq]
    omega
  have hlow : ((xlsb >>> 4).setWidth 20).toNat = xlsb.toNat / 16 := by
    rw [BitVec.toNat_setWidth_of_le (by decide), BitVec.toNat_ushiftRight, Nat.shiftRight_eq_div_pow]
  rw [raw20, BitVec.or_assoc, BitVec.toNat_or, BitVec.toNat_or, hhigh, hmid, hlow,
    ← Nat.shiftLeft_add_eq_or_of_lt (i := 4) (by omega), Nat.shiftLeft_eq lsb.toNat,
    ← Nat.shiftLeft_add_eq_or_of_lt (i := 12) (by omega), Nat.shiftLeft_eq]
  omega

theorem toNat_append_byte (hi lo : Byte) : (hi ++ lo).toNat = 256 * hi.toNat + lo.toNat := by
  rw [BitVec.toNat_append, ← Nat.shiftLeft_add_eq_or_of_lt lo.isLt, Nat.shiftLeft_eq, mul_comm]

/-- Settles O43: the fields of each code do not overlap. -/
theorem unpackRawCompletes : Obligations.UnpackRawCompletes := fun _ _ =>
  ⟨_, _, _, exec_of_succeed rfl, toNat_raw20 _ _ _, toNat_raw20 _ _ _, toNat_append_byte _ _⟩

/-! ### The stages as commands -/

theorem rawInDomain_eq_true {raw : BitVec 32} (h : raw.toNat < 2 ^ 20) : rawInDomain raw = true :=
  decide_eq_true h

/-- A raw code operand in its domain keeps its value as a 20-bit code (R172). -/
theorem f64u_setWidth {raw : BitVec 32} (h : raw.toNat < 2 ^ 20) : f64u (raw.setWidth 20) = F64.ofInt raw.toNat := by
  rw [f64u, BitVec.toNat_setWidth, Nat.mod_eq_of_lt h]

theorem compTCmd_of_lt {traw : BitVec 32} (cal : CalOperand) (s : State) (h : traw.toNat < 2 ^ 20) :
    compTCmd traw cal s = succeed (.temp (compT (traw.setWidth 20) (decodeTpFields cal.blk24)).1
      (compT (traw.setWidth 20) (decodeTpFields cal.blk24)).2) s :=
  if_pos (rawInDomain_eq_true h)

theorem compPCmd_of_lt {praw : BitVec 32} (tfine : BitVec 32) (cal : CalOperand) (s : State) (h : praw.toNat < 2 ^ 20) :
    compPCmd praw tfine cal s = succeed (.press (compP (praw.setWidth 20) tfine (decodeTpFields cal.blk24)).1
      (compP (praw.setWidth 20) tfine (decodeTpFields cal.blk24)).2) s :=
  if_pos (rawInDomain_eq_true h)

/-- Settles O47: the operand's value is its code's, and the sum is the rule's. -/
theorem compTCompletes : Obligations.CompTCompletes := by
  intro s traw cal h c n t v1 a sum
  have hsum : tempSum (traw.setWidth 20) c = sum := by
    rw [tempSum, f64u_setWidth h]
    rfl
  refine (exec_of_succeed (i := .compT traw cal) (compTCmd_of_lt cal s h)).trans ?_
  rw [compT, hsum]

/-- Settles O49: step 6 is a zero exactly where the sentinel holds; else the pressure is that of step 7 and its
refinement. -/
theorem compPCompletes : Obligations.CompPCompletes := by
  intro s praw tfine cal h c n v1 b1 b2 v2 a1 a p1 p2 q r p
  have hexec := exec_of_succeed (i := .compP praw tfine cal) (compPCmd_of_lt tfine cal s h)
  have hterms : pressTerms tfine c = (v2, a) := rfl
  have hfinish : pressFinish (praw.setWidth 20) v2 a c = p := by
    rw [pressFinish, f64u_setWidth h]
    rfl
  have hsent := F64.isSentinel_iff (pressTerms tfine c).2
  clear_value p a v2
  refine ⟨fun hzero => ?_, fun hpos hneg => ?_⟩
  · rw [hexec, compP_of_isSentinel _ (hsent.2 (by rwa [hterms]))]
  · have hnot : isSentinel (pressTerms tfine c).2 = false := by
      rw [Bool.eq_false_iff, ne_eq, hsent, hterms]
      exact not_or.2 ⟨hpos, hneg⟩
    rw [hexec, compP_of_not_isSentinel _ hnot, hterms, hfinish]

/-- Settles O51: every 16-bit code is in the domain, and `compH` is the rule's expression. -/
theorem compHCompletes : Obligations.CompHCompletes := fun _ _ _ _ => exec_of_succeed rfl

/-! ### The clamp and the whole compensation -/

/-- Settles O53: `lim` is the comparison with the bounds, and the flag exempts the pressure (R179, R180). -/
theorem clampCompletes : Obligations.ClampCompletes := by
  intro s t p h flag limit
  have hexempt : (flagSet flag && !s.params.pzeroClamped) = true ↔ flag ≠ 0 ∧ s.params.pzeroClamped = false := by
    simp [flagSet]
  refine (exec_of_succeed (i := .clamp t p h flag) rfl).trans ?_
  simp only [clampMeas, hexempt]
  rfl

theorem compensateCmd_of_lt {praw traw : BitVec 32} (hraw : BitVec 16) (cal : CalOperand) (s : State)
    (hp : praw.toNat < 2 ^ 20) (ht : traw.toNat < 2 ^ 20) :
    compensateCmd praw traw hraw cal s = succeed (.meas (compensate s.params
      { praw := praw.setWidth 20, traw := traw.setWidth 20, hraw := hraw } (decodeCal s.params cal))) s :=
  if_pos (Bool.and_eq_true_iff.2 ⟨rawInDomain_eq_true hp, rawInDomain_eq_true ht⟩)

/-- Settles O55: `compensate` hands the temperature stage's tfine on as it is. -/
theorem compensateCompletes : Obligations.CompensateCompletes := fun s _ _ hraw cal hp ht =>
  exec_of_succeed (compensateCmd_of_lt hraw cal s hp ht)

/-! ### What an outcome depends on -/

theorem withValidCfg_outcome (c : Cfg) (s t : State) (f : Cfg → Payload) :
    (withValidCfg c s f).1 = (withValidCfg c t f).1 := by
  cases hv : validate c with
  | none => rw [withValidCfg_of_valid s f hv, withValidCfg_of_valid t f hv, succeed, succeed]
  | some e => rw [withValidCfg_of_invalid s f hv, withValidCfg_of_invalid t f hv, raise, raise]

/-- The answer is made of the request, the candidates and the next tie choice. -/
theorem nearestStandbyCmd_outcome {s t : State} (req : Int) (hp : s.params = t.params)
    (ht : s.ties = t.ties ∧ s.tiesDrawn = t.tiesDrawn) :
    (nearestStandbyCmd req s).1 = (nearestStandbyCmd req t).1 := by
  have htie : s.nextTie = t.nextTie := by rw [State.nextTie, State.nextTie, ht.1, ht.2]
  rw [nearestStandbyCmd_eq (s := s) rfl, nearestStandbyCmd_eq (s := t) rfl, hp, htie, succeed, succeed]

/-- Of the state, a datapath command's outcome reads the parameters alone, ties apart (R182, R211). -/
theorem datapath_outcome {i : Instr} {s t : State} (hi : isDatapath i = true) (hp : s.params = t.params)
    (ht : ∀ r, i = .nearestStandby r → s.ties = t.ties ∧ s.tiesDrawn = t.tiesDrawn) :
    (cmdOf i s).1 = (cmdOf i t).1 := by
  cases i with
  | decodeTp | unpackRaw => rfl
  | decodeH | compH | clamp => simp only [cmdOf, succeed, hp]
  | compT | compP | compensate =>
    simp only [cmdOf, compTCmd, compPCmd, compensateCmd, apply_ite Prod.fst, succeed, refuse, hp]
  | validateCfg c | encCtrlHum c | encCtrlMeas c | durTypical c | durMax c | durCycle c =>
    exact withValidCfg_outcome c s t _
  | encConfig c =>
    simp only [cmdOf, hp]
    exact withValidCfg_outcome c s t _
  | nearestStandby r => exact nearestStandbyCmd_outcome _ hp (ht r rfl)
  | _ => cases hi

/-- Settles O37: by the command; each reads of the state its parameters, and NEAREST_STANDBY the tie choices. -/
theorem datapathOutcomeDependsOnOperandsAlone : Obligations.DatapathOutcomeDependsOnOperandsAlone := by
  intro i s t s' t' hi hp htie hs ht
  obtain ⟨o, u, hcmds, rfl⟩ := exec_next_cases hs
  obtain ⟨o', u', hcmdt, rfl⟩ := exec_next_cases ht
  have heq := datapath_outcome hi hp htie
  rw [hcmds, hcmdt] at heq
  exact congrArg some heq

end Sys2Proof.Machine
end

section
/-! The proofs about the façade (44_facade.md): what each command does once its register accesses go through (R203 to
R208), what refuses or rejects it before (R202, R209), and which commands write the mode or nothing at all (R200,
R211). -/

namespace Sys2Proof.Machine

/-! ### Before a successful INIT -/

theorem configureCmd_uninit (c : Cfg) {s : State} (h : s.phase = .uninit) :
    configureCmd c s = refuse .notInitialized s := by
  simp [configureCmd, h]

theorem readMeasCmd_uninit {s : State} (h : s.phase = .uninit) : readMeasCmd s = refuse .notInitialized s := by
  simp [readMeasCmd, h]

/-- Settles O13: both commands check the phase right after the closed handle, CONFIGURE before it validates. -/
theorem uninitialisedBlockRefusesConfigureAndRead : Obligations.UninitialisedBlockRefusesConfigureAndRead :=
  fun _ c hp => ⟨exec_of_refuse (configureCmd_uninit c hp), exec_of_refuse (readMeasCmd_uninit hp)⟩

/-- Settles O24: the byte read fails the identity check, which stands before the calibration fetch. -/
theorem initRejectsAnotherIdentity : Obligations.InitRejectsAnotherIdentity := by
  intro s id hopen hread hne
  have hid : byteAt [id] 0 ≠ idExpected := hne
  refine exec_of_raise ?_
  rw [cmdOf, initCmd, memRead_gives _ _ _ s hopen hread]
  exact if_pos hid

/-! ### CONFIGURE -/

theorem modeOf_eq (code : Byte) :
    modeOf code = if code = 0 then .sleep else if code = 1 then .forcedPending else .normal := by
  by_cases h0 : code = 0
  · rw [h0]; rfl
  by_cases h1 : code = 1
  · rw [h1]; rfl
  rw [if_neg h0, if_neg h1, modeOf]
  split
  · next h => exact absurd (BitVec.eq_of_toNat_eq h) h0
  · next h => exact absurd (BitVec.eq_of_toNat_eq h) h1
  · rfl

theorem configureWrites_goesThrough (hum meas conf : Byte) {s : State} (hopen : s.phase ≠ .closed)
    (h0 : s.writeGoesThrough 0) (h2 : s.writeGoesThrough 2) (h4 : s.writeGoesThrough 4) :
    configureWrites hum meas conf s =
      (none, s.afterBus 6 (writeEvents s.devAddr Reg.ctrlHum hum ++ writeEvents s.devAddr Reg.ctrlMeas meas ++
        writeEvents s.devAddr Reg.config conf) (some s.devAddr)) := by
  simp only [configureWrites, memWrite_goesThrough _ _ s hopen h0, memWrite_afterBus_goesThrough _ _ hopen h2,
    memWrite_afterBus_goesThrough _ _ hopen h4]

/-- A valid configuration whose writes went through is put on record (R203). -/
theorem exec_configure_of_writes {c : Cfg} {s t : State} (hp : s.phase = .ready ∨ s.phase = .configured)
    (hvalid : validate c = none)
    (h : configureWrites (ctrlHumOf c) (ctrlMeasOf c) (configOf s.params.configLayout c) s = (none, t)) :
    exec (.configure c) s = .next ((t.configuredAs c).succeeded .none) := by
  refine exec_of_succeed ?_
  simp [cmdOf, configureCmd, not_closed_of_ready_or_configured hp, not_uninit_of_ready_or_configured hp, hvalid, h]

/-- Settles O26: the three writes go through, and the encoders' fields do not overlap. -/
theorem configureCompletes : Obligations.ConfigureCompletes := by
  intro s c hp hh hpr ht hm hf hs h0 h2 h4
  have hmode : c.mode.toNat < 4 := by rcases hm with h | h | h <;> rw [h] <;> decide
  refine ⟨ctrlHumOf c, ctrlMeasOf c, configOf s.params.configLayout c, rfl, ?_, fun hl => ?_, fun hl => ?_, ?_⟩
  · rw [ctrlMeasOf_eq_ofNat hpr hmode, BitVec.toNat_ofNat]
    omega
  · rw [hl, configOf_doc_eq_ofNat hf, BitVec.toNat_ofNat]
    omega
  · rw [hl, configOf_vendor_eq_ofNat hf, BitVec.toNat_ofNat]
    omega
  · have hopen := not_closed_of_ready_or_configured hp
    rw [exec_configure_of_writes hp (validate_of_valid hh hpr ht hm hf hs)
      (configureWrites_goesThrough _ _ _ hopen h0 h2 h4), ← modeOf_eq]
    rfl

/-! ### SOFT_RESET -/

theorem softResetCmd_goesThrough {s : State} (hopen : s.phase ≠ .closed) (h : s.writeGoesThrough 0) :
    softResetCmd s = reapplyAfterReset (s.afterBus 2
      (writeEvents s.devAddr Reg.softReset resetCmd ++ [.dly resetSettleUs]) (some s.devAddr)).afterSoftReset := by
  rw [softResetCmd, memWrite_goesThrough _ _ s hopen h]
  simp only [delay_eq, State.afterBus_afterBus, State.afterBus_tSel, Nat.add_zero]

theorem reapplyAfterReset_of_not_asked {s : State}
    (h : s.params.resetReappliesConfig = false ∨ s.calValid = false ∨ s.lastCfg = none) :
    reapplyAfterReset s = succeed .none s := by
  rw [reapplyAfterReset]
  split
  · next c hc =>
    refine if_neg ?_
    rcases h with h | h | h
    · simp [h]
    · simp [h]
    · rw [hc] at h
      cases h
  · rfl

theorem reapplyAfterReset_of_asked {s : State} {c : Cfg} (hr : s.params.resetReappliesConfig = true)
    (hcal : s.calValid = true) (hc : s.lastCfg = some c) : reapplyAfterReset s = configureCmd c s := by
  simp [reapplyAfterReset, hr, hcal, hc]

/-- Settles O28: after the write and the delay, by whether the re-application is asked for and possible. -/
theorem softResetCompletes : Obligations.SoftResetCompletes := by
  intro s r hopen hwrite hr
  have hcmd : cmdOf .softReset s = reapplyAfterReset r := hr ▸ softResetCmd_goesThrough hopen hwrite
  subst hr
  refine ⟨fun hplain => ?_, fun c hasked hcal hc => ?_⟩
  · exact exec_of_succeed (hcmd.trans (reapplyAfterReset_of_not_asked hplain))
  · rw [exec_eq_reply, exec_eq_reply, hcmd.trans (reapplyAfterReset_of_asked hasked hcal hc), cmdOf]

/-! ### READ_MEAS -/

theorem readMeasCmd_gives {s : State} {d : List Byte} (hp : s.phase = .ready ∨ s.phase = .configured)
    (hcal : s.calValid = true) (h : s.readGives 0 8 d) :
    readMeasCmd s = succeed (.meas (compensate s.params (unpackRaw d) s.cal))
      (s.afterBus 3 (readEvents s.devAddr Reg.data 8 d) (some s.devAddr)).afterRead := by
  have hopen := not_closed_of_ready_or_configured hp
  rw [readMeasCmd, if_neg hopen, if_neg (not_uninit_of_ready_or_configured hp), if_neg (by simp [hcal]),
    memRead_gives _ _ _ s hopen h]
  rfl

/-- Settles O29: every check is passed, and the burst leaves the parameters and the snapshot as they were. -/
theorem readMeasCompletes : Obligations.ReadMeasCompletes :=
  fun _ _ hp hcal hread => exec_of_succeed (readMeasCmd_gives hp hcal hread)

/-! ### CLOSE -/

/-- Settles O30: CLOSE checks nothing and calls nothing. -/
theorem closeCompletes : Obligations.CloseCompletes :=
  fun _ => exec_of_succeed rfl

/-! ### Who writes the mode, and who writes nothing -/

theorem BusRun.mode {s t : State} {fs : List (List Byte)} (h : BusRun s t fs) : t.mode = s.mode := by
  rw [h.frame]

/-- Settles O32: by the effects of a command, of which those of four commands can write the mode. -/
theorem modeChangesOnlyByFacadeTransitions : Obligations.ModeChangesOnlyByFacadeTransitions := by
  intro i s t h hne
  obtain ⟨o, u, hcmd, rfl⟩ := exec_next_cases h
  rw [reply_mode] at hne
  simp only [reply_mode, reply_lastCfg, reply_result]
  cases cmd_effect hcmd with
  | refused | computed | tied => exact absurd rfl hne
  | failed _ _ _ hb | accessed _ _ _ hb | initialised _ _ _ _ hb => exact absurd hb.mode hne
  | configured c hi => exact .inl ⟨c, hi, rfl, rfl, rfl⟩
  | measured hi _ _ u m hb =>
    rw [State.afterRead_mode, hb.mode] at hne
    have hpending : s.mode = .forcedPending := by
      by_contra hm
      exact hne (if_neg hm)
    refine .inr (.inl ⟨hi, hpending, ?_, m, rfl⟩)
    rw [State.afterRead_mode, hb.mode, if_pos hpending]
  | reset hi => exact .inr (.inr (.inl ⟨hi, .inl rfl⟩))
  | resetThenFailed hi _ hr | resetThenConfigured hi _ hr => exact .inr (.inr (.inl ⟨hi, .inr hr⟩))
  | closed hi => exact .inr (.inr (.inr ⟨hi, rfl⟩))

/-- Settles O36: the command leaves the state alone or, as NEAREST_STANDBY, uses up a tie choice. -/
theorem datapathCommandsWriteNoState : Obligations.DatapathCommandsWriteNoState := by
  intro i s t hi h
  obtain ⟨o, u, hcmd, rfl⟩ := exec_next_cases h
  rcases datapath_cases hi hcmd with rfl | ⟨⟨r, rfl⟩, rfl⟩
  · exact ⟨rfl, fun _ => ⟨rfl, rfl⟩⟩
  · exact ⟨rfl, fun hnot => absurd rfl (hnot r)⟩

end Sys2Proof.Machine
end

section
/-! The proofs about how a command ends (60_exceptions.md): every instruction returns an outcome, a refusal writes only
its mark, which stays to the end of the run, and an error leaves the record as it was (R230, R232, R239, R240). -/

namespace Sys2Proof.Machine

/-! ### The refusal mark -/

theorem BusRun.refusalMark {s t : State} {fs : List (List Byte)} (h : BusRun s t fs) : t.refusalMark = s.refusalMark := by
  rw [h.frame]

/-- No command writes the mark by itself: only returning a refusal does (R232). -/
theorem CmdEffect.refusalMark {i : Instr} {s t : State} {o : CmdOutcome} (h : CmdEffect i s o t) :
    t.refusalMark = s.refusalMark := by
  cases h with
  | refused | computed | tied | closed => rfl
  | failed _ _ _ hb | accessed _ _ _ hb | initialised _ _ _ _ hb | configured _ _ _ _ _ hb | reset _ _ _ hb
  | measured _ _ _ _ _ hb => exact hb.refusalMark
  | resetThenFailed _ _ _ _ _ hb _ _ _ ht | resetThenConfigured _ _ _ _ _ hb _ _ _ _ _ ht =>
    exact ht.refusalMark.trans hb.refusalMark

theorem cmdOf_refusalMark (i : Instr) (s : State) : (cmdOf i s).2.refusalMark = s.refusalMark :=
  (cmd_effect (i := i) (s := s) rfl).refusalMark

/-- Settles O9: the outcome is the command's, and returning it is what writes the mark. -/
theorem everyInstructionReturnsAnOutcome : Obligations.EveryInstructionReturnsAnOutcome := fun i s =>
  ⟨reply (cmdOf i s), (cmdOf i s).1, exec_eq_reply i s, rfl, by
    rw [reply_refusalMark, cmdOf_refusalMark, Bool.or_eq_true]⟩

/-- A refused command did nothing before its refusal was returned (R232). -/
theorem CmdEffect.eq_of_refused {i : Instr} {s t : State} {r : RefuseReason} (h : CmdEffect i s (.refused r) t) :
    t = s := by
  cases h
  rfl

theorem exec_refused {i : Instr} {s t : State} {r : RefuseReason} (h : exec i s = .next t)
    (hr : t.result = some (.refused r)) : t = s.refusedWith r := by
  obtain ⟨o, u, hcmd, rfl⟩ := exec_next_cases h
  obtain rfl : o = .refused r := Option.some.inj hr
  rw [(cmd_effect hcmd).eq_of_refused]
  exact reply_refuse r s

/-! ### The mark stays -/

theorem reply_cmdOf_keeps_mark (i : Instr) {s : State} (hs : s.refusalMark = true) :
    (reply (cmdOf i s)).refusalMark = true := by
  rw [reply_refusalMark, cmdOf_refusalMark, hs, Bool.true_or]

theorem step_keeps_mark {s t : State} (hs : s.refusalMark = true) (h : step s = .next t) : t.refusalMark = true := by
  rcases step_next_cases h with rfl | ⟨i, u, hu, hexec⟩ | ⟨r, u, -, rfl⟩
  · exact hs
  · have hmark : u.refusalMark = true := by rw [hu, hs]
    rw [exec_eq_reply] at hexec
    cases hexec
    exact reply_cmdOf_keeps_mark i hmark
  · exact State.refusedWith_refusalMark u r

theorem runReapply_keeps_mark {s : State} (hs : s.refusalMark = true) : (runReapply s).refusalMark = true := by
  cases hc : s.lastCfg with
  | some c =>
    rw [runReapply_of_some hc]
    exact reply_cmdOf_keeps_mark (.configure c) hs
  | none => rw [runReapply_of_none hc, State.refusedWith_refusalMark]

/-- The SOFT_RESET keeps the mark, and so does the REAPPLY that runs after its success (R74). -/
theorem runResetAndReapply_keeps_mark {s : State} (hs : s.refusalMark = true) :
    (runResetAndReapply s).refusalMark = true := by
  have hreset := reply_cmdOf_keeps_mark .softReset hs
  rw [cmdOf] at hreset
  unfold runResetAndReapply
  split <;> rename_i hcmd <;> rw [hcmd] at hreset
  · exact runReapply_keeps_mark hreset
  · exact hreset
  · exact hreset

theorem runPseudo_keeps_mark (p : Pseudo) {s : State} (hs : s.refusalMark = true) :
    (runPseudo p s).refusalMark = true := by
  cases p with
  | reapply => exact runReapply_keeps_mark hs
  | resetAndReapply => exact runResetAndReapply_keeps_mark hs

/-! ### A run with a refusal -/

/-- A mark set anywhere in a run is set at its end, where a claim looks for it. -/
theorem not_runClaim_of_mark {s t : State} {k n : Nat} {P : State → Prop} (hkn : k ≤ n)
    (hrun : Sys2Proof.core.run k s = .next t) (hmark : t.refusalMark = true) : ¬ RunClaim s n P := by
  rintro ⟨u, hu, hunrefused, -⟩
  obtain ⟨m, rfl⟩ := Nat.exists_eq_add_of_le hkn
  have hend : u.refusalMark = true := run_keeps (fun _ _ => step_keeps_mark) hmark (core_run_add hrun hu)
  exact Bool.false_ne_true (hunrefused.symm.trans hend)

/-- Settles O10: a refused command did nothing; the mark stays; and the invariant, kept along the run, puts a mark where
the result is a refusal. -/
theorem refusalWritesOnlyItsMarkAndSpoilsTheRun : Obligations.RefusalWritesOnlyItsMarkAndSpoilsTheRun := by
  refine ⟨fun _ _ _ _ => exec_refused, fun _ _ => step_keeps_mark, fun p _ => runPseudo_keeps_mark p, ?_⟩
  intro s t k n P hs hkn hrun href
  have hinv : t.Inv := run_keeps recordInvariantIsKeptByEveryStep hs hrun
  refine not_runClaim_of_mark hkn hrun ?_
  rcases href with hmark | ⟨r, hr⟩
  · exact hmark
  · exact hinv.refusalMarked r hr

/-! ### An error -/

theorem BusRun.sameRecord {s t : State} {fs : List (List Byte)} (h : BusRun s t fs) : SameRecord s t :=
  ⟨h.devAddr, h.phase, h.mode, h.calValid, h.cal, h.lastCfg⟩

/-- Returning an outcome writes nothing of the record (R239). -/
theorem SameRecord.reply {s t : State} (h : SameRecord s t) (o : CmdOutcome) : SameRecord s (reply (o, t)) := h

/-- Around the reset's own move the bus leaves the record alone; with a valid snapshot that move is to READY and mode
NONE (R205). -/
theorem sameRecord_of_reset_then_bus {s u t : State} {fs gs : List (List Byte)} (hc : s.calValid = true)
    (hb : BusRun s u fs) (ht : BusRun u.afterSoftReset t gs) :
    SameRecord { s with phase := .ready, mode := .none } t := by
  have hphase : u.afterSoftReset.phase = .ready := by rw [State.afterSoftReset_phase, hb.calValid, if_pos hc]
  exact ⟨ht.devAddr.trans hb.devAddr, ht.phase.trans hphase, ht.mode, ht.calValid.trans hb.calValid,
    ht.cal.trans hb.cal, ht.lastCfg.trans hb.lastCfg⟩

/-- Settles O11: of the effects of a command two end with an error, and the second is the nested one of SOFT_RESET. -/
theorem failedCommandKeepsTheRecord : Obligations.FailedCommandKeepsTheRecord := by
  intro i s t e h he
  obtain ⟨o, u, hcmd, rfl⟩ := exec_next_cases h
  obtain rfl : o = .error e := Option.some.inj he
  cases cmd_effect hcmd with
  | failed _ _ fs hb => exact .inl (hb.sameRecord.reply _)
  | resetThenFailed hi _ hr hc v hb _ _ fs ht =>
    exact .inr ⟨hi, hr, hc, (sameRecord_of_reset_then_bus hc hb ht).reply _⟩

end Sys2Proof.Machine
end
